-- ==== Sys2Proof/Word.lean ====
section
/-! DEFINITION. The words of the NeoLED CORE (spec/00_scope.md R9, R16; spec/30_encoding.md R70): bytes, the 32-bit
words of a response and of an address, the 128-bit command word, and the pixel in storage order. -/

namespace Sys2Proof

/-- `u8` of R9: one channel, one symbol byte, a brightness, a pin id. -/
abbrev Byte := BitVec 8

/-- `u32` of R9: `RESULT`, `FPTR`, `FLEN`, a hexadecimal word. -/
abbrev Word32 := BitVec 32

/-- `u64` of R9: the pattern of a binary64 gamma (R77). -/
abbrev Word64 := BitVec 64

/-- One command word `CW[127:0]` (R70). -/
abbrev CommandWord := BitVec 128

/-- A pixel `px(g, r, b)`: three bytes in storage order, green first (R16, R52). -/
structure Pixel where
  g : Byte
  r : Byte
  b : Byte
  deriving DecidableEq, Repr, Inhabited

/-- The three channels of a pixel in the order they are stored and sent (R52, R152). -/
def Pixel.channels (p : Pixel) : List Byte := [p.g, p.r, p.b]

/-- The same function applied to each channel. -/
def Pixel.map (f : Byte → Byte) (p : Pixel) : Pixel := ⟨f p.g, f p.r, f p.b⟩

/-- `px(0, 0, 0)`, every pixel of an all-off frame (R150). -/
def Pixel.black : Pixel := ⟨0, 0, 0⟩

end Sys2Proof
end

