-- ==== Sys2Proof/Syntax.lean ====
section
/-! DEFINITION. The commands of the block (spec/30_encoding.md R80): one constructor of `Instr` per row of the opcode table, its
arguments the operands of the row's format (R74 to R78) at the widths of their fields; the opcodes and the ten
formats by name; and a line of assembler (R84, R86), whose operands are numbers of any size. -/

namespace Sys2Proof

/-- The operand formats of R74. -/
inductive Format where
  | f0 | fs | ft | fts | fp | fw | fpps | fpg | ff | ffs
  deriving DecidableEq, Repr

/-- The eighteen opcodes of R80. -/
inductive Opcode where
  | mkpix | mkpixb | wheel | hsv | hue | hexv | fromhex | blend | gamma
  | init | initpin | update | updateb | clear | destroy | isinit | setbr | getbr
  deriving DecidableEq, Repr

/-- A command with its operands. -/
inductive Instr where
  /-- `MKPIX r, g, b` (R103). -/
  | mkpix (r g b : Byte)
  /-- `MKPIXB r, g, b, br` (R104). -/
  | mkpixb (r g b br : Byte)
  /-- `WHEEL h` (R106). -/
  | wheel (h : Byte)
  /-- `HSV h, s, v` (R110). -/
  | hsv (h s v : Byte)
  /-- `HUE px(g, r, b)` (R111). -/
  | hue (a : Pixel)
  /-- `HEXV px(g, r, b)` (R113). -/
  | hexv (a : Pixel)
  /-- `FROMHEX w` (R114). -/
  | fromhex (w : Word32)
  /-- `BLEND px(a), px(b), amount` (R116). -/
  | blend (a b : Pixel) (amount : Byte)
  /-- `GAMMA px(g, r, b), G` (R122). -/
  | gamma (a : Pixel) (pattern : Word64)
  /-- `INIT` (R184). -/
  | init
  /-- `INITPIN pin` (R185). -/
  | initpin (pin : Byte)
  /-- `UPDATE fptr, flen` (R187). -/
  | update (fptr flen : Word32)
  /-- `UPDATEB fptr, flen, br` (R188). -/
  | updateb (fptr flen : Word32) (br : Byte)
  /-- `CLEAR` (R189). -/
  | clear
  /-- `DESTROY` (R190). -/
  | destroy
  /-- `ISINIT` (R191). -/
  | isinit
  /-- `SETBR b` (R192). -/
  | setbr (b : Byte)
  /-- `GETBR` (R193). -/
  | getbr
  deriving DecidableEq, Repr

/-- The opcode of a command. -/
def Instr.opcode : Instr → Opcode
  | .mkpix _ _ _ => .mkpix
  | .mkpixb _ _ _ _ => .mkpixb
  | .wheel _ => .wheel
  | .hsv _ _ _ => .hsv
  | .hue _ => .hue
  | .hexv _ => .hexv
  | .fromhex _ => .fromhex
  | .blend _ _ _ => .blend
  | .gamma _ _ => .gamma
  | .init => .init
  | .initpin _ => .initpin
  | .update _ _ => .update
  | .updateb _ _ _ => .updateb
  | .clear => .clear
  | .destroy => .destroy
  | .isinit => .isinit
  | .setbr _ => .setbr
  | .getbr => .getbr

/-- An operand as written: a number, a pixel `px(g, r, b)` in storage order, or `f64(decimal)` with the decimal given as
a sign and a fraction (R84). -/
inductive AsmOperand where
  | num (n : Nat)
  | px (g r b : Nat)
  | f64 (negative : Bool) (numerator denominator : Nat)
  deriving DecidableEq, Repr

/-- A mnemonic: one of the opcodes (R80) or one of the three pseudo-instructions (R86). -/
inductive AsmMnemonic where
  | core (o : Opcode)
  | fromhexL
  | gamma22
  | updatef
  deriving DecidableEq, Repr

/-- One line: a mnemonic and its operands. -/
structure AsmLine where
  mnemonic : AsmMnemonic
  operands : List AsmOperand
  deriving DecidableEq, Repr

end Sys2Proof
end

