-- ==== Sys2Proof/Decode.lean ====
section
/-! DEFINITION. Decoding and encoding of command words (spec/30_encoding.md R70 to R83).  `decode` is total on all 2^128 words
and rejects by name (R81); `encode` puts each operand in the field its format gives it. -/

namespace Sys2Proof

/-- The six fields of a command word (R71). -/
structure Fields where
  op : BitVec 8
  s8 : BitVec 8
  z0 : BitVec 16
  p24 : BitVec 24
  z1 : BitVec 8
  x64 : BitVec 64
  deriving DecidableEq, Repr

/-- Why a word is ILLEGAL (R81): a reserved opcode (R83), or a non-zero must-be-zero bit (R82). -/
inductive DecodeError where
  | reservedOpcode
  | nonzeroReservedBits
  deriving DecidableEq, Repr

/-- What decoding a word gives (R81). -/
inductive Decoded where
  | legal (i : Instr)
  | illegal (why : DecodeError)
  deriving DecidableEq, Repr

/-- The fields of a word, at the bit positions of R71. -/
def fieldsOf (cw : CommandWord) : Fields where
  op := cw.extractLsb' 0 8
  s8 := cw.extractLsb' 8 8
  z0 := cw.extractLsb' 16 16
  p24 := cw.extractLsb' 32 24
  z1 := cw.extractLsb' 56 8
  x64 := cw.extractLsb' 64 64

/-- The word with the given fields (R71). -/
def packFields (f : Fields) : CommandWord := f.x64 ++ f.z1 ++ f.p24 ++ f.z0 ++ f.s8 ++ f.op

/-- The opcode map of R80; every other byte is reserved (R83). -/
def opcodeOfByte (op : BitVec 8) : Option Opcode :=
  match op.toNat with
  | 0x01 => some .mkpix
  | 0x02 => some .mkpixb
  | 0x03 => some .wheel
  | 0x04 => some .hsv
  | 0x05 => some .hue
  | 0x06 => some .hexv
  | 0x07 => some .fromhex
  | 0x08 => some .blend
  | 0x09 => some .gamma
  | 0x10 => some .init
  | 0x11 => some .initpin
  | 0x12 => some .update
  | 0x13 => some .updateb
  | 0x14 => some .clear
  | 0x15 => some .destroy
  | 0x16 => some .isinit
  | 0x17 => some .setbr
  | 0x18 => some .getbr
  | _ => none

/-- The number of an opcode (R80). -/
def opcodeByte : Opcode → BitVec 8
  | .mkpix => 0x01
  | .mkpixb => 0x02
  | .wheel => 0x03
  | .hsv => 0x04
  | .hue => 0x05
  | .hexv => 0x06
  | .fromhex => 0x07
  | .blend => 0x08
  | .gamma => 0x09
  | .init => 0x10
  | .initpin => 0x11
  | .update => 0x12
  | .updateb => 0x13
  | .clear => 0x14
  | .destroy => 0x15
  | .isinit => 0x16
  | .setbr => 0x17
  | .getbr => 0x18

/-- The format of each opcode (R74, R80). -/
def opcodeFormat : Opcode → Format
  | .mkpix => .ft
  | .mkpixb => .fts
  | .wheel => .fs
  | .hsv => .ft
  | .hue => .fp
  | .hexv => .fp
  | .fromhex => .fw
  | .blend => .fpps
  | .gamma => .fpg
  | .init => .f0
  | .initpin => .fs
  | .update => .ff
  | .updateb => .ffs
  | .clear => .f0
  | .destroy => .f0
  | .isinit => .f0
  | .setbr => .fs
  | .getbr => .f0

/-- The must-be-zero bits of each format (R81, R82): the opcode table's mask outside CW[7:0]. -/
def mbzMask : Format → CommandWord
  | .f0 => 0xFFFFFFFFFFFFFFFFFFFFFFFFFFFFFF00
  | .fs => 0xFFFFFFFFFFFFFFFFFFFFFFFFFFFF0000
  | .ft => 0xFFFFFFFFFFFFFFFFFF000000FFFFFF00
  | .fts => 0xFFFFFFFFFFFFFFFFFF000000FFFF0000
  | .fp => 0xFFFFFFFFFFFFFFFFFF000000FFFFFF00
  | .fw => 0xFFFFFFFF00000000FFFFFFFFFFFFFF00
  | .fpps => 0xFFFFFFFFFF000000FF000000FFFF0000
  | .fpg => 0x0000000000000000FF000000FFFFFF00
  | .ff => 0x0000000000000000FFFFFFFFFFFFFF00
  | .ffs => 0x0000000000000000FFFFFFFFFFFF0000

/-- The operand `A` of a triple (R75). -/
def tripleA (p24 : BitVec 24) : Byte := p24.extractLsb' 16 8

/-- The operand `B` of a triple (R75). -/
def tripleB (p24 : BitVec 24) : Byte := p24.extractLsb' 8 8

/-- The operand `C` of a triple (R75). -/
def tripleC (p24 : BitVec 24) : Byte := p24.extractLsb' 0 8

/-- A 24-bit field read as a pixel in storage order (R76). -/
def pixelOfBits (p24 : BitVec 24) : Pixel := ⟨p24.extractLsb' 16 8, p24.extractLsb' 8 8, p24.extractLsb' 0 8⟩

/-- A pixel packed in storage order, `{g, r, b}` (R76, R101). -/
def pixelBits (p : Pixel) : BitVec 24 := p.g ++ p.r ++ p.b

/-- The operands of a legal word (R74 to R78); no field is extended, scaled or shifted (R71, R79). -/
def operandsOf (o : Opcode) (f : Fields) : Instr :=
  match o with
  | .mkpix => .mkpix (tripleA f.p24) (tripleB f.p24) (tripleC f.p24)
  | .mkpixb => .mkpixb (tripleA f.p24) (tripleB f.p24) (tripleC f.p24) f.s8
  | .wheel => .wheel f.s8
  | .hsv => .hsv (tripleA f.p24) (tripleB f.p24) (tripleC f.p24)
  | .hue => .hue (pixelOfBits f.p24)
  | .hexv => .hexv (pixelOfBits f.p24)
  | .fromhex => .fromhex (f.x64.extractLsb' 0 32)
  | .blend => .blend (pixelOfBits f.p24) (pixelOfBits (f.x64.extractLsb' 0 24)) f.s8
  | .gamma => .gamma (pixelOfBits f.p24) f.x64
  | .init => .init
  | .initpin => .initpin f.s8
  | .update => .update (f.x64.extractLsb' 0 32) (f.x64.extractLsb' 32 32)
  | .updateb => .updateb (f.x64.extractLsb' 0 32) (f.x64.extractLsb' 32 32) f.s8
  | .clear => .clear
  | .destroy => .destroy
  | .isinit => .isinit
  | .setbr => .setbr f.s8
  | .getbr => .getbr

/-- R81: the opcode is looked up, then the must-be-zero bits of its format are checked, then the operands are read. -/
def decode (cw : CommandWord) : Decoded :=
  match opcodeOfByte (fieldsOf cw).op with
  | none => .illegal .reservedOpcode
  | some o =>
    if cw &&& mbzMask (opcodeFormat o) = 0 then .legal (operandsOf o (fieldsOf cw))
    else .illegal .nonzeroReservedBits

/-- `decodeTableWord nbits w`: the instruction read from the word whose low `nbits` bits are those of `w` and whose other
bits are zero.  The command word is presented whole in one transaction (R70), so no byte order enters. -/
def decodeTableWord (nbits w : Nat) : Option Instr :=
  match decode (BitVec.ofNat 128 (w % 2 ^ nbits)) with
  | .legal i => some i
  | .illegal _ => none

/-- The fields of a command's word (R74 to R78, R80, R84); a field the format does not use is zero (R82). -/
def encodeFields : Instr → Fields
  | .mkpix r g b => ⟨0x01, 0, 0, r ++ g ++ b, 0, 0⟩
  | .mkpixb r g b br => ⟨0x02, br, 0, r ++ g ++ b, 0, 0⟩
  | .wheel h => ⟨0x03, h, 0, 0, 0, 0⟩
  | .hsv h s v => ⟨0x04, 0, 0, h ++ s ++ v, 0, 0⟩
  | .hue a => ⟨0x05, 0, 0, pixelBits a, 0, 0⟩
  | .hexv a => ⟨0x06, 0, 0, pixelBits a, 0, 0⟩
  | .fromhex w => ⟨0x07, 0, 0, 0, 0, (0 : BitVec 32) ++ w⟩
  | .blend a b amount => ⟨0x08, amount, 0, pixelBits a, 0, (0 : BitVec 40) ++ pixelBits b⟩
  | .gamma a pattern => ⟨0x09, 0, 0, pixelBits a, 0, pattern⟩
  | .init => ⟨0x10, 0, 0, 0, 0, 0⟩
  | .initpin pin => ⟨0x11, pin, 0, 0, 0, 0⟩
  | .update fptr flen => ⟨0x12, 0, 0, 0, 0, flen ++ fptr⟩
  | .updateb fptr flen br => ⟨0x13, br, 0, 0, 0, flen ++ fptr⟩
  | .clear => ⟨0x14, 0, 0, 0, 0, 0⟩
  | .destroy => ⟨0x15, 0, 0, 0, 0, 0⟩
  | .isinit => ⟨0x16, 0, 0, 0, 0, 0⟩
  | .setbr b => ⟨0x17, b, 0, 0, 0, 0⟩
  | .getbr => ⟨0x18, 0, 0, 0, 0, 0⟩

/-- The command word of a command. -/
def encode (i : Instr) : CommandWord := packFields (encodeFields i)

end Sys2Proof
end

