-- ==== Sys2Proof/Config.lean ====
section
/-! DEFINITION. The parameters of the block (spec/00_scope.md R7, R8): fixed for the block's lifetime, one record per block, so
that a claim about every state is a claim about every value of every OPEN parameter.  A parameter that is a FUNCTION
(GAMMA_POW, HSV_FN, HUE_FN) stands in the record as the name of a choice; the choice "platform" is a constant of this
file with no body, of which nothing can be proved but its type. -/

namespace Sys2Proof

/-- GAMMA_POW of R7: the exact value rounded half up (R121, the default), or the value of some floating-point library,
of which only "within 1 of the exact value" is known (R121, decision D13). -/
inductive GammaPowFn where
  | exact
  | platform
  deriving DecidableEq, Repr

/-- HSV_FN of R7: the p/q/t formulas and region table of R108 and R109 (the default), or another reading of "standard"
(decision D14). -/
inductive HsvFn where
  | standard
  | platform
  deriving DecidableEq, Repr

/-- HUE_FN of R7, OPEN: the reference function of decision D15, or any total function of the pixel. -/
inductive HueFn where
  | reference
  | platform
  deriving DecidableEq, Repr

/-- The implementation parameters of R7.  No step writes them (R8, R36). -/
structure Params where
  /-- `N`, the LED count. -/
  ledCount : Nat
  /-- `SAMPLE_RATE_HZ`. -/
  sampleRateHz : Nat
  /-- `RESET_GAP_LEN`, the length of the trailer in bytes. -/
  resetGapLen : Nat
  /-- `DEFAULT_PIN`. -/
  defaultPin : Byte
  /-- `DEFAULT_CHANNEL`, which the block never reads (decision D42). -/
  defaultChannel : Nat
  /-- `SETTLE_DELAY_MS`. -/
  settleDelayMs : Nat
  /-- `SYMTAB[0..3]` (R32). -/
  symtab : Vector Byte 4
  /-- `GAMMA_LUT[0..255]` (R33). -/
  gammaLut : Vector Byte 256
  gammaPow : GammaPowFn
  hsvFn : HsvFn
  hueFn : HueFn
  /-- `NOMEM_POSSIBLE` (R226). -/
  nomemPossible : Bool
  deriving DecidableEq, Repr

/-- `BYTES_PER_PIXEL` of R7: four symbol bytes for each of three channels. -/
def Config.bytesPerPixel : Nat := 12

/-- FREE VALUE (R111, I9): the platform's HUE_FN on a chromatic pixel. -/
opaque Config.hueFn : Pixel → Byte

/-- FREE VALUE (R108, I10): the platform's HSV_FN, a function of region, remainder, s and v (R107). -/
opaque Config.hsvFn : Nat → Nat → Byte → Byte → Pixel

/-- FREE VALUE (R121, I7): which of the admissible values the platform's GAMMA_POW gives for a gamma and a channel. -/
opaque Config.gammaPick : Word64 → Byte → Nat

/-- Rows 0 to 63 of the default gamma table, as decision D11 prints them. -/
def Config.defaultGammaPart0 : List Byte :=
  [
   0, 0, 0, 0, 0, 0, 0, 0, 0, 0, 0, 0, 0, 0, 0, 1,
   1, 1, 1, 1, 1, 1, 1, 1, 1, 2, 2, 2, 2, 2, 2, 2,
   3, 3, 3, 3, 3, 4, 4, 4, 4, 5, 5, 5, 5, 6, 6, 6,
   6, 7, 7, 7, 8, 8, 8, 9, 9, 9, 10, 10, 11, 11, 11, 12]

/-- Rows 64 to 127 of the default gamma table, as decision D11 prints them. -/
def Config.defaultGammaPart1 : List Byte :=
  [
   12, 13, 13, 13, 14, 14, 15, 15, 16, 16, 17, 17, 18, 18, 19, 19,
   20, 20, 21, 22, 22, 23, 23, 24, 25, 25, 26, 26, 27, 28, 28, 29,
   30, 30, 31, 32, 33, 33, 34, 35, 35, 36, 37, 38, 39, 39, 40, 41,
   42, 43, 43, 44, 45, 46, 47, 48, 49, 49, 50, 51, 52, 53, 54, 55]

/-- Rows 128 to 191 of the default gamma table, as decision D11 prints them. -/
def Config.defaultGammaPart2 : List Byte :=
  [
   56, 57, 58, 59, 60, 61, 62, 63, 64, 65, 66, 67, 68, 69, 70, 71,
   73, 74, 75, 76, 77, 78, 79, 81, 82, 83, 84, 85, 87, 88, 89, 90,
   91, 93, 94, 95, 97, 98, 99, 100, 102, 103, 105, 106, 107, 109, 110, 111,
   113, 114, 116, 117, 119, 120, 121, 123, 124, 126, 127, 129, 130, 132, 133, 135]

/-- Rows 192 to 255 of the default gamma table, as decision D11 prints them. -/
def Config.defaultGammaPart3 : List Byte :=
  [
   137, 138, 140, 141, 143, 145, 146, 148, 149, 151, 153, 154, 156, 158, 159, 161,
   163, 165, 166, 168, 170, 172, 173, 175, 177, 179, 181, 182, 184, 186, 188, 190,
   192, 194, 196, 197, 199, 201, 203, 205, 207, 209, 211, 213, 215, 217, 219, 221,
   223, 225, 227, 229, 231, 234, 236, 238, 240, 242, 244, 246, 248, 251, 253, 255]
/-- The default `GAMMA_LUT` (decision D11). -/
def Config.defaultGammaLut : Vector Byte 256 :=
  ⟨(defaultGammaPart0 ++ defaultGammaPart1 ++ defaultGammaPart2 ++ defaultGammaPart3).toArray, by decide +kernel⟩

/-- The parameters of the block that `State.reset` shows: the defaults of R7 where it gives one; the values of the OPEN
ones are the model's (DESIGN CHOICE, log entry 2), and no statement rests on them. -/
def Config.default : Params where
  ledCount := 1
  sampleRateHz := 93750
  resetGapLen := 48
  defaultPin := 0
  defaultChannel := 0
  settleDelayMs := 1
  symtab := #v[0x88, 0x8E, 0xE8, 0xEE]
  gammaLut := Config.defaultGammaLut
  gammaPow := .exact
  hsvFn := .standard
  hueFn := .platform
  nomemPossible := false

/-- `SYMBUF_LEN = 12*N` (R7). -/
def Params.symbufLen (p : Params) : Nat := Config.bytesPerPixel * p.ledCount

/-- `TRAILER`: `RESET_GAP_LEN` bytes, each 0x00, constant (R35). -/
def Params.trailer (p : Params) : List Byte := List.replicate p.resetGapLen 0

end Sys2Proof
end

