-- ==== Sys2Proof/Machine/ColorMath.lean ====
section
/-! DEFINITION. The arithmetic of the Color Model (spec/40_color_model.md R102 to R116), on exact integers, narrowed at the end
(spec/00_scope.md R9, R10). -/

namespace Sys2Proof.Machine

/-- `scale(c, br) = (c * br) / 255`, truncating (R102). -/
def scale (c br : Byte) : Byte := BitVec.ofNat 8 (c.toNat * br.toNat / 255)

/-- A pixel with each channel scaled (R102, R151). -/
def scalePixel (p : Pixel) (br : Byte) : Pixel := p.map fun c => scale c br

/-- A rising ramp of the hue wheel, `(o*3) mod 256` (R105). -/
def rampUp (o : Nat) : Byte := BitVec.ofNat 8 (o * 3)

/-- A falling ramp of the hue wheel, `(255 - o*3) mod 256` (R105). -/
def rampDown (o : Nat) : Byte := 255 - BitVec.ofNat 8 (o * 3)

/-- The hue wheel (R105). -/
def wheel (h : Byte) : Pixel :=
  let n := h.toNat
  if n < 85 then { r := rampUp n, g := rampDown n, b := 0 }
  else if n < 170 then { r := rampDown (n - 85), g := 0, b := rampUp (n - 85) }
  else { r := 0, g := rampUp (n - 170), b := rampDown (n - 170) }

/-- `region = h / 43` (R107). -/
def hsvRegion (h : Byte) : Nat := h.toNat / 43

/-- `remainder = (h mod 43) * 6` (R107). -/
def hsvRemainder (h : Byte) : Nat := h.toNat % 43 * 6

/-- `p` of R108. -/
def hsvP (s v : Byte) : Byte := BitVec.ofNat 8 ((v.toNat * (255 - s.toNat)) >>> 8)

/-- `q` of R108. -/
def hsvQ (remainder : Nat) (s v : Byte) : Byte :=
  BitVec.ofNat 8 ((v.toNat * (255 - ((s.toNat * remainder) >>> 8))) >>> 8)

/-- `t` of R108. -/
def hsvT (remainder : Nat) (s v : Byte) : Byte :=
  BitVec.ofNat 8 ((v.toNat * (255 - ((s.toNat * (255 - remainder)) >>> 8))) >>> 8)

/-- The default HSV_FN: R108 dispatched by R109, region 5 and above the default row. -/
def hsvStandard (region remainder : Nat) (s v : Byte) : Pixel :=
  match region with
  | 0 => { r := v, g := hsvT remainder s v, b := hsvP s v }
  | 1 => { r := hsvQ remainder s v, g := v, b := hsvP s v }
  | 2 => { r := hsvP s v, g := v, b := hsvT remainder s v }
  | 3 => { r := hsvP s v, g := hsvQ remainder s v, b := v }
  | 4 => { r := hsvT remainder s v, g := hsvP s v, b := v }
  | _ => { r := v, g := hsvP s v, b := hsvQ remainder s v }

/-- The block's HSV_FN (R7, decision D14). -/
def hsvFn (p : Params) (region remainder : Nat) (s v : Byte) : Pixel :=
  match p.hsvFn with
  | .standard => hsvStandard region remainder s v
  | .platform => Config.hsvFn region remainder s v

/-- The pixel of a hue, saturation and value (R110): grey at `s = 0`, otherwise HSV_FN of region and remainder. -/
def hsvPixel (p : Params) (h s v : Byte) : Pixel :=
  if s = 0 then ⟨v, v, v⟩ else hsvFn p (hsvRegion h) (hsvRemainder h) s v

/-- The largest channel (R111). -/
def maxChannel (a : Pixel) : Nat := max a.r.toNat (max a.g.toNat a.b.toNat)

/-- The smallest channel (R111). -/
def minChannel (a : Pixel) : Nat := min a.r.toNat (min a.g.toNat a.b.toNat)

/-- The reference HUE_FN of decision D15, with division truncated toward zero (R10). -/
def hueReference (a : Pixel) : Byte :=
  let r : Int := a.r.toNat
  let g : Int := a.g.toNat
  let b : Int := a.b.toNat
  let mx : Int := maxChannel a
  let d : Int := mx - minChannel a
  let h : Int :=
    if mx = r then (43 * (g - b)).tdiv d
    else if mx = g then 85 + (43 * (b - r)).tdiv d
    else 171 + (43 * (r - g)).tdiv d
  BitVec.ofInt 8 h

/-- The block's HUE_FN on a chromatic pixel (R7, R111). -/
def hueFn (p : Params) (a : Pixel) : Byte :=
  match p.hueFn with
  | .reference => hueReference a
  | .platform => Config.hueFn a

/-- The hue of a pixel (R111): 0 when it is achromatic, otherwise HUE_FN. -/
def hueOf (p : Params) (a : Pixel) : Byte := if maxChannel a = minChannel a then 0 else hueFn p a

/-- `mix(x, y, m) = (x*(255 - m) + y*m) / 255`, truncating (R116). -/
def mix (x y m : Byte) : Byte := BitVec.ofNat 8 ((x.toNat * (255 - m.toNat) + y.toNat * m.toNat) / 255)

/-- Two pixels blended channel by channel (R116). -/
def blendPixel (a b : Pixel) (m : Byte) : Pixel := ⟨mix a.g b.g m, mix a.r b.r m, mix a.b b.b m⟩

end Sys2Proof.Machine
end

