-- ==== Sys2Proof/Machine/GammaPow.lean ====
section
/-! DEFINITION. Gamma correction (spec/40_color_model.md R118 to R122).  A finite positive binary64 is a fraction p/q, so whether
`a/b <= 255 * pow(c/255, p/q)` is a comparison of integers, `a^q * 255^p <= (255*b)^q * c^p`.  Where p and q are small it
is made as it stands; where they are not, both sides are first enclosed between powers of two by fixed-point binary
logarithms, and the comparison as it stands is the fallback when the enclosures overlap.  `Sys2Proof.Laws.GammaPow`
shows that the enclosures never change the answer. -/

namespace Sys2Proof.Machine

/-! ## The gamma operand -/

/-- The pattern nearest to 2.2, which selects the lookup path (R77, R118). -/
def gamma22 : Word64 := 0x400199999999999A

/-- The exponent field of a binary64 pattern. -/
def binaryExponent (pattern : Word64) : Nat := (pattern.extractLsb' 52 11).toNat

/-- The fraction field of a binary64 pattern. -/
def binaryFraction (pattern : Word64) : Nat := (pattern.extractLsb' 0 52).toNat

/-- R119: `b64(pattern)` is finite and greater than 0: not negative, not an infinity or a NaN, not a zero. -/
def gammaInDomain (pattern : Word64) : Bool :=
  !pattern.msb && decide (binaryExponent pattern ≠ 2047) &&
    !(decide (binaryExponent pattern = 0) && decide (binaryFraction pattern = 0))

/-- The numerator of a finite positive `b64(pattern)` (R11; PRESUMED, log entry 10: the binary64 format). -/
def gammaNum (pattern : Word64) : Nat :=
  if binaryExponent pattern = 0 then binaryFraction pattern
  else (2 ^ 52 + binaryFraction pattern) * 2 ^ (binaryExponent pattern - 1075)

/-- The denominator of a finite positive `b64(pattern)`. -/
def gammaDen (pattern : Word64) : Nat :=
  if binaryExponent pattern = 0 then 2 ^ 1074 else 2 ^ (1075 - binaryExponent pattern)

/-! ## Comparing a fraction with the corrected channel -/

/-- `a/b <= 255 * pow(c/255, p/q)` as a comparison of integers. -/
def powAtLeastExact (p q c a b : Nat) : Bool := decide (a ^ q * 255 ^ p ≤ (255 * b) ^ q * c ^ p)

/-- `255 * pow(c/255, p/q) <= a/b` as a comparison of integers. -/
def powAtMostExact (p q c a b : Nat) : Bool := decide ((255 * b) ^ q * c ^ p ≤ a ^ q * 255 ^ p)

/-- The fixed-point position of the logarithms' mantissa. -/
def logScale : Nat := 2 ^ 128

/-- The number of binary digits of a logarithm after the point. -/
def logDigits : Nat := 96

/-- `n` digits of a logarithm from below, from a mantissa in [1, 2) and the digits so far. -/
def logBelow : Nat → Nat → Nat → Nat
  | 0, _, d => d
  | n + 1, l, d =>
    let s := l * l / logScale
    if s < 2 * logScale then logBelow n s (2 * d) else logBelow n (s / 2) (2 * d + 1)

/-- `n` digits of a logarithm from above, from a mantissa in [1, 2] and the digits so far. -/
def logAbove : Nat → Nat → Nat → Nat
  | 0, u, d => if u ≤ logScale then d else d + 1
  | n + 1, u, d =>
    let s := (u * u + (logScale - 1)) / logScale
    if s ≤ 2 * logScale then logAbove n s (2 * d) else logAbove n ((s + 1) / 2) (2 * d + 1)

/-- `2^96 * log2(x/y)` from below, for `0 < y <= x`. -/
def logRatioBelow (x y : Nat) : Nat :=
  let e := Nat.log2 (x / y)
  logBelow logDigits (x * logScale / (y * 2 ^ e)) e

/-- `2^96 * log2(x/y)` from above, for `0 < y <= x`. -/
def logRatioAbove (x y : Nat) : Nat :=
  let e := Nat.log2 (x / y)
  logAbove logDigits ((x * logScale + (y * 2 ^ e - 1)) / (y * 2 ^ e)) e

/-- `a/b <= 255 * pow(c/255, p/q)`, that is `(255/c)^p <= (255*b/a)^q`, from the enclosures of the two logarithms; none
where they overlap. -/
def powAtLeastByLogs (p q c a b : Nat) : Option Bool :=
  if p * logRatioAbove 255 c ≤ q * logRatioBelow (255 * b) a then some true
  else if q * logRatioAbove (255 * b) a < p * logRatioBelow 255 c then some false
  else none

/-- `a/b <= 255 * pow(c/255, p/q)`, for `0 < p`, `0 < q`, `0 < b`, `c <= 255`. -/
def powAtLeast (p q c a b : Nat) : Bool :=
  if a = 0 then true
  else if c = 0 then false
  else if 255 * b < a then false
  else if p ≤ 64 ∧ q ≤ 64 then powAtLeastExact p q c a b
  else
    match powAtLeastByLogs p q c a b with
    | some r => r
    | none => powAtLeastExact p q c a b

/-! ## GAMMA_POW -/

/-- The largest `k` below `r + 2^n` with `k - 1/2 <= 255 * pow(c/255, p/q)`, given that `r` is one such. -/
def roundSearch (p q c : Nat) : Nat → Nat → Nat
  | 0, r => r
  | n + 1, r => if powAtLeast p q c (2 * (r + 2 ^ n) - 1) 2 then roundSearch p q c n (r + 2 ^ n) else roundSearch p q c n r

/-- `rnd(255 * pow(c/255, p/q))` (R11, R121). -/
def roundedPow (p q c : Nat) : Nat := roundSearch p q c 8 0

/-- The default GAMMA_POW (R121): the exact value of the formula, rounded half up. -/
def gammaPowExact (pattern : Word64) (c : Byte) : Byte :=
  let g := Nat.gcd (gammaNum pattern) (gammaDen pattern)
  BitVec.ofNat 8 (roundedPow (gammaNum pattern / g) (gammaDen pattern / g) c.toNat)

/-- The values within 1 of the exact one, `|k - 255 * pow(c/255, gamma)| <= 1` (R121). -/
def gammaPowAdmissible (pattern : Word64) (c : Byte) : List Nat :=
  (List.range 256).filter fun k =>
    powAtLeastExact (gammaNum pattern) (gammaDen pattern) c.toNat (k - 1) 1 &&
      powAtMostExact (gammaNum pattern) (gammaDen pattern) c.toNat (k + 1) 1

/-- A platform's GAMMA_POW: one of the admissible values, and no more is known of it (R121, decision D13). -/
def gammaPowPlatform (pattern : Word64) (c : Byte) : Byte :=
  let ks := gammaPowAdmissible pattern c
  BitVec.ofNat 8 (ks.getD (Config.gammaPick pattern c % ks.length) 0)

/-- The block's GAMMA_POW (R7, R121). -/
def gammaPow (p : Params) (pattern : Word64) (c : Byte) : Byte :=
  match p.gammaPow with
  | .exact => gammaPowExact pattern c
  | .platform => gammaPowPlatform pattern c

/-- One channel corrected: by the table when the pattern is that of 2.2, otherwise by GAMMA_POW (R118, R120, R121). -/
def gammaChannel (p : Params) (pattern : Word64) (c : Byte) : Byte :=
  if pattern = gamma22 then p.gammaLut[c.toNat]'c.isLt else gammaPow p pattern c

end Sys2Proof.Machine
end

