-- ==== Sys2Proof/Machine/State.lean ====
section
/-! DEFINITION. The state of the machine (spec/10_state.md, spec/70_reset_and_hazards.md R250): the block's registers and
buffers, the command port, the host frame memory, the adapter trace, and, as plain data, what the host and the platform
still have to say (commands presented, adapter answers). -/

namespace Sys2Proof.Machine

/-- `PHASE`, the serializer's phase (R31, R171). -/
inductive Phase where
  | idle
  | acquire
  | encode
  | data
  | gap
  | settle
  | release
  deriving DecidableEq, Repr

/-- An adapter handle.  The spec calls it opaque (R28): the block keeps it and hands it back, and computes nothing from
it (DESIGN CHOICE, log entry 8: a number). -/
abbrev Handle := Nat

/-- The answer to `Acq` (R170, R172). -/
inductive AcqAnswer where
  | ok (h : Handle)
  | err
  deriving DecidableEq, Repr

/-- The answer to `Wr`: the number of bytes taken, or an error (R170, R173). -/
inductive WrAnswer where
  | ok (n : Nat)
  | err
  deriving DecidableEq, Repr

/-- One event of the adapter trace, with its answer (R170). -/
inductive Event where
  /-- `Acq(pin, rate, len)`. -/
  | acq (pin : Byte) (rate len : Nat) (answer : AcqAnswer)
  /-- `Wr(bytes)`. -/
  | wr (bytes : List Byte) (answer : WrAnswer)
  /-- `Rel(h)`, which has no answer. -/
  | rel (h : Handle)
  /-- `Dly(ms)`, which has no answer and lasts `lasted` milliseconds, at least `ms` (R178, I16; DESIGN CHOICE, log
  entry 12: a whole number of them). -/
  | dly (ms lasted : Nat)
  deriving DecidableEq, Repr

/-- What the platform will answer, in order (R170: "the model takes each answer as a free draw").  A list that has run
out is an adapter that has not answered: the block waits (R236). -/
structure Answers where
  acq : List AcqAnswer
  wr : List WrAnswer
  /-- For each settle delay that will end, by how many whole milliseconds it exceeds its lower bound (I16; DESIGN CHOICE,
  log entry 12: whole milliseconds). -/
  dly : List Nat
  /-- Whether each buffer allocation fails, drawn only under `NOMEM_POSSIBLE` (R226, I12). -/
  nomem : List Bool
  deriving DecidableEq, Repr

/-- Host writes to one byte of memory between presenting a command and its response (R64, R255, I2): the values written,
in order, and which of the values the byte held the block's read of it returns: 0 is the value at presentation, k the
k-th one written, counted round. -/
structure RacingByte where
  addr : Nat
  writes : List Byte
  pick : Nat
  deriving DecidableEq, Repr

/-- A command word on the port, with the host's writes to memory in its window (R64). -/
structure Presented where
  word : CommandWord
  racing : List RacingByte
  deriving DecidableEq, Repr

/-- What the port returns when a command ends (R72). -/
structure Response where
  status : BitVec 8
  result : Word32
  deriving DecidableEq, Repr

/-- Host frame memory (R50): the admitted addresses with the bytes they hold, addresses rising.  An unlisted address is
one the platform does not admit, `MEM_ADMIT(addr) = false` (R54), so it has no value. -/
abbrev Memory := List Host.Cell

/-- The state of the block and of what surrounds it. -/
structure State where
  /-- The parameters of this block (R7), which no step writes (R8). -/
  params : Params
  /-- `INIT` (R24). -/
  init : Bool
  /-- `BUSY` (R25). -/
  busy : Bool
  /-- `BRIGHT` (R26). -/
  bright : Byte
  /-- `PIN` (R27). -/
  pin : Byte
  /-- `HVALID` and `HANDLE` (R28): `none` is `HVALID = 0`, in which `HANDLE` holds no value. -/
  handle : Option Handle
  /-- `RESULT` (R29). -/
  result : Word32
  /-- `STATUS` (R30). -/
  status : BitVec 8
  /-- `PHASE` (R31). -/
  phase : Phase
  /-- `SYMBUF` (R34): `none` is an unwritten byte. -/
  symbuf : List (Option Byte)
  /-- Host frame memory (R50 to R54). -/
  mem : Memory
  /-- The command in progress, its word captured whole at acceptance (R68). -/
  current : Option Presented
  /-- The command port: commands presented and not yet accepted, oldest first (R73). -/
  port : List Presented
  /-- The responses returned so far, oldest first (R72, R238). -/
  responses : List Response
  /-- The adapter trace, oldest event first (R170). -/
  trace : List Event
  /-- The platform's answers still to come (R170). -/
  answers : Answers
  deriving DecidableEq, Repr

/-- What stops the machine.  The block has no traps (R228); these are the two model faults of R229, which no run from
reset reaches. -/
inductive Fault where
  /-- Raised by the DATA phase on a read of an unwritten `SYMBUF` byte (R34, R229, I21).  Safe: the spec says the run is
  faulted and never final. -/
  | unwrittenSymbol
  /-- Raised by a `Wr` or `Rel` while `HVALID = 0` (R28, R229, I22).  Safe, as the other. -/
  | noHandle
  deriving DecidableEq, Repr

/-- Why the model gives no meaning. -/
inductive Refusal where
  /-- Raised by an arm of `exec` for a command not modelled; no arm is left that raises it.  Safe. -/
  | notModelled (mnemonic : String)
  deriving DecidableEq, Repr

/-- The outcome of a command or a step. -/
abbrev Result := Host.Outcome State Fault Refusal

/-- `HVALID` (R28). -/
def State.hvalid (s : State) : Bool := s.handle.isSome

/-- A block with parameters `p` after reset, as R250 lists it; memory lists nothing, nothing is on the port, and the
platform has given no answer yet (log entry 3). -/
def State.resetWith (p : Params) : State where
  params := p
  init := false
  busy := false
  bright := 255
  pin := p.defaultPin
  handle := none
  result := 0
  status := 0
  phase := .idle
  symbuf := List.replicate p.symbufLen none
  mem := []
  current := none
  port := []
  responses := []
  trace := []
  answers := ⟨[], [], [], []⟩

/-- The machine right after reset (R250), for the default parameters. -/
def State.reset : State := State.resetWith Config.default

end Sys2Proof.Machine
end

