-- ==== Sys2Proof/Machine/Ops.lean ====
section
/-! DEFINITION. The named operations every command is built from: reading host memory (spec/20_memory.md), ending a command and
raising an error (spec/00_scope.md R15), recording an adapter event (spec/42_serializer_driver.md R170), and what the
host and the platform do to the machine between commands. -/

namespace Sys2Proof.Machine

/-! ## Host frame memory -/

/-- The byte at an address; none where the platform does not admit the address (R54). -/
def Memory.read : Memory → Nat → Option Byte
  | [], _ => none
  | (k, b) :: m, a => if a = k then some b else Memory.read m a

/-- The memory with the byte at an address set, addresses still rising. -/
def Memory.store : Memory → Nat → Byte → Memory
  | [], a, v => [(a, v)]
  | (k, b) :: m, a, v =>
    if a < k then (a, v) :: (k, b) :: m
    else if a = k then (a, v) :: m
    else (k, b) :: Memory.store m a v

/-- The canonical form: addresses strictly rising and below the top of the 32-bit space (R50, R53). -/
def Memory.wf : Memory → Bool
  | [] => true
  | [(k, _)] => decide (k < 2 ^ 32)
  | (k, _) :: (k', b') :: m => decide (k < k') && Memory.wf ((k', b') :: m)

/-- `MEM_ADMIT(addr)` (R54): the listed addresses (DEDUCED, log entry 4). -/
def Memory.admits (m : Memory) (a : Nat) : Bool := (m.read a).isSome

/-- The values a byte holds from presentation to response: the one in memory, then the ones the host writes (R64). -/
def heldValues (racing : List RacingByte) (a : Nat) (b : Byte) : List Byte :=
  match racing.find? (fun r => r.addr == a) with
  | none => [b]
  | some r => b :: r.writes

/-- Which of the held values a read returns (R64, I2: any of them). -/
def pickOf (racing : List RacingByte) (a : Nat) : Nat :=
  match racing.find? (fun r => r.addr == a) with
  | none => 0
  | some r => r.pick % (r.writes.length + 1)

/-- The host's racing writes in the window of the command in progress. -/
def State.racing (s : State) : List RacingByte :=
  match s.current with
  | none => []
  | some p => p.racing

/-- One one-byte frame read (R58): the byte in memory, or, where the host races the read, one of the values the byte held
in the window (R64); none where the platform does not admit the address (R54). -/
def frameByte (s : State) (a : Nat) : Option Byte :=
  (s.mem.read a).map fun b => (heldValues s.racing a b).getD (pickOf s.racing a) b

/-- `MemRead(addr, n)`, lowest address first (R13); none where a byte is not admitted. -/
def memRead (s : State) : Nat → Nat → Option (List Byte)
  | _, 0 => some []
  | a, n + 1 =>
    match frameByte s a with
    | none => none
    | some b => (memRead s (a + 1) n).map fun bs => b :: bs

/-! ## Ending a command -/

/-- The status codes of R220. -/
inductive Status where
  | ok
  | initError
  | invalidParameter
  | notInitialized
  | peripheralError
  | noMemory
  | illegalCommand
  deriving DecidableEq, Repr

/-- The number of a status code (R220). -/
def Status.code : Status → BitVec 8
  | .ok => 0x00
  | .initError => 0x01
  | .invalidParameter => 0x02
  | .notInitialized => 0x03
  | .peripheralError => 0x04
  | .noMemory => 0x05
  | .illegalCommand => 0x06

/-- `finish(code, value)` (R15): writes `STATUS` and `RESULT`. -/
def finish (code : Status) (value : Word32) (s : State) : State := { s with status := code.code, result := value }

/-- `raise E` (R15): the block's only exception entry.  It saves nothing, changes no mode and transfers control nowhere
(R228); every error comes with `RESULT = 0` (R220). -/
def raise (e : Status) (s : State) : State := finish e 0 s

/-- The end of a command that used the adapter: `BUSY <- 0; PHASE <- IDLE`, then `finish(code, 0)` (R175, R184 to R190).
The return from an error is the same: the next command is accepted (R230). -/
def endCommand (code : Status) (s : State) : State := finish code 0 { s with busy := false, phase := .idle }

/-! ## The adapter -/

/-- An event at the end of the adapter trace (R170). -/
def record (e : Event) (s : State) : State := { s with trace := s.trace ++ [e] }

/-- One draw of an allocation's outcome (R226, I12); true is a failure.  Without `NOMEM_POSSIBLE` nothing is drawn. -/
def drawNoMemory (s : State) : Bool × State :=
  if s.params.nomemPossible then
    match s.answers.nomem with
    | [] => (false, s)
    | b :: rest => (b, { s with answers := { s.answers with nomem := rest } })
  else (false, s)

/-- `Wr` succeeds when it is answered with the number of bytes handed over (R173). -/
def writeSucceeds (a : WrAnswer) (len : Nat) : Bool :=
  match a with
  | .ok n => n == len
  | .err => false

/-! ## The host and the platform, between commands -/

/-- The platform admits an address, which then holds `b` (R54). -/
def State.admitByte (a : Nat) (b : Byte) (s : State) : State := { s with mem := s.mem.store a b }

/-- A memory after one host write: it reaches only admitted memory (R54, R64). -/
def Memory.hostWrite (m : Memory) (a : Nat) (b : Byte) : Memory := if m.admits a then m.store a b else m

/-- The host writes one byte of frame memory (R64). -/
def State.hostWrite (a : Nat) (b : Byte) (s : State) : State := { s with mem := s.mem.hostWrite a b }

/-- The memory at the end of a window: the last of the host's writes to each byte has landed (R64). -/
def applyRacing (m : Memory) (racing : List RacingByte) : Memory :=
  racing.foldl (fun m r => match r.writes.getLast? with | none => m | some b => m.hostWrite r.addr b) m

/-- The host presents a command word; it waits on the port behind those already there (R73). -/
def State.present (cw : CommandWord) (s : State) : State := { s with port := s.port ++ [⟨cw, []⟩] }

/-- Reset (R250, R251): only while no command is in progress; everything of the block goes to its reset value, the port
and the trace are emptied, and nothing outside the block (memory, the adapter's answers to come) is touched. -/
def hardReset (s : State) : Option State :=
  if s.busy = false ∧ s.phase = .idle then some { State.resetWith s.params with mem := s.mem, answers := s.answers }
  else none

end Sys2Proof.Machine
end

