-- ==== Sys2Proof/Machine/Operands.lean ====
section
/-! DEFINITION. Operands and results of commands: the packing of a pixel result (spec/40_color_model.md R101), the frame operand
and its checks (spec/42_serializer_driver.md R186), and the source of a frame's pixels (spec/41_frame_encoder.md R150). -/

namespace Sys2Proof.Machine

/-- `pixres(p) = {0x00, g, r, b}` (R101). -/
def pixres (p : Pixel) : Word32 := (0 : BitVec 8) ++ p.g ++ p.r ++ p.b

/-- The pixel of a word in storage order, bits [31:24] not read: how a pixel result passes to a later command's pixel
field (R76, R101). -/
def pixelOfResult (w : Word32) : Pixel := ⟨w.extractLsb' 16 8, w.extractLsb' 8 8, w.extractLsb' 0 8⟩

/-- The hexadecimal word of a pixel, red-green-blue (R112, R113). -/
def hexWord (p : Pixel) : Word32 := (p.r.zeroExtend 32 <<< 16) ||| (p.g.zeroExtend 32 <<< 8) ||| p.b.zeroExtend 32

/-- The pixel of a hexadecimal word; bits [31:24] are ignored (R114, decision D16). -/
def pixelOfHex (w : Word32) : Pixel := ⟨w.extractLsb' 8 8, w.extractLsb' 16 8, w.extractLsb' 0 8⟩

/-- A flag or a byte as a 32-bit result (`zext_32`, R191, R193). -/
def zext32 (b : Byte) : Word32 := b.zeroExtend 32

/-- A one-bit register as a 32-bit result (R191). -/
def flagWord (b : Bool) : Word32 := if b then 1 else 0

/-- `check_frame` (R186): the address is not 0, the length is `N`, and the frame ends at or below 2^32 (R53).  The three
failures raise the same code, so only their disjunction can be seen. -/
def frameAccepted (p : Params) (fptr flen : Word32) : Bool :=
  if fptr.toNat = 0 then false
  else if flen.toNat ≠ p.ledCount then false
  else decide (fptr.toNat + 3 * p.ledCount ≤ 2 ^ 32)

/-- Where the encoder takes its pixels from (R150): a frame in host memory, or the internal all-off frame. -/
inductive FrameSource where
  | mem (fptr : Word32)
  | zeros
  deriving DecidableEq, Repr

/-- `frame_pixel(FPTR, i)` (R51, R52): three byte reads, green at the lowest address, a stride of three bytes. -/
def framePixel (s : State) (fptr : Word32) (i : Nat) : Option Pixel :=
  match memRead s (fptr.toNat + 3 * i) 3 with
  | some [b0, b1, b2] => some ⟨b0, b1, b2⟩
  | _ => none

/-- Pixel `i` of a frame source (R150); none where a byte of it is not admitted (R54). -/
def sourcePixel (s : State) (source : FrameSource) (i : Nat) : Option Pixel :=
  match source with
  | .mem fptr => framePixel s fptr i
  | .zeros => some Pixel.black

end Sys2Proof.Machine
end

