-- ==== Sys2Proof/Machine/ColorModel.lean ====
section
/-! DEFINITION. The Color Model commands (spec/40_color_model.md R100 to R123).  Each is a pure function of its operands and the
parameters, writes only `RESULT` and `STATUS`, and works in every driver state (R100). -/

namespace Sys2Proof.Machine

/-- The end of a command whose result is a pixel (R100, R101). -/
def finishPixel (p : Pixel) (s : State) : Result := .next (finish .ok (pixres p) s)

/-- `MKPIX r, g, b` (R103). -/
def execMkpix (r g b : Byte) (s : State) : Result := finishPixel ⟨g, r, b⟩ s

/-- `MKPIXB r, g, b, br` (R104). -/
def execMkpixb (r g b br : Byte) (s : State) : Result := finishPixel (scalePixel ⟨g, r, b⟩ br) s

/-- `WHEEL h` (R106). -/
def execWheel (h : Byte) (s : State) : Result := finishPixel (wheel h) s

/-- `HSV h, s, v` (R110). -/
def execHsv (h sat v : Byte) (s : State) : Result := finishPixel (hsvPixel s.params h sat v) s

/-- `HUE px(g, r, b)` (R111). -/
def execHue (a : Pixel) (s : State) : Result := .next (finish .ok (zext32 (hueOf s.params a)) s)

/-- `HEXV px(g, r, b)` (R113). -/
def execHexv (a : Pixel) (s : State) : Result := .next (finish .ok (hexWord a) s)

/-- `FROMHEX w` (R114). -/
def execFromhex (w : Word32) (s : State) : Result := finishPixel (pixelOfHex w) s

/-- `BLEND px(a), px(b), amount` (R116). -/
def execBlend (a b : Pixel) (amount : Byte) (s : State) : Result := finishPixel (blendPixel a b amount) s

/-- `GAMMA px(g, r, b), G` (R122): a pattern that is not that of 2.2 and lies outside the domain raises
`INVALID_PARAMETER`, and no channel is computed (R119). -/
def execGamma (a : Pixel) (pattern : Word64) (s : State) : Result :=
  if pattern ≠ gamma22 ∧ gammaInDomain pattern = false then .next (raise .invalidParameter s)
  else finishPixel (a.map (gammaChannel s.params pattern)) s

end Sys2Proof.Machine
end

