-- ==== Sys2Proof/Machine/Encoder.lean ====
section
/-! DEFINITION. The Frame Encoder (spec/41_frame_encoder.md R150 to R157): N pixels and a brightness to 12*N symbol bytes. -/

namespace Sys2Proof.Machine

/-- The 2-bit group of symbol `k` of a channel value, most significant first: bits [7-2k : 6-2k] (R152). -/
def symbolGroup (c : Byte) (k : Nat) : Fin 4 := ⟨(c.toNat >>> (6 - 2 * k)) % 4, Nat.mod_lt _ (by decide)⟩

/-- The symbol byte of a 2-bit group (R32). -/
def symbolByte (p : Params) (group : Fin 4) : Byte := p.symtab.get group

/-- The four symbol bytes of a scaled channel (R152). -/
def channelSymbols (p : Params) (c : Byte) : List Byte := [0, 1, 2, 3].map fun k => symbolByte p (symbolGroup c k)

/-- The twelve symbol bytes of a pixel: each channel scaled, green first, then red, then blue (R151, R152). -/
def pixelSymbols (p : Params) (br : Byte) (px : Pixel) : List Byte :=
  (scalePixel px br).channels.flatMap (channelSymbols p)

/-- The symbol bytes of a list of pixels, pixel 0 first (R55, R153). -/
def frameSymbols (p : Params) (br : Byte) (pixels : List Pixel) : List Byte := pixels.flatMap (pixelSymbols p br)

/-- The first `n` pixels of a source from pixel `i` on, up to the first one with a byte that is not admitted (R54). -/
def readPixels (s : State) (source : FrameSource) : Nat → Nat → List Pixel
  | 0, _ => []
  | n + 1, i =>
    match sourcePixel s source i with
    | none => []
    | some px => px :: readPixels s source n (i + 1)

/-- The pixels of a frame that the encoder reads (R153). -/
def readFrame (s : State) (source : FrameSource) : List Pixel := readPixels s source s.params.ledCount 0

/-- `SYMBUF` with every byte unwritten (R34, R153). -/
def unwrittenBuffer (p : Params) : List (Option Byte) := List.replicate p.symbufLen none

/-- `SYMBUF` after the symbols of the pixels read so far have been written into an unwritten buffer (R153). -/
def encodedBuffer (p : Params) (br : Byte) (pixels : List Pixel) : List (Option Byte) :=
  (frameSymbols p br pixels).map some ++ List.replicate (p.symbufLen - Config.bytesPerPixel * pixels.length) none

/-- `encode(source, br)` (R153): `SYMBUF` rewritten, and whether every pixel was read.  Where a byte is not admitted the
encoder is stuck there, with the pixels before it written (R54). -/
def encodeFrame (s : State) (source : FrameSource) (br : Byte) : State × Bool :=
  let pixels := readFrame s source
  ({ s with symbuf := encodedBuffer s.params br pixels }, decide (pixels.length = s.params.ledCount))

end Sys2Proof.Machine
end

