-- ==== Sys2Proof/Machine/Serializer.lean ====
section
/-! DEFINITION. The serializer (spec/42_serializer_driver.md R170 to R181).  One move of it is one row of the phase table of R171;
a command that uses the adapter is a run of moves, from the phase it starts in until the block is IDLE or waits: for an
answer of the adapter (R236), for the end of the delay, or for a byte the platform does not admit (R54). -/

namespace Sys2Proof.Machine

/-- What the command in progress asks of the serializer. -/
inductive Job where
  /-- `INIT` and `INITPIN`: acquire the adapter on a pin, then send a clearing frame (R184). -/
  | start (pin : Byte)
  /-- `UPDATE`, `UPDATEB` and `CLEAR`: send one frame (R187 to R189). -/
  | send (source : FrameSource) (br : Byte)
  /-- `DESTROY`: send a clearing frame, then release the adapter (R190). -/
  | teardown
  deriving DecidableEq, Repr

/-- The frame a job sends; a clearing frame is all zeros (R150, R184, R190). -/
def Job.source : Job → FrameSource
  | .start _ => .zeros
  | .send source _ => source
  | .teardown => .zeros

/-- The brightness a job encodes with; a clearing frame uses 0 (R184, R190). -/
def Job.brightness : Job → Byte
  | .start _ => 0
  | .send _ br => br
  | .teardown => 0

/-- One move of the serializer: to a state, no move (with the state in which the block waits), or a model fault. -/
inductive Move where
  | to (s : State)
  | waits (s : State)
  | faults (r : Fault)
  deriving DecidableEq, Repr

/-- Into the `ENCODE` phase: every `SYMBUF` byte becomes unwritten (R34, R153, R175). -/
def enterEncode (s : State) : State := { s with phase := .encode, symbuf := unwrittenBuffer s.params }

/-- The start of `transmit` on a READY block: `BUSY <- 1; PHASE <- ENCODE` (R175). -/
def startTransmit (s : State) : State := enterEncode { s with busy := true }

/-- The start of `INIT` or `INITPIN`: `BUSY <- 1; PHASE <- ACQUIRE` (R184). -/
def startAcquire (s : State) : State := { s with busy := true, phase := .acquire }

/-- The end of `transmit` with a result (R171, R175): in `DESTROY` the result is dropped and the adapter released next;
in every other command the command ends. -/
def endTransmit (job : Job) (r : Status) (s : State) : State :=
  match job with
  | .start _ => endCommand r s
  | .send _ _ => endCommand r s
  | .teardown => { s with phase := .release }

/-- `ACQUIRE` (R172, R184): `Acq(pin, SAMPLE_RATE_HZ, 12*N)`.  On `ok(h)` the block owns the adapter and is READY; on
`err` the command ends with `INIT_ERROR` and the block stays UNINITIALIZED (R221). -/
def acquireMove (pin : Byte) (s : State) : Move :=
  match s.answers.acq with
  | [] => .waits s
  | a :: rest =>
    let s1 := record (.acq pin s.params.sampleRateHz s.params.symbufLen a) { s with answers := { s.answers with acq := rest } }
    match a with
    | .err => .to (endCommand .initError s1)
    | .ok h => .to (enterEncode { s1 with handle := some h, pin := pin, init := true })

/-- `ENCODE` (R153, R175). -/
def encodeMove (job : Job) (s : State) : Move :=
  match encodeFrame s job.source job.brightness with
  | (s1, true) => .to { s1 with phase := .data }
  | (s1, false) => .waits s1

/-- One `Wr` of a phase (R173, R175): on success the next phase, on a failure the end of `transmit` with
`PERIPHERAL_ERROR` (R225); with no handle a model fault (R229). -/
def writeMove (job : Job) (bytes : List Byte) (after : Phase) (s : State) : Move :=
  match s.handle with
  | none => .faults .noHandle
  | some _ =>
    match s.answers.wr with
    | [] => .waits s
    | a :: rest =>
      let s1 := record (.wr bytes a) { s with answers := { s.answers with wr := rest } }
      if writeSucceeds a bytes.length then .to { s1 with phase := after }
      else .to (endTransmit job .peripheralError s1)

/-- The bytes of `SYMBUF` in index order; none where one is unwritten (R55, R176). -/
def writtenBytes : List (Option Byte) → Option (List Byte)
  | [] => some []
  | none :: _ => none
  | some b :: rest => (writtenBytes rest).map fun bs => b :: bs

/-- `DATA` (R176): one `Wr` of all of `SYMBUF`; a read of an unwritten byte is a model fault (R34, R229). -/
def dataMove (job : Job) (s : State) : Move :=
  match writtenBytes s.symbuf with
  | none => .faults .unwrittenSymbol
  | some bytes => writeMove job bytes .gap s

/-- `GAP` (R177): one `Wr` of the trailer. -/
def gapMove (job : Job) (s : State) : Move := writeMove job s.params.trailer .settle s

/-- `SETTLE` (R178): one `Dly(SETTLE_DELAY_MS)`, which lasts that long or longer.  By how much is a free draw (I16), and a whole
number of milliseconds (DESIGN CHOICE, log entry 12: I16 admits fractions). -/
def settleMove (job : Job) (s : State) : Move :=
  match s.answers.dly with
  | [] => .waits s
  | excess :: rest =>
    let s1 := record (.dly s.params.settleDelayMs (s.params.settleDelayMs + excess)) { s with answers := { s.answers with dly := rest } }
    .to (endTransmit job .ok s1)

/-- `RELEASE` (R174, R190): `Rel(HANDLE)`, then the block is UNINITIALIZED, with `PIN` and `BRIGHT` at their defaults. -/
def releaseMove (s : State) : Move :=
  match s.handle with
  | none => .faults .noHandle
  | some h =>
    .to (endCommand .ok { record (.rel h) s with handle := none, init := false, pin := s.params.defaultPin, bright := 255 })

/-- One move of the serializer (R171).  `ACQUIRE` is a phase of `INIT` and `INITPIN` only. -/
def serializerMove (job : Job) (s : State) : Move :=
  match s.phase with
  | .idle => .waits s
  | .acquire =>
    match job with
    | .start pin => acquireMove pin s
    | .send _ _ => .waits s
    | .teardown => .waits s
  | .encode => encodeMove job s
  | .data => dataMove job s
  | .gap => gapMove job s
  | .settle => settleMove job s
  | .release => releaseMove s

/-- At most `n` moves, stopping where the block is IDLE or waits. -/
def runMoves : Nat → Job → State → Result
  | 0, _, s => .next s
  | n + 1, job, s =>
    match serializerMove job s with
    | .to s' => runMoves n job s'
    | .waits s' => .next s'
    | .faults r => .fault r

/-- The longest command is five moves (R171): `INIT` through ACQUIRE, ENCODE, DATA, GAP and SETTLE, `DESTROY` through
ENCODE, DATA, GAP, SETTLE and RELEASE. -/
def maxMoves : Nat := 5

/-- A command that uses the adapter, from the state it starts in to its end or to where it waits. -/
def runJob (job : Job) (s : State) : Result := runMoves maxMoves job s

end Sys2Proof.Machine
end

