-- ==== Sys2Proof/Machine/Driver.lean ====
section
/-! DEFINITION. The driver commands (spec/42_serializer_driver.md R182 to R193). -/

namespace Sys2Proof.Machine

/-- `init_common(pin)` (R184): a no-op on a READY block; otherwise the allocation is drawn under `NOMEM_POSSIBLE`
(R226), the adapter is acquired, and a clearing frame is sent. -/
def initCommon (pin : Byte) (s : State) : Result :=
  if s.init then .next (finish .ok 0 s)
  else
    match drawNoMemory s with
    | (true, s1) => .next (raise .noMemory s1)
    | (false, s1) => runJob (.start pin) (startAcquire s1)

/-- `INIT` (R184). -/
def execInit (s : State) : Result := initCommon s.params.defaultPin s

/-- `INITPIN pin` (R185). -/
def execInitpin (pin : Byte) (s : State) : Result := initCommon pin s

/-- A frame sent from host memory: the precondition (R182), then the frame checks (R186), then `transmit` (R175). -/
def sendFrame (fptr flen : Word32) (br : Byte) (s : State) : Result :=
  if s.init = false then .next (raise .notInitialized s)
  else if frameAccepted s.params fptr flen = false then .next (raise .invalidParameter s)
  else runJob (.send (.mem fptr) br) (startTransmit s)

/-- `UPDATE fptr, flen` (R187): the brightness is that of `BRIGHT`. -/
def execUpdate (fptr flen : Word32) (s : State) : Result := sendFrame fptr flen s.bright s

/-- `UPDATEB fptr, flen, br` (R188): the brightness is the operand; `BRIGHT` is not read or written. -/
def execUpdateb (fptr flen : Word32) (br : Byte) (s : State) : Result := sendFrame fptr flen br s

/-- `CLEAR` (R189). -/
def execClear (s : State) : Result :=
  if s.init = false then .next (raise .notInitialized s) else runJob (.send .zeros 0) (startTransmit s)

/-- `DESTROY` (R190): a no-op on an UNINITIALIZED block. -/
def execDestroy (s : State) : Result :=
  if s.init = false then .next (finish .ok 0 s) else runJob .teardown (startTransmit s)

/-- `ISINIT` (R191). -/
def execIsinit (s : State) : Result := .next (finish .ok (flagWord s.init) s)

/-- `SETBR b` (R192). -/
def execSetbr (b : Byte) (s : State) : Result := .next (finish .ok 0 { s with bright := b })

/-- `GETBR` (R193). -/
def execGetbr (s : State) : Result := .next (finish .ok (zext32 s.bright) s)

/-- What a command in progress asks of the serializer: the operands come from its captured word (R68), and `BRIGHT`
cannot change while the command is in progress (R187).  None for a command that never waits. -/
def jobOf (i : Instr) (s : State) : Option Job :=
  match i with
  | .mkpix _ _ _ => none
  | .mkpixb _ _ _ _ => none
  | .wheel _ => none
  | .hsv _ _ _ => none
  | .hue _ => none
  | .hexv _ => none
  | .fromhex _ => none
  | .blend _ _ _ => none
  | .gamma _ _ => none
  | .init => some (.start s.params.defaultPin)
  | .initpin pin => some (.start pin)
  | .update fptr _ => some (.send (.mem fptr) s.bright)
  | .updateb fptr _ br => some (.send (.mem fptr) br)
  | .clear => some (.send .zeros 0)
  | .destroy => some .teardown
  | .isinit => none
  | .setbr _ => none
  | .getbr => none

end Sys2Proof.Machine
end

