-- ==== Sys2Proof/Machine/Dispatch.lean ====
section
/-! DEFINITION. One arm per command, each one call of its meaning. -/

namespace Sys2Proof.Machine

def exec (i : Instr) (s : State) : Host.Outcome State Fault Refusal :=
  match i with
  -- Color Model (spec/40_color_model.md)
  | .mkpix r g b => Sys2Proof.Machine.execMkpix r g b s
  | .mkpixb r g b br => Sys2Proof.Machine.execMkpixb r g b br s
  | .wheel h => Sys2Proof.Machine.execWheel h s
  | .hsv h sat v => Sys2Proof.Machine.execHsv h sat v s
  | .hue a => Sys2Proof.Machine.execHue a s
  | .hexv a => Sys2Proof.Machine.execHexv a s
  | .fromhex w => Sys2Proof.Machine.execFromhex w s
  | .blend a b amount => Sys2Proof.Machine.execBlend a b amount s
  | .gamma a pattern => Sys2Proof.Machine.execGamma a pattern s
  -- Driver (spec/42_serializer_driver.md)
  | .init => Sys2Proof.Machine.execInit s
  | .initpin pin => Sys2Proof.Machine.execInitpin pin s
  | .update fptr flen => Sys2Proof.Machine.execUpdate fptr flen s
  | .updateb fptr flen br => Sys2Proof.Machine.execUpdateb fptr flen br s
  | .clear => Sys2Proof.Machine.execClear s
  | .destroy => Sys2Proof.Machine.execDestroy s
  | .isinit => Sys2Proof.Machine.execIsinit s
  | .setbr b => Sys2Proof.Machine.execSetbr b s
  | .getbr => Sys2Proof.Machine.execGetbr s

end Sys2Proof.Machine
end

