-- ==== Sys2Proof/Machine/Flags.lean ====
section
/-! DEFINITION. The block has no status flags or condition codes beyond `INIT`, `BUSY` and `STATUS` (spec/10_state.md R37), so no
flag is computed from a result.  What is a function of the flags is here: the driver state (R25) and whether the port
takes a command (spec/30_encoding.md R73). -/

namespace Sys2Proof.Machine

/-- The states of the source's state machine (R25, R183). -/
inductive DriverState where
  | uninitialized
  | ready
  | transmitting
  deriving DecidableEq, Repr

/-- `driver_state`, a function of `INIT` and `BUSY` (R25). -/
def State.driverState (s : State) : DriverState :=
  if s.init then (if s.busy then .transmitting else .ready) else .uninitialized

/-- The block takes a command only when none is in progress: `BUSY = 0` and `PHASE = IDLE` (R73). -/
def State.accepts (s : State) : Bool := !s.busy && decide (s.phase = .idle)

end Sys2Proof.Machine
end

