-- ==== Sys2Proof/Machine/Port.lean ====
section
/-! DEFINITION. The command port (spec/30_encoding.md R70 to R73, R81; spec/20_memory.md R64, R68): accepting a command, running its
word, going on with one that waits, and returning its response. -/

namespace Sys2Proof.Machine

/-- Acceptance: the command leaves the queue and is captured in full (R68, R73). -/
def accept (p : Presented) (rest : List Presented) (s : State) : State := { s with current := some p, port := rest }

/-- A word performed: an ILLEGAL one raises `ILLEGAL_COMMAND` and does nothing else (R81, R224). -/
def runWord (cw : CommandWord) (s : State) : Result :=
  match decode cw with
  | .legal i => exec i s
  | .illegal _ => .next (raise .illegalCommand s)

/-- What the command in progress asks of the serializer, read again from its captured word (R68). -/
def currentJob (s : State) : Option Job :=
  match s.current with
  | none => none
  | some p =>
    match decode p.word with
    | .illegal _ => none
    | .legal i => jobOf i s

/-- The command in progress goes on from the phase it waits in, if what it waits for has come (R66, R236); otherwise the
block makes no move. -/
def resume (s : State) : Result :=
  match currentJob s with
  | none => .next s
  | some job => runJob job s

/-- The end of a command at the port: the response is returned (R72), the window closes with the host's racing writes in
memory (R64), and no command is in progress. -/
def respond (s : State) : State :=
  { s with responses := s.responses ++ [⟨s.status, s.result⟩], mem := applyRacing s.mem s.racing, current := none }

/-- A command that has ended gets its response; one that waits stays in progress (R72, R73). -/
def settlePort (r : Result) : Result :=
  match r with
  | .next s => if s.accepts then .next (respond s) else .next s
  | .fault f => .fault f
  | .refused f => .refused f

/-- One step at the port (R73): with no command in progress the oldest one presented is accepted and performed, and with
none presented the block waits for one (R250); with a command in progress that command goes on, and the commands
presented are held. -/
def portStep (s : State) : Result :=
  if s.accepts then
    match s.port with
    | [] => .next s
    | p :: rest => settlePort (runWord p.word (accept p rest s))
  else settlePort (resume s)

/-- A word at the head of the port, so that the next step of a block with no command in progress performs it. -/
def presentFirst (cw : CommandWord) (s : State) : State := { s with port := ⟨cw, []⟩ :: s.port }

end Sys2Proof.Machine
end

