-- ==== Sys2Proof/Machine/Step.lean ====
section
/-! DEFINITION. One step: one command from acceptance to its response, or to where it waits (spec/00_scope.md R5). -/

namespace Sys2Proof.Machine

/-- One step of the machine.  The block fetches no instructions (R23): the next command is the one the port gives. -/
def step (s : State) : Host.Outcome State Fault Refusal := portStep s

/-- `s` with the word whose low `nbits` bits are those of `w` at the head of the command port, where `step` takes its
next command from. -/
def State.withFetchWord (s : State) (nbits w : Nat) : State := presentFirst (BitVec.ofNat 128 (w % 2 ^ nbits)) s

end Sys2Proof.Machine
end

