-- ==== Sys2Proof/Machine/Assembler.lean ====
section
/-! DEFINITION. The assembler of spec/30_encoding.md R84 and R86: which command a line stands for, with the check that every
operand fits its field, the `f64(decimal)` operand and the three pseudo-instructions. -/

namespace Sys2Proof

/-- A number that fits a field of `w` bits; one that does not is an assembly error (R84). -/
def fits (w n : Nat) : Option (BitVec w) := if n < 2 ^ w then some (BitVec.ofNat w n) else none

/-- A pixel operand whose three channels fit their bytes. -/
def fitsPixel (g r b : Nat) : Option Pixel := do return ⟨← fits 8 g, ← fits 8 r, ← fits 8 b⟩

/-- `n / d` rounded to the nearest integer, a half to the even one. -/
def roundHalfEven (n d : Nat) : Nat :=
  let k := n / d
  if 2 * (n % d) < d then k else if d < 2 * (n % d) then k + 1 else k + k % 2

/-- The exponent `e` with `2^e ≤ n/d < 2^(e+1)`, for positive `n` and `d`. -/
def floorLog2Ratio (n d : Nat) : Int :=
  let e : Int := (Nat.log2 n : Int) - Nat.log2 d
  if n * 2 ^ (-e).toNat < d * 2 ^ e.toNat then e - 1 else e

/-- The binary64 pattern nearest a decimal, half to even, with gradual underflow; none where it overflows
(R84 `f64(2.2)`, R77; PRESUMED, log entry 10: IEEE 754 rounding). -/
def nearestBinary64 (negative : Bool) (n d : Nat) : Option Word64 :=
  if d = 0 then none
  else
    let sign : Nat := if negative then 2 ^ 63 else 0
    if n = 0 then some (BitVec.ofNat 64 sign)
    else
      let e := floorLog2Ratio n d
      let bits :=
        if e < -1022 then roundHalfEven (n * 2 ^ 1074) d
        else (e + 1022).toNat * 2 ^ 52 + roundHalfEven (n * 2 ^ (52 - e).toNat) (d * 2 ^ (e - 52).toNat)
      if bits < 2047 * 2 ^ 52 then some (BitVec.ofNat 64 (sign + bits)) else none

/-- A gamma operand: a 64-bit pattern, or `f64` of a decimal (R84). -/
def fitsGamma : AsmOperand → Option Word64
  | .num n => fits 64 n
  | .f64 negative n d => nearestBinary64 negative n d
  | .px _ _ _ => none

/-- The command a line stands for on a block of `ledCount` LEDs; none where the line is ill formed (R84, R86). -/
def assemble (ledCount : Nat) (line : AsmLine) : Option Instr :=
  match line.mnemonic, line.operands with
  | .core .mkpix, [.num r, .num g, .num b] => do return .mkpix (← fits 8 r) (← fits 8 g) (← fits 8 b)
  | .core .mkpixb, [.num r, .num g, .num b, .num br] => do
    return .mkpixb (← fits 8 r) (← fits 8 g) (← fits 8 b) (← fits 8 br)
  | .core .wheel, [.num h] => do return .wheel (← fits 8 h)
  | .core .hsv, [.num h, .num s, .num v] => do return .hsv (← fits 8 h) (← fits 8 s) (← fits 8 v)
  | .core .hue, [.px g r b] => do return .hue (← fitsPixel g r b)
  | .core .hexv, [.px g r b] => do return .hexv (← fitsPixel g r b)
  | .core .fromhex, [.num w] => do return .fromhex (← fits 32 w)
  | .core .blend, [.px g r b, .px g' r' b', .num m] => do
    return .blend (← fitsPixel g r b) (← fitsPixel g' r' b') (← fits 8 m)
  | .core .gamma, [.px g r b, pattern] => do return .gamma (← fitsPixel g r b) (← fitsGamma pattern)
  | .core .init, [] => some .init
  | .core .initpin, [.num pin] => do return .initpin (← fits 8 pin)
  | .core .update, [.num fptr, .num flen] => do return .update (← fits 32 fptr) (← fits 32 flen)
  | .core .updateb, [.num fptr, .num flen, .num br] => do
    return .updateb (← fits 32 fptr) (← fits 32 flen) (← fits 8 br)
  | .core .clear, [] => some .clear
  | .core .destroy, [] => some .destroy
  | .core .isinit, [] => some .isinit
  | .core .setbr, [.num b] => do return .setbr (← fits 8 b)
  | .core .getbr, [] => some .getbr
  | .fromhexL, [.num w] => do return .fromhex (← fits 32 w)
  | .gamma22, [.px g r b] => do return .gamma (← fitsPixel g r b) 0x400199999999999A
  | .updatef, [.num fptr] => do return .update (← fits 32 fptr) (← fits 32 ledCount)
  | _, _ => none

/-- The command word of a line; none where the line is ill formed, "and no command word results" (R84). -/
def assembleWord (ledCount : Nat) (line : AsmLine) : Option CommandWord := (assemble ledCount line).map encode

end Sys2Proof
end

