-- ==== Sys2Proof/Safety.lean ====
section
/-! DEFINITION. What counts as a sound block and a sound state, in the terms the statements use: the constraints on the parameters
(spec/00_scope.md R7, spec/10_state.md R32, R33), the invariant of every state between steps (R39), and the observations
of an outcome. -/

namespace Sys2Proof.Machine

/-- The next state of an outcome, if it is one. -/
def nextOf (o : Result) : Option State :=
  match o with
  | .next s => some s
  | .fault _ => none
  | .refused _ => none

/-- `SYMTAB` entries are pairwise distinct (R32). -/
def symtabDistinct (p : Params) : Prop := ∀ g g' : Fin 4, symbolByte p g = symbolByte p g' → g = g'

/-- The constraints on `GAMMA_LUT` (R33); `roundedPow 11 5 c` is `rnd(255 * pow(c/255, 2.2))`. -/
def gammaLutValid (p : Params) : Prop :=
  p.gammaLut.get 0 = 0 ∧ p.gammaLut.get 255 = 255 ∧
    (∀ c c' : Fin 256, c ≤ c' → (p.gammaLut.get c).toNat ≤ (p.gammaLut.get c').toNat) ∧
    ∀ c : Fin 256, (p.gammaLut.get c).toNat ≤ roundedPow 11 5 c + 1 ∧ roundedPow 11 5 c ≤ (p.gammaLut.get c).toNat + 1

/-- The constraints R7 puts on the parameters (decisions D10, D11, D19, D39). -/
structure Params.Valid (p : Params) : Prop where
  ledCount_pos : 1 ≤ p.ledCount
  symbuf_fits : 12 * p.ledCount ≤ 2 ^ 32 - 1
  resetGap_pos : 1 ≤ p.resetGapLen
  symtab : symtabDistinct p
  gammaLut : gammaLutValid p

/-- `x` is the real number a finite positive binary64 pattern encodes (R11, R77): the fraction field over 2^1074 when the
exponent field is 0, otherwise the fraction field with its hidden bit, times 2 to the exponent field less 1075. -/
def isBinary64 (pattern : Word64) (x : ℝ) : Prop :=
  x = if binaryExponent pattern = 0 then (binaryFraction pattern : ℝ) * 2 ^ (-1074 : ℤ)
    else (2 ^ 52 + (binaryFraction pattern : ℝ)) * 2 ^ ((binaryExponent pattern : ℤ) - 1075)

/-- Every byte of `SYMBUF` is unwritten or an entry of `SYMTAB` (R39). -/
def symbolsOnly (p : Params) (buffer : List (Option Byte)) : Prop :=
  ∀ x ∈ buffer, x = none ∨ ∃ g : Fin 4, x = some (symbolByte p g)

/-- The job of a command that starts by acquiring the adapter. -/
def Job.isStart : Job → Bool
  | .start _ => true
  | .send _ _ => false
  | .teardown => false

/-- A command in the TRANSMITTING state owns the adapter and is one that uses it (R25, R28, R39). -/
def transmitting (s : State) : Prop := s.busy = true ∧ s.init = true ∧ s.hvalid = true ∧ (currentJob s).isSome = true

/-- How the registers fit the phase in which the block rests between steps.  IDLE is the case of R39.  In the other
phases the block waits for an answer, for the end of the delay, or at a byte not admitted; it never rests in RELEASE,
since `Rel` is not answered (R174). -/
def phaseFits (s : State) : Prop :=
  match s.phase with
  | .idle => s.busy = false ∧ s.hvalid = s.init ∧ s.current = none
  | .acquire => s.busy = true ∧ s.init = false ∧ s.hvalid = false ∧ (currentJob s).any Job.isStart = true
  | .encode => transmitting s
  | .data => transmitting s ∧ (writtenBytes s.symbuf).isSome = true
  | .gap => transmitting s
  | .settle => transmitting s
  | .release => False

/-- The invariant of every state between steps (R39, with R50, R53 for memory, R34 for the buffer, R220 for the last
response). -/
structure Inv (s : State) : Prop where
  memory : s.mem.wf = true
  symbufLength : s.symbuf.length = s.params.symbufLen
  symbols : symbolsOnly s.params s.symbuf
  statusLegal : s.status.toNat ≤ 6
  errorResult : s.status ≠ 0 → s.result = 0
  phase : phaseFits s

/-- The Color Model commands (R100). -/
def isColorModel : Instr → Bool
  | .mkpix _ _ _ => true
  | .mkpixb _ _ _ _ => true
  | .wheel _ => true
  | .hsv _ _ _ => true
  | .hue _ => true
  | .hexv _ => true
  | .fromhex _ => true
  | .blend _ _ _ => true
  | .gamma _ _ => true
  | .init => false
  | .initpin _ => false
  | .update _ _ => false
  | .updateb _ _ _ => false
  | .clear => false
  | .destroy => false
  | .isinit => false
  | .setbr _ => false
  | .getbr => false

/-- Every byte of the frame at `fptr` is at an address the platform admits (R54). -/
def frameAdmitted (s : State) (fptr : Word32) : Prop :=
  ∀ k < 3 * s.params.ledCount, s.mem.admits (fptr.toNat + k) = true

/-- The events of a frame that leaves the block whole: the data `Wr`, the trailer `Wr`, and the settle delay, which lasts
`excess` milliseconds more than its lower bound (R175 to R178). -/
def frameEvents (p : Params) (bytes : List Byte) (excess : Nat) : List Event :=
  [.wr bytes (.ok p.symbufLen), .wr p.trailer (.ok p.resetGapLen),
    .dly p.settleDelayMs (p.settleDelayMs + excess)]

/-- The platform lets one frame through: it takes both writes in full and ends the delay, and answers `ws` and `ds` are
left (R173, R178). -/
def frameTaken (s : State) (excess : Nat) (ws : List WrAnswer) (ds : List Nat) : Prop :=
  s.answers.wr = .ok s.params.symbufLen :: .ok s.params.resetGapLen :: ws ∧ s.answers.dly = excess :: ds

/-- `SYMBUF` after an all-off frame: every byte `SYMTAB[0]` (R155). -/
def darkBuffer (p : Params) : List Byte := List.replicate p.symbufLen (symbolByte p 0)

/-- No allocation failure is drawn at the next `INIT` or `INITPIN` (R226). -/
def allocationProceeds (s : State) : Prop := s.params.nomemPossible = false ∨ s.answers.nomem.head? ≠ some true

/-- The allocation draws left after one `INIT` or `INITPIN` on an UNINITIALIZED block (R226). -/
def nomemLeft (s : State) : List Bool := if s.params.nomemPossible then s.answers.nomem.tail else s.answers.nomem

/-- The frame operand passes the checks of R186. -/
def frameChecked (p : Params) (fptr flen : Word32) : Prop :=
  fptr.toNat ≠ 0 ∧ flen.toNat = p.ledCount ∧ fptr.toNat + 3 * p.ledCount ≤ 2 ^ 32

/-- Every byte a job's frame is read from is admitted (R54); an all-off frame is read from nowhere (R150). -/
def jobAdmitted (s : State) (job : Job) : Prop :=
  match job.source with
  | .mem fptr => frameAdmitted s fptr
  | .zeros => True

/-- The adapter job of the command the next step performs: the one in progress, or else the oldest one presented. -/
def nextJob (s : State) : Option Job :=
  if s.accepts then
    match s.port with
    | [] => none
    | p :: _ =>
      match decode p.word with
      | .legal i => jobOf i s
      | .illegal _ => none
  else currentJob s

/-- The platform answers every call one command can make (R236): an `Acq`, two `Wr`s and a delay. -/
def answersEveryCall (s : State) : Prop :=
  1 ≤ s.answers.acq.length ∧ 2 ≤ s.answers.wr.length ∧ 1 ≤ s.answers.dly.length

/-- The bytes a transmission command on a READY block hands to its data `Wr`: the symbols of the frame at `FPTR`, checked
(R186) and admitted (R54), at `BRIGHT` for `UPDATE` and at the operand for `UPDATEB` (R187, R188), and the all-off frame for
`CLEAR` (R189). -/
def sendsBytes (i : Instr) (s : State) (bytes : List Byte) : Prop :=
  (∃ fptr flen br, (i = .updateb fptr flen br ∨ (i = .update fptr flen ∧ br = s.bright)) ∧
    frameChecked s.params fptr flen ∧ frameAdmitted s fptr ∧
    bytes = frameSymbols s.params br (readFrame s (.mem fptr))) ∨
  (i = .clear ∧ bytes = darkBuffer s.params)

/-- What a command asks of the serializer (R184, R185, R187 to R190): the pin to acquire, or the frame source and the
brightness to send with, or the teardown.  It is said of the command alone, whether it starts or goes on. -/
def hasJob (i : Instr) (s : State) (job : Job) : Prop :=
  (i = .init ∧ job = .start s.params.defaultPin) ∨
  (∃ pin, i = .initpin pin ∧ job = .start pin) ∨
  (∃ fptr flen, i = .update fptr flen ∧ job = .send (.mem fptr) s.bright) ∨
  (∃ fptr flen br, i = .updateb fptr flen br ∧ job = .send (.mem fptr) br) ∨
  (i = .clear ∧ job = .send .zeros 0) ∨
  (i = .destroy ∧ job = .teardown)

/-- The rows of R171 that leave `IDLE`: the command in state `s` starts the serializer at `u` on its job, `INIT` and
`INITPIN` on an UNINITIALIZED block in `ACQUIRE`, the others on a READY one in `ENCODE`. -/
def startRow (i : Instr) (s : State) (job : Job) (u : State) : Prop :=
  hasJob i s job ∧
    match job with
    | .start _ => s.init = false ∧ u.phase = .acquire
    | .send _ _ => s.init = true ∧ u.phase = .encode
    | .teardown => s.init = true ∧ u.phase = .encode

/-- The command a step is about: with none in progress the oldest one presented, which it accepts (R73), and otherwise the
one in progress, which goes on. -/
def inHand (s : State) : Option Presented := if s.accepts then s.port.head? else s.current

/-- A step performs the command `i`, or goes on with it. -/
def performs (s : State) (i : Instr) : Prop := ∃ p, inHand s = some p ∧ decode p.word = .legal i

/-- How `HANDLE` can move (R181): `INIT` or `INITPIN` takes the handle `Acq` answered, or `DESTROY` gives it up, right after
`Rel` of it. -/
def handleMoved (i : Instr) (s t : State) : Prop :=
  (∃ h, s.init = false ∧ t.init = true ∧ t.handle = some h ∧ s.answers.acq.head? = some (.ok h) ∧
    (i = .init ∨ ∃ pin, i = .initpin pin)) ∨
  (∃ h, s.handle = some h ∧ t.handle = none ∧ t.init = false ∧ t.trace.getLast? = some (.rel h) ∧ i = .destroy)

/-- How `BRIGHT` can move (R26): by `SETBR`, or to 255 by a `DESTROY` of a READY block. -/
def brightMoved (i : Instr) (s t : State) : Prop :=
  i = .setbr t.bright ∨ (i = .destroy ∧ s.init = true ∧ t.bright = 255)

/-- The trace grows by events of which every settle delay is one of at least `SETTLE_DELAY_MS` (R178). -/
def delaysBounded (s t : State) : Prop :=
  ∃ es, t.trace = s.trace ++ es ∧
    ∀ ms lasted, .dly ms lasted ∈ es → ms = s.params.settleDelayMs ∧ s.params.settleDelayMs ≤ lasted

/-- The moves of `PHASE` that R171 allows within a command, each with its condition: the next answer of the adapter, or,
for the end of a clearing `transmit`, that the command is `DESTROY`. -/
def phaseRow (job : Job) (s t : State) : Prop :=
  match s.phase, t.phase with
  | .acquire, .encode => ∃ h, s.answers.acq.head? = some (.ok h)
  | .acquire, .idle => s.answers.acq.head? = some .err
  | .encode, .data => (writtenBytes t.symbuf).isSome = true
  | .data, .gap => s.answers.wr.head? = some (.ok s.symbuf.length)
  | .gap, .settle => s.answers.wr.head? = some (.ok s.params.resetGapLen)
  | .settle, .idle => s.answers.dly ≠ [] ∧ job ≠ .teardown
  | .data, .idle => (∃ w, s.answers.wr.head? = some w ∧ w ≠ .ok s.symbuf.length) ∧ job ≠ .teardown
  | .gap, .idle => (∃ w, s.answers.wr.head? = some w ∧ w ≠ .ok s.params.resetGapLen) ∧ job ≠ .teardown
  | .settle, .release => s.answers.dly ≠ [] ∧ job = .teardown
  | .data, .release => (∃ w, s.answers.wr.head? = some w ∧ w ≠ .ok s.symbuf.length) ∧ job = .teardown
  | .gap, .release => (∃ w, s.answers.wr.head? = some w ∧ w ≠ .ok s.params.resetGapLen) ∧ job = .teardown
  | .release, .idle => ∃ h, s.handle = some h ∧ t.trace = s.trace ++ [.rel h]
  | _, _ => False

end Sys2Proof.Machine
end

