-- ==== Sys2Proof/Certificates/Slice0/Obligations.lean ====
section
/-! DEFINITION. The statements for the provers.  Each says what the block does, as a numbered rule of the spec gives it; "free" marks
a value the spec leaves open, of which the statement holds whatever it is. -/

open Sys2Proof Sys2Proof.Machine

/-! ## Encoding -/

/-- R71, R74, R80, R82: no bit of a command is dropped by its word. -/
def Obligations.DecodeInvertsEncode : Prop := ∀ i : Instr, decode (encode i) = .legal i

/-- R81, R82: a legal word has no bit but its opcode's and its operands', so it is the encoding of what it decodes to. -/
def Obligations.LegalWordIsItsEncoding : Prop := ∀ (cw : CommandWord) (i : Instr), decode cw = .legal i → encode i = cw

/-- R83: the reserved opcodes are 0x00, 0x0A to 0x0F and 0x19 to 0xFF, and each is illegal, whatever the other bits. -/
def Obligations.ReservedOpcodesAreIllegal : Prop := ∀ cw : CommandWord,
  decode cw = .illegal .reservedOpcode ↔
    (cw.extractLsb' 0 8).toNat = 0 ∨ (0x0A ≤ (cw.extractLsb' 0 8).toNat ∧ (cw.extractLsb' 0 8).toNat ≤ 0x0F) ∨
      0x19 ≤ (cw.extractLsb' 0 8).toNat

/-- R85 and words of spec/95_test_vectors.md written out: what they decode to, and what the assembler makes of R85's lines. -/
def Obligations.WorkedWordsDecode : Prop :=
  decode 0x000000000000000000FF000000000001 = .legal (.mkpix 255 0 0) ∧
  decode 0x0000000000000000006480C800000004 = .legal (.hsv 100 128 200) ∧
  decode 0x0000000000C86432000A141E0000FF08 = .legal (.blend ⟨10, 20, 30⟩ ⟨200, 100, 50⟩ 255) ∧
  decode 0xFFFFFFFFFFFFFFFF0000000000000009 = .legal (.gamma ⟨0, 0, 0⟩ 0xFFFFFFFFFFFFFFFF) ∧
  decode 0x00000000000000000000000000000010 = .legal .init ∧
  decode 0x00000000000000000000000000001211 = .legal (.initpin 18) ∧
  decode 0x00000001000010000000000000000012 = .legal (.update 0x1000 1) ∧
  decode 0x00000001000010000000000000008013 = .legal (.updateb 0x1000 1 128) ∧
  decode 0x00000000000000000000000000000014 = .legal .clear ∧
  decode 0x00000000000000000000000000000015 = .legal .destroy ∧
  assembleWord 1 ⟨.core .mkpix, [.num 255, .num 0, .num 0]⟩ = some 0x000000000000000000FF000000000001 ∧
  assembleWord 1 ⟨.core .updateb, [.num 0x1000, .num 1, .num 128]⟩ = some 0x00000001000010000000000000008013

/-- R73, R81: with no command in progress, a step accepts the oldest command presented and performs what its word decodes
to; the rest stay on the port, and a command that has ended gets its response.  R66, R68, R171: with a command in progress,
a step goes on, from the phase the block waits in, with the job of the command its captured word decodes to. -/
def Obligations.StepPerformsDecodedCommand : Prop :=
  (∀ (s : State) (cw : CommandWord) (racing : List RacingByte) (rest : List Presented) (i : Instr),
    s.busy = false → s.phase = .idle → s.port = ⟨cw, racing⟩ :: rest → decode cw = .legal i →
      step s = settlePort (exec i { s with current := some ⟨cw, racing⟩, port := rest })) ∧
  (∀ (s : State) (cw : CommandWord) (racing : List RacingByte) (i : Instr) (job : Job),
    s.busy = true ∨ s.phase ≠ .idle → s.current = some ⟨cw, racing⟩ → decode cw = .legal i → hasJob i s job →
      step s = settlePort (runJob job s))

/-- R224: an illegal word raises ILLEGAL_COMMAND, and no register but `RESULT` and `STATUS` changes, no memory is read
and no adapter call is made.  So a step with no command in progress on a port whose oldest word is illegal takes that word
and returns the response; the only bytes of memory that change are those the host itself wrote in the window (R64). -/
def Obligations.IllegalWordRaisesIllegalCommand : Prop :=
  ∀ (s : State) (cw : CommandWord) (why : DecodeError), decode cw = .illegal why →
    runWord cw s = .next { s with status := 0x06, result := 0 } ∧
    ∀ (racing : List RacingByte) (rest : List Presented),
      s.busy = false → s.phase = .idle → s.port = ⟨cw, racing⟩ :: rest →
        ∃ t, step s = .next t ∧
          t = { s with
            status := 0x06, result := 0, current := none, port := rest, responses := s.responses ++ [⟨0x06, 0⟩]
            mem := t.mem } ∧
          ∀ a, (∀ x ∈ racing, x.addr ≠ a) → t.mem.read a = s.mem.read a

/-! ## Color Model -/

/-- R100: a Color Model command is a function of its operands and of the parameters: whatever the rest of the state (so in
every driver state), it answers the same code and value, writes them to `STATUS` and `RESULT`, and changes nothing else:
no register of the driver, no byte of `SYMBUF` or of host memory, and no adapter call.  The code is OK, but for GAMMA, which
may raise INVALID_PARAMETER. -/
def Obligations.ColorModelIsAPureFunction : Prop :=
  ∀ (i : Instr) (p : Params), isColorModel i = true →
    ∃ (code : BitVec 8) (value : Word32),
      (code = 0x00 ∨ (code = 0x02 ∧ value = 0 ∧ ∃ a pattern, i = .gamma a pattern)) ∧
      ∀ s : State, s.params = p → exec i s = .next { s with status := code, result := value }

/-- R101, R103: the word of opcode 0x01 with the triple r, g, b returns the pixel in storage order, with the top byte zero. -/
def Obligations.MkpixReordersToStorageOrder : Prop := ∀ (r g b : Byte) (s : State),
  decode (packFields ⟨0x01, 0, 0, r ++ g ++ b, 0, 0⟩) = .legal (.mkpix r g b) ∧
  exec (.mkpix r g b) s = .next { s with status := 0x00, result := (0 : BitVec 8) ++ g ++ r ++ b }

/-- R102: the scaled channel is the truncated quotient, with no wrap, and its corner values. -/
def Obligations.ScaleTruncatesWithoutWrap : Prop := ∀ c br : Byte,
  (scale c br).toNat = c.toNat * br.toNat / 255 ∧ scale c 255 = c ∧ scale c 0 = 0 ∧ scale 255 br = br ∧
    (c.toNat * br.toNat < 255 → scale c br = 0)

/-- R104: the word of opcode 0x02 with the triple r, g, b and the scalar br; `BRIGHT` is not read or written. -/
def Obligations.MkpixbScalesEachChannel : Prop := ∀ (r g b br : Byte) (s : State),
  decode (packFields ⟨0x02, br, 0, r ++ g ++ b, 0, 0⟩) = .legal (.mkpixb r g b br) ∧
  exec (.mkpixb r g b br) s =
    .next { s with status := 0x00, result := (0 : BitVec 8) ++ scale g br ++ scale r br ++ scale b br }

/-- R105, R106: the word of opcode 0x03 with the hue; three linear ramps over three bands, each channel taken mod 256 as
R105 keeps it. -/
def Obligations.WheelFollowsItsThreeRamps : Prop := ∀ (h : Byte) (s : State),
  decode (packFields ⟨0x03, h, 0, 0, 0, 0⟩) = .legal (.wheel h) ∧
  ∃ p : Pixel, exec (.wheel h) s = .next { s with status := 0x00, result := pixres p } ∧
    (h.toNat < 85 → (p.r.toNat : ℤ) = (h.toNat * 3 : ℤ) % 256 ∧ (p.g.toNat : ℤ) = (255 - h.toNat * 3 : ℤ) % 256 ∧ p.b = 0) ∧
    (85 ≤ h.toNat → h.toNat < 170 →
      (p.r.toNat : ℤ) = (255 - (h.toNat - 85) * 3 : ℤ) % 256 ∧ p.g = 0 ∧ (p.b.toNat : ℤ) = ((h.toNat - 85) * 3 : ℤ) % 256) ∧
    (170 ≤ h.toNat →
      p.r = 0 ∧ (p.g.toNat : ℤ) = ((h.toNat - 170) * 3 : ℤ) % 256 ∧ (p.b.toNat : ℤ) = (255 - (h.toNat - 170) * 3 : ℤ) % 256)

/-- R107 to R110: grey at s = 0; otherwise the six regions, with p, q and t as R108 gives them where HSV_FN is the default,
and free where it is the platform's (R7). -/
def Obligations.HsvFollowsRegionTable : Prop := ∀ (h sat v : Byte) (s : State),
  ∃ px : Pixel, exec (.hsv h sat v) s = .next { s with status := 0x00, result := pixres px } ∧
    (sat = 0 → px = ⟨v, v, v⟩) ∧
    (sat ≠ 0 → s.params.hsvFn = .standard →
      ∃ p q t : Byte,
        p.toNat = v.toNat * (255 - sat.toNat) / 256 ∧
        q.toNat = v.toNat * (255 - sat.toNat * (h.toNat % 43 * 6) / 256) / 256 ∧
        t.toNat = v.toNat * (255 - sat.toNat * (255 - h.toNat % 43 * 6) / 256) / 256 ∧
        (h.toNat / 43 = 0 → px.r = v ∧ px.g = t ∧ px.b = p) ∧
        (h.toNat / 43 = 1 → px.r = q ∧ px.g = v ∧ px.b = p) ∧
        (h.toNat / 43 = 2 → px.r = p ∧ px.g = v ∧ px.b = t) ∧
        (h.toNat / 43 = 3 → px.r = p ∧ px.g = q ∧ px.b = v) ∧
        (h.toNat / 43 = 4 → px.r = t ∧ px.g = p ∧ px.b = v) ∧
        (5 ≤ h.toNat / 43 → px.r = v ∧ px.g = p ∧ px.b = q))

/-- R111: the word of opcode 0x05 with a pixel; the result is a byte, with bits 31 to 8 zero, that is a function of the pixel
(and of the parameter HUE_FN), 0 on an achromatic pixel.  On every other pixel nothing more is said of it: HUE_FN is OPEN. -/
def Obligations.HueIsZeroOnGreyAndAByteElsewhere : Prop :=
  (∀ a : Pixel, decode (packFields ⟨0x05, 0, 0, a.g ++ a.r ++ a.b, 0, 0⟩) = .legal (.hue a)) ∧
  ∃ hue : Params → Pixel → Byte, ∀ (a : Pixel) (s : State),
    exec (.hue a) s = .next { s with status := 0x00, result := (hue s.params a).zeroExtend 32 } ∧
    (max a.r.toNat (max a.g.toNat a.b.toNat) = min a.r.toNat (min a.g.toNat a.b.toNat) → hue s.params a = 0)

/-- R112, R113: the word of opcode 0x06 with a pixel; the hexadecimal word is red-green-blue with bits 31 to 24 zero. -/
def Obligations.HexvPacksRedGreenBlue : Prop := ∀ (a : Pixel) (s : State),
  decode (packFields ⟨0x06, 0, 0, a.g ++ a.r ++ a.b, 0, 0⟩) = .legal (.hexv a) ∧
  exec (.hexv a) s = .next { s with status := 0x00, result := (0 : BitVec 8) ++ a.r ++ a.g ++ a.b }

/-- R114: the word of opcode 0x07 with a hexadecimal word; its bytes are red, green, blue, and bits 31 to 24 may be anything
and are ignored. -/
def Obligations.FromhexUnpacksAndIgnoresTopByte : Prop := ∀ (top r g b : Byte) (s : State),
  decode (packFields ⟨0x07, 0, 0, 0, 0, (0 : BitVec 32) ++ (top ++ r ++ g ++ b)⟩) = .legal (.fromhex (top ++ r ++ g ++ b)) ∧
  exec (.fromhex (top ++ r ++ g ++ b)) s = .next { s with status := 0x00, result := (0 : BitVec 8) ++ g ++ r ++ b }

/-- R115: FROMHEX applied to the `RESULT` of HEXV gives the pixel back; and HEXV applied to the pixel FROMHEX returns gives
the word back exactly where the word's bits 31 to 24 are zero. -/
def Obligations.HexRoundTripIsExact : Prop :=
  (∀ (a : Pixel) (s t : State), exec (.hexv a) s = .next t →
    ∃ u, exec (.fromhex t.result) t = .next u ∧ u.status = 0x00 ∧ u.result = pixres a) ∧
  (∀ (w : Word32) (s t : State), exec (.fromhex w) s = .next t →
    ∃ u, exec (.hexv (pixelOfResult t.result)) t = .next u ∧ u.status = 0x00 ∧
      (u.result = w ↔ w.extractLsb' 24 8 = 0))

/-- R116: the word of opcode 0x08 with two pixels and an amount; each channel is the truncated
interpolation. -/
def Obligations.BlendInterpolatesEachChannel : Prop := ∀ (a b : Pixel) (m : Byte) (s : State),
  decode (packFields ⟨0x08, m, 0, a.g ++ a.r ++ a.b, 0, (0 : BitVec 40) ++ (b.g ++ b.r ++ b.b)⟩) = .legal (.blend a b m) ∧
  ∃ p : Pixel, exec (.blend a b m) s = .next { s with status := 0x00, result := pixres p } ∧
    p.g.toNat = (a.g.toNat * (255 - m.toNat) + b.g.toNat * m.toNat) / 255 ∧
    p.r.toNat = (a.r.toNat * (255 - m.toNat) + b.r.toNat * m.toNat) / 255 ∧
    p.b.toNat = (a.b.toNat * (255 - m.toNat) + b.b.toNat * m.toNat) / 255

/-- R117 and the corner case of R116: the end points of a blend are exact, and a pixel blended with itself comes back. -/
def Obligations.BlendEndpointsAreExact : Prop := ∀ (a b : Pixel) (m : Byte) (s : State),
  exec (.blend a a m) s = .next { s with status := 0x00, result := pixres a } ∧
  exec (.blend a b 0) s = .next { s with status := 0x00, result := pixres a } ∧
  exec (.blend a b 255) s = .next { s with status := 0x00, result := pixres b }

/-- R118, R120: exactly the pattern 0x400199999999999A takes each channel through `GAMMA_LUT`, and nothing else of the block
enters. -/
def Obligations.GammaLookupPathReadsTheTable : Prop := ∀ (a : Pixel) (s : State),
  exec (.gamma a 0x400199999999999A) s = .next { s with
    status := 0x00
    result := (0 : BitVec 8) ++ s.params.gammaLut.get a.g.toFin ++ s.params.gammaLut.get a.r.toFin ++
      s.params.gammaLut.get a.b.toFin } ∧
  ∀ pattern : Word64, pattern ≠ 0x400199999999999A → ∀ lut : Vector Byte 256, ∃ (code : BitVec 8) (value : Word32),
    exec (.gamma a pattern) s = .next { s with status := code, result := value } ∧
    exec (.gamma a pattern) { s with params := { s.params with gammaLut := lut } } =
      .next { s with params := { s.params with gammaLut := lut }, status := code, result := value }

/-- R119: a pattern with the sign bit set, with an exponent field of all ones (an infinity or a NaN), or with all of
exponent and fraction zero, raises INVALID_PARAMETER and does nothing else. -/
def Obligations.GammaOutsideDomainIsRefused : Prop := ∀ (a : Pixel) (pattern : Word64) (s : State),
  (pattern.msb = true ∨ (pattern.extractLsb' 52 11).toNat = 0x7FF ∨
    ((pattern.extractLsb' 52 11).toNat = 0 ∧ (pattern.extractLsb' 0 52).toNat = 0)) →
  exec (.gamma a pattern) s = .next { s with status := 0x02, result := 0 }

/-- R121, R122: where GAMMA_POW is the default, each channel on the general path is `255 * pow(c/255, gamma)`, in real
arithmetic, rounded half up, for every finite positive binary64 but the pattern of 2.2. -/
def Obligations.GammaGeneralPathIsExactlyRounded : Prop :=
  ∀ (a : Pixel) (pattern : Word64) (gamma : ℝ) (s : State),
    s.params.gammaPow = .exact → pattern ≠ 0x400199999999999A → gammaInDomain pattern = true →
    isBinary64 pattern gamma →
      ∃ p : Pixel, exec (.gamma a pattern) s = .next { s with status := 0x00, result := pixres p } ∧
        (p.g.toNat : ℤ) = ⌊255 * ((a.g.toNat : ℝ) / 255) ^ gamma + 1 / 2⌋ ∧
        (p.r.toNat : ℤ) = ⌊255 * ((a.r.toNat : ℝ) / 255) ^ gamma + 1 / 2⌋ ∧
        (p.b.toNat : ℤ) = ⌊255 * ((a.b.toNat : ℝ) / 255) ^ gamma + 1 / 2⌋

/-- R121: where GAMMA_POW is a platform's (free), each channel is within 1 of the real value. -/
def Obligations.GammaPlatformPathIsWithinOne : Prop :=
  ∀ (a : Pixel) (pattern : Word64) (gamma : ℝ) (s : State),
    s.params.gammaPow = .platform → pattern ≠ 0x400199999999999A → gammaInDomain pattern = true →
    isBinary64 pattern gamma →
      ∃ p : Pixel, exec (.gamma a pattern) s = .next { s with status := 0x00, result := pixres p } ∧
        |(p.g.toNat : ℝ) - 255 * ((a.g.toNat : ℝ) / 255) ^ gamma| ≤ 1 ∧
        |(p.r.toNat : ℝ) - 255 * ((a.r.toNat : ℝ) / 255) ^ gamma| ≤ 1 ∧
        |(p.b.toNat : ℝ) - 255 * ((a.b.toNat : ℝ) / 255) ^ gamma| ≤ 1

/-- R123: under the constraints of R33 the lookup path differs by at most 1 in each channel from the rounded formula at the
real number 2.2, and by 0 for the default table of decision D11. -/
def Obligations.GammaTableAgreesWithFormula : Prop := ∀ (a : Pixel) (s : State), gammaLutValid s.params →
  ∃ p : Pixel, exec (.gamma a 0x400199999999999A) s = .next { s with status := 0x00, result := pixres p } ∧
    (|(p.g.toNat : ℤ) - ⌊255 * ((a.g.toNat : ℝ) / 255) ^ (2.2 : ℝ) + 1 / 2⌋| ≤ 1 ∧
      |(p.r.toNat : ℤ) - ⌊255 * ((a.r.toNat : ℝ) / 255) ^ (2.2 : ℝ) + 1 / 2⌋| ≤ 1 ∧
      |(p.b.toNat : ℤ) - ⌊255 * ((a.b.toNat : ℝ) / 255) ^ (2.2 : ℝ) + 1 / 2⌋| ≤ 1) ∧
    (s.params.gammaLut = Config.defaultGammaLut →
      (p.g.toNat : ℤ) = ⌊255 * ((a.g.toNat : ℝ) / 255) ^ (2.2 : ℝ) + 1 / 2⌋ ∧
      (p.r.toNat : ℤ) = ⌊255 * ((a.r.toNat : ℝ) / 255) ^ (2.2 : ℝ) + 1 / 2⌋ ∧
      (p.b.toNat : ℤ) = ⌊255 * ((a.b.toNat : ℝ) / 255) ^ (2.2 : ℝ) + 1 / 2⌋)

/-! ## Frame Encoder -/

/-- R51, R52: with no host write racing its three bytes, pixel i of a frame is the bytes from `FPTR + 3*i` on, green at the
lowest address; and that pixel is the i-th one the encoder reads of an admitted frame. -/
def Obligations.FramePixelIsThreeBytesGreenFirst : Prop :=
  ∀ (s : State) (fptr : Word32) (i : Nat) (green red blue : Byte),
    (∀ x ∈ s.racing, x.addr ≠ fptr.toNat + 3 * i ∧ x.addr ≠ fptr.toNat + 3 * i + 1 ∧ x.addr ≠ fptr.toNat + 3 * i + 2) →
    s.mem.read (fptr.toNat + 3 * i) = some green → s.mem.read (fptr.toNat + 3 * i + 1) = some red →
    s.mem.read (fptr.toNat + 3 * i + 2) = some blue →
      framePixel s fptr i = some { g := green, r := red, b := blue } ∧
      (frameAdmitted s fptr → i < s.params.ledCount →
        (readFrame s (.mem fptr)).length = s.params.ledCount ∧
        (readFrame s (.mem fptr))[i]? = some { g := green, r := red, b := blue })

/-- R152: where each symbol of each channel of each pixel stands in `SYMBUF`; channel 0 is green, 1 is red and 2 is blue. -/
def Obligations.SymbolLayoutIsByPixelChannelGroup : Prop :=
  ∀ (p : Params) (br : Byte) (pixels : List Pixel) (i ch k : Nat) (px : Pixel) (c : Byte), pixels.length = p.ledCount →
    pixels[i]? = some px → (ch = 0 ∧ c = px.g) ∨ (ch = 1 ∧ c = px.r) ∨ (ch = 2 ∧ c = px.b) → k < 4 →
      (encodedBuffer p br pixels)[12 * i + 4 * ch + k]? =
        some (some (p.symtab.get ⟨((scale c br).toNat >>> (6 - 2 * k)) % 4, Nat.mod_lt _ (by decide)⟩))

/-- R155: since the entries of `SYMTAB` are distinct, the symbol bytes determine every scaled channel of the frame. -/
def Obligations.SymbolBytesDetermineScaledChannels : Prop :=
  ∀ (p : Params) (br br' : Byte) (xs ys : List Pixel), symtabDistinct p → xs.length = ys.length →
    frameSymbols p br xs = frameSymbols p br' ys → xs.map (fun x => scalePixel x br) = ys.map (fun y => scalePixel y br')

/-- R155: brightness 0, or an all-black frame at any brightness, gives `SYMTAB[0]` in every byte. -/
def Obligations.DarkFramesEncodeToSymbolZero : Prop :=
  ∀ (p : Params) (br : Byte) (xs : List Pixel),
    frameSymbols p 0 xs = List.replicate (12 * xs.length) (p.symtab.get 0) ∧
    ((∀ x ∈ xs, x = Pixel.black) → frameSymbols p br xs = List.replicate (12 * xs.length) (p.symtab.get 0))

/-! ## Driver commands -/

/-- R172, R184, R185: INIT on an UNINITIALIZED block whose platform lets the allocation, the `Acq` and the clearing frame
through: it acquires the default pin, sends an all-off frame at brightness 0, and is READY; `BRIGHT` is not written. -/
def Obligations.InitAcquiresAndClears : Prop :=
  ∀ (s : State) (h : Handle) (as : List AcqAnswer) (ws : List WrAnswer) (x : Nat) (ds : List Nat),
    s.init = false → allocationProceeds s → s.answers.acq = .ok h :: as → frameTaken s x ws ds →
      exec .init s = .next { s with
        init := true, busy := false, phase := .idle, pin := s.params.defaultPin, handle := some h
        symbuf := (darkBuffer s.params).map some
        status := 0x00, result := 0
        trace := s.trace ++ .acq s.params.defaultPin s.params.sampleRateHz (12 * s.params.ledCount) (.ok h) ::
          frameEvents s.params (darkBuffer s.params) x
        answers := ⟨as, ws, ds, nomemLeft s⟩ }

/-- R185: INITPIN does the same on the pin of its command word. -/
def Obligations.InitpinAcquiresItsOwnPin : Prop :=
  ∀ (s : State) (pin : Byte) (h : Handle) (as : List AcqAnswer) (ws : List WrAnswer) (x : Nat) (ds : List Nat),
    s.init = false → allocationProceeds s → s.answers.acq = .ok h :: as → frameTaken s x ws ds →
      exec (.initpin pin) s = .next { s with
        init := true, busy := false, phase := .idle, pin := pin, handle := some h
        symbuf := (darkBuffer s.params).map some
        status := 0x00, result := 0
        trace := s.trace ++ .acq pin s.params.sampleRateHz (12 * s.params.ledCount) (.ok h) ::
          frameEvents s.params (darkBuffer s.params) x
        answers := ⟨as, ws, ds, nomemLeft s⟩ }

/-- R184, R185: on a READY block both are a success no-op; `PIN` and the adapter are kept. -/
def Obligations.InitOnReadyBlockIsNoOp : Prop := ∀ (s : State) (pin : Byte), s.init = true →
  exec .init s = .next { s with status := 0x00, result := 0 } ∧
  exec (.initpin pin) s = .next { s with status := 0x00, result := 0 }

/-- R221: `Acq` answered `err` ends the command with INIT_ERROR; the block stays UNINITIALIZED, `PIN` and `BRIGHT` are
unchanged, and the failed `Acq` is the one adapter call.  No other command that ends, at once or
after a wait, and no other answer, gives INIT_ERROR. -/
def Obligations.FailedAcquireLeavesBlockUninitialized : Prop :=
  (∀ (s : State) (i : Instr) (pin : Byte) (as : List AcqAnswer),
    s.init = false → allocationProceeds s → s.answers.acq = .err :: as →
    (i = .initpin pin ∨ (i = .init ∧ pin = s.params.defaultPin)) →
      exec i s = .next { s with
        busy := false, phase := .idle, status := 0x01, result := 0
        trace := s.trace ++ [.acq pin s.params.sampleRateHz (12 * s.params.ledCount) .err]
        answers := ⟨as, s.answers.wr, s.answers.dly, nomemLeft s⟩ }) ∧
  (∀ (i : Instr) (s t : State), exec i s = .next t → t.phase = .idle → t.status = 0x01 →
    s.init = false ∧ s.answers.acq.head? = some .err ∧ (i = .init ∨ ∃ pin, i = .initpin pin)) ∧
  (∀ s t : State, Inv s → step s = .next t → t.responses ≠ s.responses → t.status = 0x01 →
    ∃ i, performs s i ∧ s.init = false ∧ s.answers.acq.head? = some .err ∧ (i = .init ∨ ∃ pin, i = .initpin pin))

/-- R226: NO_MEMORY is raised exactly by an INIT or INITPIN of an UNINITIALIZED block where `NOMEM_POSSIBLE` holds and the
platform draws a failure, before any adapter call; the block stays UNINITIALIZED.  No other command that ends, at once
or after a wait, gives it. -/
def Obligations.NoMemoryOnlyWherePossible : Prop :=
  (∀ (s : State) (i : Instr), (i = .init ∨ ∃ pin, i = .initpin pin) → s.init = false →
    s.params.nomemPossible = true → s.answers.nomem.head? = some true →
      exec i s = .next { s with
        status := 0x05, result := 0
        answers := ⟨s.answers.acq, s.answers.wr, s.answers.dly, s.answers.nomem.tail⟩ }) ∧
  (∀ (i : Instr) (s t : State), exec i s = .next t → t.phase = .idle → t.status = 0x05 →
    s.init = false ∧ s.params.nomemPossible = true ∧ s.answers.nomem.head? = some true ∧
      (i = .init ∨ ∃ pin, i = .initpin pin)) ∧
  (∀ s t : State, step s = .next t → t.responses ≠ s.responses → t.status = 0x05 →
    ∃ i, performs s i ∧ s.init = false ∧ s.params.nomemPossible = true ∧ s.answers.nomem.head? = some true ∧
      (i = .init ∨ ∃ pin, i = .initpin pin))

/-- R183, R184, R185 (decision D23): an INIT or INITPIN whose clearing frame fails, at its data `Wr` or at its trailer `Wr`,
leaves the block READY, owning the adapter, with PERIPHERAL_ERROR; no adapter call follows the failed one. -/
def Obligations.InitWithFailedClearingFrameIsReady : Prop :=
  ∀ (s : State) (i : Instr) (pin : Byte) (h : Handle) (as : List AcqAnswer) (w : WrAnswer) (ws : List WrAnswer),
    (i = .initpin pin ∨ (i = .init ∧ pin = s.params.defaultPin)) →
    s.init = false → allocationProceeds s → s.answers.acq = .ok h :: as →
    (s.answers.wr = w :: ws → w ≠ .ok (12 * s.params.ledCount) →
      exec i s = .next { s with
        init := true, busy := false, phase := .idle, pin := pin, handle := some h
        symbuf := (darkBuffer s.params).map some
        status := 0x04, result := 0
        trace := s.trace ++ [.acq pin s.params.sampleRateHz (12 * s.params.ledCount) (.ok h), .wr (darkBuffer s.params) w]
        answers := ⟨as, ws, s.answers.dly, nomemLeft s⟩ }) ∧
    (s.answers.wr = .ok (12 * s.params.ledCount) :: w :: ws → w ≠ .ok s.params.resetGapLen →
      exec i s = .next { s with
        init := true, busy := false, phase := .idle, pin := pin, handle := some h
        symbuf := (darkBuffer s.params).map some
        status := 0x04, result := 0
        trace := s.trace ++ [.acq pin s.params.sampleRateHz (12 * s.params.ledCount) (.ok h),
          .wr (darkBuffer s.params) (.ok (12 * s.params.ledCount)), .wr (List.replicate s.params.resetGapLen 0) w]
        answers := ⟨as, ws, s.answers.dly, nomemLeft s⟩ })

/-- R175, R187: UPDATE of a frame that passes the checks, all of it admitted, with the platform taking it: the frame is
encoded at `BRIGHT`, sent, followed by the trailer and the delay; no driver register changes. -/
def Obligations.UpdateSendsFrameAtGlobalBrightness : Prop :=
  ∀ (s : State) (fptr flen : Word32) (ws : List WrAnswer) (x : Nat) (ds : List Nat),
    s.init = true → s.hvalid = true → frameChecked s.params fptr flen → frameAdmitted s fptr → frameTaken s x ws ds →
      exec (.update fptr flen) s = .next { s with
        busy := false, phase := .idle
        symbuf := (frameSymbols s.params s.bright (readFrame s (.mem fptr))).map some
        status := 0x00, result := 0
        trace := s.trace ++ frameEvents s.params (frameSymbols s.params s.bright (readFrame s (.mem fptr))) x
        answers := ⟨s.answers.acq, ws, ds, s.answers.nomem⟩ }

/-- R188: UPDATEB does the same at the brightness of its operand; `BRIGHT` is not read or written. -/
def Obligations.UpdatebSendsFrameAtOperandBrightness : Prop :=
  ∀ (s : State) (fptr flen : Word32) (br : Byte) (ws : List WrAnswer) (x : Nat) (ds : List Nat),
    s.init = true → s.hvalid = true → frameChecked s.params fptr flen → frameAdmitted s fptr → frameTaken s x ws ds →
      exec (.updateb fptr flen br) s = .next { s with
        busy := false, phase := .idle
        symbuf := (frameSymbols s.params br (readFrame s (.mem fptr))).map some
        status := 0x00, result := 0
        trace := s.trace ++ frameEvents s.params (frameSymbols s.params br (readFrame s (.mem fptr))) x
        answers := ⟨s.answers.acq, ws, ds, s.answers.nomem⟩ }

/-- R189: CLEAR sends an all-off frame; it reads no host memory and does not change `BRIGHT`. -/
def Obligations.ClearSendsDarkFrame : Prop :=
  ∀ (s : State) (ws : List WrAnswer) (x : Nat) (ds : List Nat),
    s.init = true → s.hvalid = true → frameTaken s x ws ds →
      exec .clear s = .next { s with
        busy := false, phase := .idle
        symbuf := (darkBuffer s.params).map some
        status := 0x00, result := 0
        trace := s.trace ++ frameEvents s.params (darkBuffer s.params) x
        answers := ⟨s.answers.acq, ws, ds, s.answers.nomem⟩ }

/-- R190: DESTROY of a READY block sends a clearing frame, releases the handle, and is UNINITIALIZED with `PIN` and
`BRIGHT` at their defaults. -/
def Obligations.DestroyClearsReleasesAndResets : Prop :=
  ∀ (s : State) (h : Handle) (ws : List WrAnswer) (x : Nat) (ds : List Nat),
    s.init = true → s.handle = some h → frameTaken s x ws ds →
      exec .destroy s = .next { s with
        init := false, busy := false, phase := .idle, pin := s.params.defaultPin, bright := 255, handle := none
        symbuf := (darkBuffer s.params).map some
        status := 0x00, result := 0
        trace := s.trace ++ frameEvents s.params (darkBuffer s.params) x ++ [.rel h]
        answers := ⟨s.answers.acq, ws, ds, s.answers.nomem⟩ }

/-- R190, R194: whatever the platform answers to the clearing frame, a DESTROY of a READY block whose calls are answered
returns OK, releases its handle last, and leaves the block UNINITIALIZED; before `Rel` the trace holds a failed data `Wr`
alone, or the data `Wr` and a failed trailer `Wr`, or the whole frame with its delay.  A DESTROY of an UNINITIALIZED block
is a success no-op. -/
def Obligations.DestroyAlwaysTearsDown : Prop :=
  (∀ (s : State) (h : Handle) (w w' : WrAnswer) (ws : List WrAnswer) (x : Nat) (ds : List Nat),
    s.init = true → s.handle = some h → s.answers.wr = w :: w' :: ws → s.answers.dly = x :: ds →
    ∃ (es : List Event) (ws' : List WrAnswer) (ds' : List Nat),
      exec .destroy s = .next { s with
        init := false, busy := false, phase := .idle, pin := s.params.defaultPin, bright := 255, handle := none
        symbuf := (darkBuffer s.params).map some
        status := 0x00, result := 0
        trace := s.trace ++ es ++ [.rel h]
        answers := ⟨s.answers.acq, ws', ds', s.answers.nomem⟩ } ∧
      (w ≠ .ok (12 * s.params.ledCount) → es = [.wr (darkBuffer s.params) w] ∧ ws' = w' :: ws ∧ ds' = x :: ds) ∧
      (w = .ok (12 * s.params.ledCount) → w' ≠ .ok s.params.resetGapLen →
        es = [.wr (darkBuffer s.params) w, .wr (List.replicate s.params.resetGapLen 0) w'] ∧ ws' = ws ∧ ds' = x :: ds) ∧
      (w = .ok (12 * s.params.ledCount) → w' = .ok s.params.resetGapLen →
        es = frameEvents s.params (darkBuffer s.params) x ∧ ws' = ws ∧ ds' = ds)) ∧
  (∀ s : State, s.init = false → exec .destroy s = .next { s with status := 0x00, result := 0 })

/-- R191: the word of opcode 0x16 reads `INIT`. -/
def Obligations.IsinitReadsTheFlag : Prop := ∀ s : State,
  decode (packFields ⟨0x16, 0, 0, 0, 0, 0⟩) = .legal .isinit ∧
  exec .isinit s = .next { s with status := 0x00, result := if s.init = true then 1 else 0 }

/-- R192: the word of opcode 0x17 with a byte writes that byte to `BRIGHT`, in every driver state, and starts no
transmission. -/
def Obligations.SetbrWritesOnlyBright : Prop := ∀ (b : Byte) (s : State),
  decode (packFields ⟨0x17, b, 0, 0, 0, 0⟩) = .legal (.setbr b) ∧
  exec (.setbr b) s = .next { s with bright := b, status := 0x00, result := 0 }

/-- R193: the word of opcode 0x18 reads `BRIGHT`. -/
def Obligations.GetbrReturnsBright : Prop := ∀ s : State,
  decode (packFields ⟨0x18, 0, 0, 0, 0, 0⟩) = .legal .getbr ∧
  exec .getbr s = .next { s with status := 0x00, result := s.bright.zeroExtend 32 }

/-- R182, R223: on an UNINITIALIZED block the transmission commands raise NOT_INITIALIZED, before the frame operand is
checked, and do nothing else; DESTROY is not refused there. -/
def Obligations.TransmissionNeedsInit : Prop := ∀ (s : State) (fptr flen : Word32) (br : Byte), s.init = false →
  exec (.update fptr flen) s = .next { s with status := 0x03, result := 0 } ∧
  exec (.updateb fptr flen br) s = .next { s with status := 0x03, result := 0 } ∧
  exec .clear s = .next { s with status := 0x03, result := 0 } ∧
  exec .destroy s = .next { s with status := 0x00, result := 0 }

/-- R186, R222: on a READY block a frame address of 0, a length other than `N`, or a frame past the top of the address
space raises INVALID_PARAMETER and does nothing else. -/
def Obligations.BadFrameOperandIsRefused : Prop := ∀ (s : State) (fptr flen : Word32) (br : Byte), s.init = true →
  (fptr.toNat = 0 ∨ flen.toNat ≠ s.params.ledCount ∨ 2 ^ 32 < fptr.toNat + 3 * s.params.ledCount) →
    exec (.update fptr flen) s = .next { s with status := 0x02, result := 0 } ∧
    exec (.updateb fptr flen br) s = .next { s with status := 0x02, result := 0 }

/-- R173, R179, R225: in UPDATE, UPDATEB and CLEAR a data `Wr` that is not answered with the full count ends the frame with
PERIPHERAL_ERROR: no trailer and no delay follow, and the driver's registers are as they were. -/
def Obligations.FailedDataWriteEndsTheFrame : Prop :=
  ∀ (s : State) (i : Instr) (bytes : List Byte) (w : WrAnswer) (ws : List WrAnswer),
    s.init = true → s.hvalid = true → sendsBytes i s bytes → s.answers.wr = w :: ws → w ≠ .ok (12 * s.params.ledCount) →
      exec i s = .next { s with
        busy := false, phase := .idle
        symbuf := bytes.map some
        status := 0x04, result := 0
        trace := s.trace ++ [.wr bytes w]
        answers := ⟨s.answers.acq, ws, s.answers.dly, s.answers.nomem⟩ }

/-- R173, R179, R225: the same of the trailer `Wr` of UPDATE, UPDATEB and CLEAR: no delay follows. -/
def Obligations.FailedTrailerWriteEndsTheFrame : Prop :=
  ∀ (s : State) (i : Instr) (bytes : List Byte) (w : WrAnswer) (ws : List WrAnswer),
    s.init = true → s.hvalid = true → sendsBytes i s bytes →
    s.answers.wr = .ok (12 * s.params.ledCount) :: w :: ws → w ≠ .ok s.params.resetGapLen →
      exec i s = .next { s with
        busy := false, phase := .idle
        symbuf := bytes.map some
        status := 0x04, result := 0
        trace := s.trace ++ [.wr bytes (.ok (12 * s.params.ledCount)), .wr (List.replicate s.params.resetGapLen 0) w]
        answers := ⟨s.answers.acq, ws, s.answers.dly, s.answers.nomem⟩ }

/-- R194: SETBR b and then UPDATE hands the adapter the same bytes, and leaves the same `SYMBUF`, as UPDATEB with b, whatever
the adapter answers; the command ends in the one where it ends in the other, with the same code. -/
def Obligations.SetbrThenUpdateSendsWhatUpdatebSends : Prop :=
  ∀ (s t u v : State) (fptr flen : Word32) (b : Byte), exec (.setbr b) s = .next t → exec (.update fptr flen) t = .next u →
    exec (.updateb fptr flen b) s = .next v →
      u.symbuf = v.symbuf ∧ u.trace = v.trace ∧ u.phase = v.phase ∧ (u.phase = .idle → u.status = v.status)

/-! ## The machine -/

/-- R171: the serializer leaves IDLE only for ACQUIRE, where INIT or INITPIN starts on an UNINITIALIZED block, and for ENCODE,
where UPDATE, UPDATEB, CLEAR or DESTROY starts on a READY one, and every other command leaves the phase as it is; and from
one phase to another it moves as its table lists, on the condition listed, and in no other way. -/
def Obligations.PhaseMovesOnlyAsListed : Prop :=
  (∀ (i : Instr) (s : State),
    (∃ t, exec i s = .next t ∧ t.phase = s.phase ∧ t.busy = s.busy ∧ t.trace = s.trace) ∨
    ∃ (job : Job) (u : State), startRow i s job u ∧ u.busy = true ∧ u.trace = s.trace ∧ exec i s = runJob job u) ∧
  (∀ (job : Job) (s t : State), serializerMove job s = .to t → phaseRow job s t)

/-- R181: only INIT and INITPIN give the block a handle, the one `Acq` answered, and only DESTROY takes it away, right after
`Rel` of it, at once or after a wait; without a handle the phases of `Wr` and `Rel` make no call. -/
def Obligations.HandleMovesOnlyByInitAndDestroy : Prop :=
  (∀ (i : Instr) (s t : State), exec i s = .next t → s.handle ≠ t.handle → handleMoved i s t) ∧
  (∀ s t : State, Inv s → step s = .next t → s.handle ≠ t.handle → ∃ i, performs s i ∧ handleMoved i s t) ∧
  (∀ (job : Job) (s : State), s.handle = none → s.phase = .data ∨ s.phase = .gap ∨ s.phase = .release →
    ∃ r, serializerMove job s = .faults r)

/-- R26: only SETBR, and a DESTROY of a READY block, change `BRIGHT`, at once or after a wait. -/
def Obligations.BrightMovesOnlyBySetbrAndDestroy : Prop :=
  (∀ (i : Instr) (s t : State), exec i s = .next t → s.bright ≠ t.bright → brightMoved i s t) ∧
  (∀ s t : State, Inv s → step s = .next t → s.bright ≠ t.bright → ∃ i, performs s i ∧ brightMoved i s t)

/-- R8, R50, R170: no command changes a parameter or a byte of host memory, and the trace only grows; and of a step the same,
but for the bytes that the host itself writes in the window of the command (R64). -/
def Obligations.NoCommandWritesMemoryOrParameters : Prop :=
  (∀ (i : Instr) (s t : State), exec i s = .next t →
    t.params = s.params ∧ (∀ a, t.mem.read a = s.mem.read a) ∧ ∃ es, t.trace = s.trace ++ es) ∧
  (∀ s t : State, step s = .next t →
    t.params = s.params ∧
    (∀ a, (∀ p, inHand s = some p → ∀ x ∈ p.racing, x.addr ≠ a) → t.mem.read a = s.mem.read a) ∧
    ∃ es, t.trace = s.trace ++ es)

/-- R178: every settle delay that a command, or a step, adds to the trace is one of `SETTLE_DELAY_MS`, which no operand
changes, and lasts at least that long. -/
def Obligations.SettleDelayIsALowerBound : Prop :=
  (∀ (i : Instr) (s t : State), exec i s = .next t → delaysBounded s t) ∧
  (∀ s t : State, step s = .next t → delaysBounded s t)

/-- R54: a frame byte that is not admitted leaves the block stuck in ENCODE: no response, no adapter call, and every later
step leaves it where it is. -/
def Obligations.UnadmittedByteStallsForever : Prop :=
  ∀ (s : State) (cw : CommandWord) (racing : List RacingByte) (rest : List Presented) (fptr flen : Word32) (br : Byte)
    (k : Nat),
    s.busy = false → s.phase = .idle → s.init = true → s.port = ⟨cw, racing⟩ :: rest →
    (decode cw = .legal (.update fptr flen) ∨ decode cw = .legal (.updateb fptr flen br)) →
    frameChecked s.params fptr flen → k < 3 * s.params.ledCount → s.mem.admits (fptr.toNat + k) = false →
      ∃ t, step s = .next t ∧ t.phase = .encode ∧ t.busy = true ∧ t.trace = s.trace ∧ t.responses = s.responses ∧
        t.status = s.status ∧ t.result = s.result ∧ t.port = rest ∧ step t = .next t

/-- R73, R236: while the command in progress waits for an `Acq` or a `Wr` that is not answered or for a delay that does not end, the block makes no
move, returns no response and holds every command presented. -/
def Obligations.UnansweredCallHoldsThePort : Prop :=
  ∀ s : State, Inv s →
    ((s.phase = .acquire ∧ s.answers.acq = []) ∨ (s.phase = .data ∧ s.answers.wr = []) ∨
      (s.phase = .gap ∧ s.answers.wr = []) ∨ (s.phase = .settle ∧ s.answers.dly = [])) → step s = .next s

/-- R236: if the platform answers every call and admits the bytes of the frame the next command reads, a step from a state
of the invariant ends its command: the block is idle again, and if there was a command it has its one response (R72).  That
ONE step takes a command to its end is the model's choice (DESIGN CHOICE, log entry 9); the spec says that the command
ends. -/
def Obligations.CommandEndsWhenEveryCallIsAnswered : Prop :=
  ∀ s : State, Inv s → answersEveryCall s → (∀ job, nextJob s = some job → jobAdmitted s job) →
    ∃ t, step s = .next t ∧ t.busy = false ∧ t.phase = .idle ∧ t.current = none ∧
      ((s.phase ≠ .idle ∨ s.port ≠ []) → t.responses = s.responses ++ [⟨t.status, t.result⟩])

/-- R64: with no host write racing it, a frame read returns the byte in memory; where the host writes the byte in the window
of the command, the read returns a value the byte held in the window, and every such value is the outcome of some run. -/
def Obligations.RacingReadReturnsAnyHeldValue : Prop :=
  ∀ (s : State) (p : Presented) (a : Nat) (b : Byte) (writes : List Byte), s.mem.read a = some b →
    (frameByte { s with current := some { p with racing := [] } } a = some b) ∧
    (∀ (pick : Nat) (v : Byte),
      frameByte { s with current := some { p with racing := [⟨a, writes, pick⟩] } } a = some v → v ∈ b :: writes) ∧
    (∀ v ∈ b :: writes, ∃ pick : Nat,
      frameByte { s with current := some { p with racing := [⟨a, writes, pick⟩] } } a = some v)

/-- R250: what reset leaves, for a block with any parameters. -/
def Obligations.ResetLeavesTheListedState : Prop := ∀ p : Params,
  let s := State.resetWith p
  s.init = false ∧ s.busy = false ∧ s.bright = 255 ∧ s.pin = p.defaultPin ∧ s.hvalid = false ∧ s.handle = none ∧
    s.result = 0 ∧ s.status = 0x00 ∧ s.phase = .idle ∧ s.symbuf.length = 12 * p.ledCount ∧ (∀ x ∈ s.symbuf, x = none) ∧
    s.params = p ∧ s.params.trailer = List.replicate p.resetGapLen 0 ∧ s.port = [] ∧ s.current = none ∧ s.trace = []

/-- R250, R251, R252: reset is taken only while no command is in progress.  It puts every register, `SYMBUF`, the port and the
trace at the values R250 lists, keeps the parameters, makes no adapter call and so releases nothing, and leaves alone what
is outside the block: host memory and the answers of the platform still to come. -/
def Obligations.ResetIsNotDestroy : Prop := ∀ s : State,
  (s.busy = true ∨ s.phase ≠ .idle → hardReset s = none) ∧
  (s.busy = false → s.phase = .idle → ∃ t, hardReset s = some t ∧
    t.init = false ∧ t.busy = false ∧ t.bright = 255 ∧ t.pin = s.params.defaultPin ∧ t.hvalid = false ∧ t.handle = none ∧
    t.result = 0 ∧ t.status = 0x00 ∧ t.phase = .idle ∧ t.symbuf.length = 12 * s.params.ledCount ∧
    (∀ x ∈ t.symbuf, x = none) ∧ t.params = s.params ∧ t.port = [] ∧ t.current = none ∧ t.trace = [] ∧
    (∀ a, t.mem.read a = s.mem.read a) ∧ t.answers = s.answers)

/-- R39: the state after reset meets the invariant, whatever the parameters. -/
def Obligations.ResetMeetsTheInvariant : Prop := ∀ p : Params, Inv (State.resetWith p)

/-- R39, R229: from a state of the invariant a step never stops: it answers a next state, and that state meets the
invariant.  So neither model fault is reached. -/
def Obligations.StepKeepsInvariantAndNeverFaults : Prop := ∀ s : State, Inv s → ∃ t, step s = .next t ∧ Inv t

/-- R39, R72, R183: a step returns at most one response, it is the value of `STATUS` and `RESULT` when the command ends, and it
finds the block at rest, never TRANSMITTING: PHASE is IDLE, BUSY is 0 and, from a state of the invariant, HVALID equals INIT
and every byte of `SYMBUF` is unwritten or an entry of `SYMTAB`. -/
def Obligations.OneResponsePerCommandAtRest : Prop := ∀ s t : State, step s = .next t →
  (t.responses = s.responses ∨ t.responses = s.responses ++ [⟨t.status, t.result⟩]) ∧
    (t.responses ≠ s.responses → t.phase = .idle ∧ t.busy = false ∧ t.current = none ∧ t.driverState ≠ .transmitting ∧
      (Inv s → t.hvalid = t.init ∧ symbolsOnly t.params t.symbuf))
end

