-- ==== Sys2Proof/Laws/ColorMath.lean ====
section
/-! SUPPORT. The Color Model's arithmetic as integers: no narrowing ever cuts a value (spec/40_color_model.md R102, R105, R108, R116). -/

namespace Sys2Proof.Machine

theorem byte_le (c : Byte) : c.toNat ≤ 255 := Nat.lt_succ_iff.mp c.isLt

/-- Two bytes multiply to at most 255 * 255 (R102). -/
theorem byte_mul_le (c d : Byte) : c.toNat * d.toNat ≤ 255 * 255 := Nat.mul_le_mul (byte_le c) (byte_le d)

theorem scale_toNat (c br : Byte) : (scale c br).toNat = c.toNat * br.toNat / 255 := by
  have h := byte_mul_le c br
  rw [scale, BitVec.toNat_ofNat, Nat.mod_eq_of_lt (by omega)]

@[simp] theorem scale_full (c : Byte) : scale c 255 = c := by
  apply BitVec.eq_of_toNat_eq
  rw [scale_toNat]
  exact Nat.mul_div_cancel _ (by decide)

@[simp] theorem scale_zero (c : Byte) : scale c 0 = 0 := by
  apply BitVec.eq_of_toNat_eq
  rw [scale_toNat]
  simp

@[simp] theorem scale_black (br : Byte) : scale 0 br = 0 := by
  apply BitVec.eq_of_toNat_eq
  rw [scale_toNat]
  simp

@[simp] theorem scalePixel_full (p : Pixel) : scalePixel p 255 = p := by
  simp only [scalePixel, Pixel.map, scale_full]

@[simp] theorem scalePixel_zero (p : Pixel) : scalePixel p 0 = Pixel.black := by
  simp only [scalePixel, Pixel.map, scale_zero, Pixel.black]

@[simp] theorem scalePixel_black (br : Byte) : scalePixel Pixel.black br = Pixel.black := by
  simp only [scalePixel, Pixel.map, scale_black, Pixel.black]

/-- An interpolation between two bytes does not exceed 255 * 255 (R116). -/
theorem mix_numerator_le (x y m : Byte) : x.toNat * (255 - m.toNat) + y.toNat * m.toNat ≤ 255 * 255 := by
  have h1 := Nat.mul_le_mul_right (255 - m.toNat) (byte_le x)
  have h2 := Nat.mul_le_mul_right m.toNat (byte_le y)
  have h3 := byte_le m
  omega

theorem mix_toNat (x y m : Byte) : (mix x y m).toNat = (x.toNat * (255 - m.toNat) + y.toNat * m.toNat) / 255 := by
  have h := mix_numerator_le x y m
  rw [mix, BitVec.toNat_ofNat, Nat.mod_eq_of_lt (by omega)]

theorem rampUp_toNat {o : Nat} (h : o ≤ 85) : (rampUp o).toNat = o * 3 := by
  rw [rampUp, BitVec.toNat_ofNat, Nat.mod_eq_of_lt (by omega)]

theorem rampDown_toNat {o : Nat} (h : o ≤ 85) : (rampDown o).toNat = 255 - o * 3 := by
  have hu : (BitVec.ofNat 8 (o * 3)).toNat = o * 3 := rampUp_toNat h
  have h255 : (255 : Byte).toNat = 255 := rfl
  rw [rampDown, BitVec.toNat_sub_of_le (by rw [BitVec.le_def, hu, h255]; omega), hu, h255]

/-- A byte times a factor of at most 255, shifted down by eight, is a byte (R108). -/
theorem shifted_product_lt (v : Byte) {k : Nat} (h : k ≤ 255) : (v.toNat * k) >>> 8 < 256 := by
  have h1 : v.toNat * k ≤ 255 * 255 := Nat.mul_le_mul (byte_le v) h
  rw [Nat.shiftRight_eq_div_pow]
  omega

theorem hsvP_toNat (s v : Byte) : (hsvP s v).toNat = v.toNat * (255 - s.toNat) / 256 := by
  rw [hsvP, BitVec.toNat_ofNat, Nat.mod_eq_of_lt (shifted_product_lt v (Nat.sub_le _ _)), Nat.shiftRight_eq_div_pow]

theorem hsvQ_toNat (r : Nat) (s v : Byte) :
    (hsvQ r s v).toNat = v.toNat * (255 - s.toNat * r / 256) / 256 := by
  rw [hsvQ, BitVec.toNat_ofNat, Nat.mod_eq_of_lt (shifted_product_lt v (Nat.sub_le _ _)), Nat.shiftRight_eq_div_pow,
    Nat.shiftRight_eq_div_pow]

theorem hsvT_toNat (r : Nat) (s v : Byte) :
    (hsvT r s v).toNat = v.toNat * (255 - s.toNat * (255 - r) / 256) / 256 := by
  rw [hsvT, BitVec.toNat_ofNat, Nat.mod_eq_of_lt (shifted_product_lt v (Nat.sub_le _ _)), Nat.shiftRight_eq_div_pow,
    Nat.shiftRight_eq_div_pow]

end Sys2Proof.Machine
end

