-- ==== Sys2Proof/Laws/Memory.lean ====
section
/-! SUPPORT. Laws of host frame memory: a read after a store, the canonical form kept by every operation, and the set of
admitted addresses, which no host write changes. -/

namespace Sys2Proof.Machine

namespace Memory

theorem read_store_same (m : Memory) (a : Nat) (v : Byte) : (m.store a v).read a = some v := by
  induction m with
  | nil => simp [store, read]
  | cons c m ih =>
    obtain ⟨k, b⟩ := c
    by_cases h1 : a < k
    · simp [store, h1, read]
    · by_cases h2 : a = k
      · simp [store, h2, read]
      · simp [store, h1, h2, read, ih]

theorem read_store_other (m : Memory) {a a' : Nat} (v : Byte) (h : a' ≠ a) : (m.store a v).read a' = m.read a' := by
  induction m with
  | nil => simp [store, read, h]
  | cons c m ih =>
    obtain ⟨k, b⟩ := c
    by_cases h1 : a < k
    · simp [store, h1, read, h]
    · by_cases h2 : a = k
      · subst h2; simp [store, read, h]
      · by_cases h3 : a' = k
        · simp [store, h1, h2, read, h3]
        · simp [store, h1, h2, read, h3, ih]

/-- The canonical form of a list with a first entry: it lies below the second, and the rest is canonical. -/
theorem wf_cons_cons (k k' : Nat) (b b' : Byte) (m : Memory) :
    wf ((k, b) :: (k', b') :: m) = (decide (k < k') && wf ((k', b') :: m)) := rfl

theorem wf_tail {c : Host.Cell} {m : Memory} (h : wf (c :: m) = true) : wf m = true := by
  cases m with
  | nil => rfl
  | cons d m =>
    obtain ⟨k, b⟩ := c
    obtain ⟨k', b'⟩ := d
    rw [wf_cons_cons, Bool.and_eq_true] at h
    exact h.2

/-- A store below the top of the address space keeps the canonical form, and the first address is the smaller one. -/
theorem store_wf (m : Memory) {a : Nat} (v : Byte) (ha : a < 2 ^ 32) (h : m.wf = true) : (m.store a v).wf = true := by
  induction m with
  | nil => simpa [store, wf] using ha
  | cons c m ih =>
    obtain ⟨k, b⟩ := c
    have ih := ih (wf_tail h)
    by_cases h1 : a < k
    · simp only [store, h1, if_true, wf_cons_cons, decide_true, Bool.true_and]
      exact h
    · by_cases h2 : a = k
      · subst h2
        simp only [store, lt_irrefl, if_false, if_true]
        cases m with
        | nil => exact h
        | cons d m => exact h
      · have hk : k < a := by omega
        cases m with
        | nil => simpa [store, h1, h2, wf, hk] using ha
        | cons d m =>
          obtain ⟨k', b'⟩ := d
          rw [wf_cons_cons, Bool.and_eq_true, decide_eq_true_eq] at h
          simp only [store, h1, h2, if_false] at ih ⊢
          by_cases h3 : a < k'
          · simp only [h3, if_true] at ih ⊢
            simp only [wf_cons_cons, hk, decide_true, Bool.true_and] at ih ⊢
            simpa [wf_cons_cons, h3] using ih
          · by_cases h4 : a = k'
            · simp only [h4, lt_irrefl, if_false, if_true] at ih ⊢
              simp only [wf_cons_cons, h.1, decide_true, Bool.true_and]
              exact ih
            · simp only [h3, h4, if_false] at ih ⊢
              simp only [wf_cons_cons, h.1, decide_true, Bool.true_and]
              exact ih

/-- An address that a canonical memory lists is below the top of the address space. -/
theorem lt_of_read {m : Memory} (h : m.wf = true) {a : Nat} {b : Byte} (hr : m.read a = some b) : a < 2 ^ 32 := by
  induction m with
  | nil => simp [read] at hr
  | cons c m ih =>
    obtain ⟨k, b'⟩ := c
    by_cases h1 : a = k
    · subst h1
      clear hr ih
      induction m generalizing a b' with
      | nil => simpa [wf] using h
      | cons d m ih =>
        obtain ⟨k', b''⟩ := d
        rw [wf_cons_cons, Bool.and_eq_true, decide_eq_true_eq] at h
        exact lt_trans h.1 (ih _ h.2)
    · simp only [read, h1, if_false] at hr
      exact ih (wf_tail h) hr

theorem admits_iff (m : Memory) (a : Nat) : m.admits a = true ↔ ∃ b, m.read a = some b := by
  simp [admits, Option.isSome_iff_exists]

theorem hostWrite_wf (m : Memory) (a : Nat) (v : Byte) (h : m.wf = true) : (m.hostWrite a v).wf = true := by
  unfold hostWrite
  split
  · next hadm =>
    obtain ⟨b, hb⟩ := (admits_iff m a).mp hadm
    exact store_wf m v (lt_of_read h hb) h
  · exact h

/-- A host write leaves every other byte alone. -/
theorem read_hostWrite_other (m : Memory) {a a' : Nat} (v : Byte) (h : a' ≠ a) :
    (m.hostWrite a v).read a' = m.read a' := by
  unfold hostWrite
  split
  · exact read_store_other m v h
  · rfl

/-- `MEM_ADMIT` is the platform's, so a host write does not change it (R54). -/
theorem admits_hostWrite (m : Memory) (a a' : Nat) (v : Byte) : (m.hostWrite a v).admits a' = m.admits a' := by
  by_cases h : a' = a
  · subst h
    unfold hostWrite
    split
    · next hadm => rw [hadm]; simp [admits, read_store_same]
    · rfl
  · simp [admits, read_hostWrite_other m v h]

end Memory

theorem applyRacing_wf (m : Memory) (racing : List RacingByte) (h : m.wf = true) : (applyRacing m racing).wf = true := by
  induction racing generalizing m with
  | nil => exact h
  | cons r racing ih =>
    have : applyRacing m (r :: racing) =
        applyRacing (match r.writes.getLast? with | none => m | some b => m.hostWrite r.addr b) racing := rfl
    rw [this]
    apply ih
    split
    · exact h
    · exact Memory.hostWrite_wf _ _ _ h

/-- The host's racing writes leave every byte alone that they do not name (R64). -/
theorem read_applyRacing_other (m : Memory) (racing : List RacingByte) {a : Nat} (h : ∀ r ∈ racing, r.addr ≠ a) :
    (applyRacing m racing).read a = m.read a := by
  induction racing generalizing m with
  | nil => rfl
  | cons r racing ih =>
    have : applyRacing m (r :: racing) =
        applyRacing (match r.writes.getLast? with | none => m | some b => m.hostWrite r.addr b) racing := rfl
    rw [this, ih _ fun x hx => h x (List.mem_cons_of_mem _ hx)]
    split
    · rfl
    · exact Memory.read_hostWrite_other _ _ (h r List.mem_cons_self).symm

@[simp] theorem applyRacing_nil (m : Memory) : applyRacing m [] = m := rfl

/-- A frame read returns one of the values the byte held in the window (R64). -/
theorem frameByte_mem_heldValues {s : State} {a : Nat} {v : Byte} (h : frameByte s a = some v) :
    ∃ b, s.mem.read a = some b ∧ v ∈ heldValues s.racing a b := by
  unfold frameByte at h
  rw [Option.map_eq_some_iff] at h
  obtain ⟨b, hb, hv⟩ := h
  refine ⟨b, hb, ?_⟩
  have hlt : pickOf s.racing a < (heldValues s.racing a b).length := by
    unfold pickOf heldValues
    split
    · simp
    · next r _ => simpa using Nat.mod_lt r.pick (by omega : 0 < r.writes.length + 1)
  rw [← hv, List.getD_eq_getElem _ _ hlt]
  exact List.getElem_mem hlt

/-- With no racing write a frame read is a read of memory. -/
theorem frameByte_of_no_race {s : State} (a : Nat) (h : s.racing.find? (fun r => r.addr == a) = none) :
    frameByte s a = s.mem.read a := by
  unfold frameByte heldValues pickOf
  rw [h]
  cases s.mem.read a <;> rfl

/-- With no racing write to its byte a frame read is a read of memory. -/
theorem frameByte_of_not_raced {s : State} {a : Nat} (h : ∀ r ∈ s.racing, r.addr ≠ a) : frameByte s a = s.mem.read a := by
  refine frameByte_of_no_race a (List.find?_eq_none.mpr fun r hr => ?_)
  simpa using h r hr

/-- Whether a frame byte can be read is the platform's decision alone (R54). -/
theorem frameByte_isSome (s : State) (a : Nat) : (frameByte s a).isSome = s.mem.admits a := by
  unfold frameByte Memory.admits
  rw [Option.isSome_map]

end Sys2Proof.Machine
end

