-- ==== Sys2Proof/Laws/Encoder.lean ====
section
/-! SUPPORT. Laws of the Frame Encoder: lengths, what each byte of the buffer is, and when every pixel is read
(spec/41_frame_encoder.md R150 to R155). -/

namespace Sys2Proof.Machine

@[simp] theorem channelSymbols_length (p : Params) (c : Byte) : (channelSymbols p c).length = 4 := rfl

@[simp] theorem pixelSymbols_length (p : Params) (br : Byte) (px : Pixel) : (pixelSymbols p br px).length = 12 := rfl

@[simp] theorem frameSymbols_nil (p : Params) (br : Byte) : frameSymbols p br [] = [] := rfl

@[simp] theorem frameSymbols_cons (p : Params) (br : Byte) (px : Pixel) (pixels : List Pixel) :
    frameSymbols p br (px :: pixels) = pixelSymbols p br px ++ frameSymbols p br pixels := rfl

@[simp] theorem frameSymbols_length (p : Params) (br : Byte) (pixels : List Pixel) :
    (frameSymbols p br pixels).length = 12 * pixels.length := by
  induction pixels with
  | nil => rfl
  | cons px pixels ih => simp [ih]; omega

/-- Every byte the encoder makes is an entry of `SYMTAB` (R39, R152). -/
theorem mem_frameSymbols {p : Params} {br : Byte} {pixels : List Pixel} {b : Byte} (h : b ∈ frameSymbols p br pixels) :
    ∃ g : Fin 4, b = symbolByte p g := by
  simp only [frameSymbols, pixelSymbols, channelSymbols, List.mem_flatMap, List.mem_map] at h
  obtain ⟨px, -, c, -, k, -, rfl⟩ := h
  exact ⟨_, rfl⟩

/-- The symbols of a channel of value 0 are four times `SYMTAB[0]` (R155). -/
theorem channelSymbols_zero (p : Params) : channelSymbols p 0 = List.replicate 4 (symbolByte p 0) := rfl

theorem pixelSymbols_of_dark {p : Params} {br : Byte} {px : Pixel} (h : scalePixel px br = Pixel.black) :
    pixelSymbols p br px = List.replicate 12 (symbolByte p 0) := by
  rw [pixelSymbols, h]
  rfl

/-- A frame whose scaled channels are all 0 encodes to `SYMTAB[0]` throughout (R155). -/
theorem frameSymbols_of_dark {p : Params} {br : Byte} {pixels : List Pixel}
    (h : ∀ px ∈ pixels, scalePixel px br = Pixel.black) :
    frameSymbols p br pixels = List.replicate (12 * pixels.length) (symbolByte p 0) := by
  induction pixels with
  | nil => rfl
  | cons px pixels ih =>
    rw [frameSymbols_cons, pixelSymbols_of_dark (h px (by simp)), ih (fun q hq => h q (by simp [hq])),
      List.replicate_append_replicate, List.length_cons]
    congr 1
    omega

/-! ## Which pixels are read -/

theorem readPixels_length_le (s : State) (source : FrameSource) (n i : Nat) : (readPixels s source n i).length ≤ n := by
  induction n generalizing i with
  | zero => simp [readPixels]
  | succ n ih =>
    simp only [readPixels]
    split
    · simp
    · simpa using ih (i + 1)

theorem readFrame_length_le (s : State) (source : FrameSource) : (readFrame s source).length ≤ s.params.ledCount :=
  readPixels_length_le _ _ _ _

/-- Every pixel is read where every pixel of the source is there. -/
theorem readPixels_length_of_isSome {s : State} {source : FrameSource} (n i : Nat)
    (h : ∀ j, i ≤ j → j < i + n → (sourcePixel s source j).isSome = true) : (readPixels s source n i).length = n := by
  induction n generalizing i with
  | zero => rfl
  | succ n ih =>
    simp only [readPixels]
    have hi := h i (le_refl i) (by omega)
    split
    · next hnone => rw [hnone] at hi; cases hi
    · simp only [List.length_cons, ih (i + 1) (fun j h1 h2 => h j (by omega) (by omega))]

/-- Some pixel is not read where a pixel of the source is not there. -/
theorem readPixels_length_lt_of_isNone {s : State} {source : FrameSource} (n i j : Nat) (h1 : i ≤ j) (h2 : j < i + n)
    (h : sourcePixel s source j = none) : (readPixels s source n i).length < n := by
  induction n generalizing i with
  | zero => omega
  | succ n ih =>
    simp only [readPixels]
    split
    · simp
    · next px hpx =>
      have hne : i ≠ j := by
        rintro rfl
        rw [h] at hpx
        cases hpx
      simpa using ih (i + 1) (by omega) (by omega)

/-- The pixels are read in order, pixel 0 first (R153). -/
theorem readPixels_getElem? {s : State} {source : FrameSource} (n i j : Nat) (hj : j < (readPixels s source n i).length) :
    (readPixels s source n i)[j]? = sourcePixel s source (i + j) := by
  induction n generalizing i j with
  | zero => simp [readPixels] at hj
  | succ n ih =>
    simp only [readPixels] at hj ⊢
    split
    · next h => rw [h] at hj; simp at hj
    · next px h =>
      rw [h] at hj
      cases j with
      | zero => simpa using h.symm
      | succ j =>
        rw [List.getElem?_cons_succ, ih (i + 1) j (by simpa using hj), show i + 1 + j = i + (j + 1) by omega]

/-- Pixel `i` of a frame that is read is pixel `i` of its source (R153). -/
theorem readFrame_getElem? {s : State} {source : FrameSource} {i : Nat} (hi : i < (readFrame s source).length) :
    (readFrame s source)[i]? = sourcePixel s source i := by
  simpa only [readFrame, Nat.zero_add] using readPixels_getElem? _ 0 i hi

theorem memRead_three (s : State) (a : Nat) : memRead s a 3 =
    match frameByte s a, frameByte s (a + 1), frameByte s (a + 2) with
    | some x, some y, some z => some [x, y, z]
    | _, _, _ => none := by
  simp only [memRead]
  cases frameByte s a <;> cases frameByte s (a + 1) <;> cases frameByte s (a + 2) <;> rfl

/-- A pixel of a frame is there exactly where its three bytes are admitted (R51, R54). -/
theorem framePixel_isSome (s : State) (fptr : Word32) (i : Nat) : (framePixel s fptr i).isSome =
    (s.mem.admits (fptr.toNat + 3 * i) && s.mem.admits (fptr.toNat + 3 * i + 1) && s.mem.admits (fptr.toNat + 3 * i + 2)) := by
  simp only [framePixel, memRead_three, ← frameByte_isSome]
  cases frameByte s (fptr.toNat + 3 * i) <;> cases frameByte s (fptr.toNat + 3 * i + 1) <;>
    cases frameByte s (fptr.toNat + 3 * i + 2) <;> rfl

/-- A frame is read from memory and the host's racing writes, and from nothing else (R58, R64). -/
theorem readFrame_congr {s t : State} (source : FrameSource) (hm : t.mem = s.mem) (hc : t.current = s.current)
    (hp : t.params = s.params) : readFrame t source = readFrame s source := by
  have hbyte : frameByte t = frameByte s := by
    funext a
    simp only [frameByte, State.racing, hm, hc]
  have hpixel : sourcePixel t source = sourcePixel s source := by
    funext i
    cases source
    · simp only [sourcePixel, framePixel, memRead_three, hbyte]
    · rfl
  have hpixels : ∀ n i, readPixels t source n i = readPixels s source n i := by
    intro n
    induction n with
    | zero => intro i; rfl
    | succ n ih => intro i; simp only [readPixels, hpixel, ih]
  rw [readFrame, readFrame, hp, hpixels]

theorem readFrame_zeros (s : State) : readFrame s .zeros = List.replicate s.params.ledCount Pixel.black := by
  have h : ∀ n i, readPixels s .zeros n i = List.replicate n Pixel.black := by
    intro n
    induction n with
    | zero => intro i; rfl
    | succ n ih => intro i; simp [readPixels, sourcePixel, ih, List.replicate_succ]
  exact h _ _

theorem readFrame_length_of_admitted {s : State} {fptr : Word32} (h : frameAdmitted s fptr) :
    (readFrame s (.mem fptr)).length = s.params.ledCount := by
  apply readPixels_length_of_isSome
  intro j _ hj
  simp only [sourcePixel, framePixel_isSome, Bool.and_eq_true]
  refine ⟨⟨h _ (by omega), ?_⟩, ?_⟩
  · exact h (3 * j + 1) (by omega)
  · exact h (3 * j + 2) (by omega)

theorem readFrame_length_of_jobAdmitted {s : State} {job : Job} (h : jobAdmitted s job) :
    (readFrame s job.source).length = s.params.ledCount := by
  unfold jobAdmitted at h
  split at h
  · next heq => rw [heq]; exact readFrame_length_of_admitted h
  · next heq => rw [heq, readFrame_zeros, List.length_replicate]

/-- A frame byte that is not admitted leaves a pixel unread (R54). -/
theorem readFrame_length_lt_of_unadmitted {s : State} {fptr : Word32} {k : Nat} (hk : k < 3 * s.params.ledCount)
    (h : s.mem.admits (fptr.toNat + k) = false) : (readFrame s (.mem fptr)).length < s.params.ledCount := by
  apply readPixels_length_lt_of_isNone _ _ (k / 3) (Nat.zero_le _) (by omega)
  rw [sourcePixel, ← Option.not_isSome_iff_eq_none, framePixel_isSome]
  have hk3 : k = 3 * (k / 3) ∨ k = 3 * (k / 3) + 1 ∨ k = 3 * (k / 3) + 2 := by omega
  simp only [Bool.and_eq_true, not_and_or, Bool.not_eq_true]
  rcases hk3 with h3 | h3 | h3 <;> rw [h3] at h
  · exact .inl (.inl h)
  · exact .inl (.inr h)
  · exact .inr h

/-! ## The buffer -/

theorem encodedBuffer_length {p : Params} {br : Byte} {pixels : List Pixel} (h : pixels.length ≤ p.ledCount) :
    (encodedBuffer p br pixels).length = p.symbufLen := by
  simp only [encodedBuffer, List.length_append, List.length_map, frameSymbols_length, List.length_replicate,
    Params.symbufLen, Config.bytesPerPixel]
  omega

theorem encodedBuffer_symbolsOnly (p : Params) (br : Byte) (pixels : List Pixel) :
    symbolsOnly p (encodedBuffer p br pixels) := by
  intro x hx
  simp only [encodedBuffer, List.mem_append, List.mem_map, List.mem_replicate] at hx
  rcases hx with ⟨b, hb, rfl⟩ | ⟨-, rfl⟩
  · obtain ⟨g, rfl⟩ := mem_frameSymbols hb
    exact .inr ⟨g, rfl⟩
  · exact .inl rfl

/-- With every pixel read the buffer is the symbols of the frame (R153). -/
theorem encodedBuffer_full {p : Params} {br : Byte} {pixels : List Pixel} (h : pixels.length = p.ledCount) :
    encodedBuffer p br pixels = (frameSymbols p br pixels).map some := by
  simp [encodedBuffer, h, Params.symbufLen]

theorem unwrittenBuffer_symbolsOnly (p : Params) : symbolsOnly p (unwrittenBuffer p) := by
  intro x hx
  exact .inl (List.mem_replicate.mp hx).2

@[simp] theorem unwrittenBuffer_length (p : Params) : (unwrittenBuffer p).length = p.symbufLen := by
  simp [unwrittenBuffer]

@[simp] theorem writtenBytes_map_some (bytes : List Byte) : writtenBytes (bytes.map some) = some bytes := by
  induction bytes with
  | nil => rfl
  | cons b bytes ih => simp [writtenBytes, ih]

@[simp] theorem darkBuffer_length (p : Params) : (darkBuffer p).length = p.symbufLen := by simp [darkBuffer]

/-- The symbols of a clearing frame at any brightness (R155, R184, R189). -/
theorem frameSymbols_clearing (s : State) (br : Byte) :
    frameSymbols s.params br (readFrame s .zeros) = darkBuffer s.params := by
  rw [readFrame_zeros, frameSymbols_of_dark (fun px h => by rw [(List.mem_replicate.mp h).2, scalePixel_black])]
  simp [darkBuffer, Params.symbufLen, Config.bytesPerPixel]

end Sys2Proof.Machine
end

