-- ==== Sys2Proof/Laws/Encoding.lean ====
section
/-! SUPPORT. Laws of a command word: packing and unpacking the fields are inverse, a bit mask is tested field by field, and the
operand packings invert their unpackings. -/

namespace Sys2Proof

/-- Which field bit a bit of a packed word is (R71). -/
theorem packFields_getLsbD (f : Fields) (i : Nat) : (packFields f).getLsbD i =
    if i < 8 then f.op.getLsbD i else if i < 16 then f.s8.getLsbD (i - 8) else if i < 32 then f.z0.getLsbD (i - 16)
    else if i < 56 then f.p24.getLsbD (i - 32) else if i < 64 then f.z1.getLsbD (i - 56) else f.x64.getLsbD (i - 64) := by
  change BitVec.getLsbD (w := 64 + 8 + 24 + 16 + 8 + 8) (f.x64 ++ f.z1 ++ f.p24 ++ f.z0 ++ f.s8 ++ f.op) i = _
  simp only [BitVec.getLsbD_append]
  split_ifs <;> first | rfl | omega

@[simp] theorem fieldsOf_packFields (f : Fields) : fieldsOf (packFields f) = f := by
  cases f
  simp only [fieldsOf, Fields.mk.injEq]
  refine ⟨?_, ?_, ?_, ?_, ?_, ?_⟩ <;> ext i hi <;>
    simp only [BitVec.getElem_extractLsb', packFields_getLsbD] <;> split_ifs <;> first | omega | simp [hi]

@[simp] theorem packFields_fieldsOf (cw : CommandWord) : packFields (fieldsOf cw) = cw := by
  ext i hi
  rw [← BitVec.getLsbD_eq_getElem, ← BitVec.getLsbD_eq_getElem, packFields_getLsbD]
  simp only [fieldsOf, BitVec.getLsbD_extractLsb']
  split_ifs with h1 h2 h3 h4 h5
  · rw [decide_eq_true h1, Bool.true_and, Nat.zero_add]
  · rw [decide_eq_true (by omega), Bool.true_and, Nat.add_sub_cancel' (by omega)]
  · rw [decide_eq_true (by omega), Bool.true_and, Nat.add_sub_cancel' (by omega)]
  · rw [decide_eq_true (by omega), Bool.true_and, Nat.add_sub_cancel' (by omega)]
  · rw [decide_eq_true (by omega), Bool.true_and, Nat.add_sub_cancel' (by omega)]
  · rw [decide_eq_true (by omega), Bool.true_and, Nat.add_sub_cancel' (by omega)]

theorem packFields_injective {f f' : Fields} (h : packFields f = packFields f') : f = f' := by
  rw [← fieldsOf_packFields f, h, fieldsOf_packFields]

/-- A masked word, field by field. -/
theorem packFields_and (f m : Fields) : packFields f &&& packFields m =
    packFields ⟨f.op &&& m.op, f.s8 &&& m.s8, f.z0 &&& m.z0, f.p24 &&& m.p24, f.z1 &&& m.z1, f.x64 &&& m.x64⟩ := by
  ext i hi
  rw [← BitVec.getLsbD_eq_getElem, ← BitVec.getLsbD_eq_getElem, BitVec.getLsbD_and]
  simp only [packFields_getLsbD]
  split_ifs <;> rw [BitVec.getLsbD_and]

/-- A mask clears a word when it clears every field of it. -/
theorem mask_eq_zero_iff (f m : Fields) : packFields f &&& packFields m = 0 ↔
    f.op &&& m.op = 0 ∧ f.s8 &&& m.s8 = 0 ∧ f.z0 &&& m.z0 = 0 ∧ f.p24 &&& m.p24 = 0 ∧ f.z1 &&& m.z1 = 0 ∧
      f.x64 &&& m.x64 = 0 := by
  have hz : (0 : CommandWord) = packFields ⟨0, 0, 0, 0, 0, 0⟩ := by decide
  rw [packFields_and, hz]
  constructor
  · intro h
    simpa using packFields_injective h
  · rintro ⟨h1, h2, h3, h4, h5, h6⟩
    rw [h1, h2, h3, h4, h5, h6]

/-- The must-be-zero fields of each format, as R82 lists them. -/
def mbzFields : Format → Fields
  | .f0 => ⟨0, 0xFF, 0xFFFF, 0xFFFFFF, 0xFF, 0xFFFFFFFFFFFFFFFF⟩
  | .fs => ⟨0, 0, 0xFFFF, 0xFFFFFF, 0xFF, 0xFFFFFFFFFFFFFFFF⟩
  | .ft => ⟨0, 0xFF, 0xFFFF, 0, 0xFF, 0xFFFFFFFFFFFFFFFF⟩
  | .fts => ⟨0, 0, 0xFFFF, 0, 0xFF, 0xFFFFFFFFFFFFFFFF⟩
  | .fp => ⟨0, 0xFF, 0xFFFF, 0, 0xFF, 0xFFFFFFFFFFFFFFFF⟩
  | .fw => ⟨0, 0xFF, 0xFFFF, 0xFFFFFF, 0xFF, 0xFFFFFFFF00000000⟩
  | .fpps => ⟨0, 0, 0xFFFF, 0, 0xFF, 0xFFFFFFFFFF000000⟩
  | .fpg => ⟨0, 0xFF, 0xFFFF, 0, 0xFF, 0⟩
  | .ff => ⟨0, 0xFF, 0xFFFF, 0xFFFFFF, 0xFF, 0⟩
  | .ffs => ⟨0, 0, 0xFFFF, 0xFFFFFF, 0xFF, 0⟩

theorem mbzMask_eq_packFields (fmt : Format) : mbzMask fmt = packFields (mbzFields fmt) := by
  cases fmt <;> decide

/-- The must-be-zero test of a packed word, field by field. -/
theorem and_mbzMask_eq_zero_iff (f : Fields) (fmt : Format) : packFields f &&& mbzMask fmt = 0 ↔
    f.s8 &&& (mbzFields fmt).s8 = 0 ∧ f.z0 &&& (mbzFields fmt).z0 = 0 ∧ f.p24 &&& (mbzFields fmt).p24 = 0 ∧
      f.z1 &&& (mbzFields fmt).z1 = 0 ∧ f.x64 &&& (mbzFields fmt).x64 = 0 := by
  rw [mbzMask_eq_packFields, mask_eq_zero_iff]
  have hop : (mbzFields fmt).op = 0 := by cases fmt <;> rfl
  rw [hop]
  simp

/-- Which byte's bit a bit of three bytes in a row is. -/
theorem triple_getLsbD (a b c : Byte) (i : Nat) : (a ++ b ++ c : BitVec 24).getLsbD i =
    if i < 8 then c.getLsbD i else if i < 16 then b.getLsbD (i - 8) else a.getLsbD (i - 16) := by
  simp only [BitVec.getLsbD_append]
  split_ifs <;> first | rfl | omega

@[simp] theorem tripleA_append (a b c : Byte) : tripleA (a ++ b ++ c) = a := by
  ext i hi
  simp only [tripleA, BitVec.getElem_extractLsb', triple_getLsbD]
  split_ifs <;> first | omega | simp [hi]

@[simp] theorem tripleB_append (a b c : Byte) : tripleB (a ++ b ++ c) = b := by
  ext i hi
  simp only [tripleB, BitVec.getElem_extractLsb', triple_getLsbD]
  split_ifs <;> first | omega | simp [hi]

@[simp] theorem tripleC_append (a b c : Byte) : tripleC (a ++ b ++ c) = c := by
  ext i hi
  simp only [tripleC, BitVec.getElem_extractLsb', triple_getLsbD]
  split_ifs <;> first | omega | simp [hi]

/-- The low part of two fields in a row. -/
@[simp] theorem extract_low_append (flen fptr : Word32) : (flen ++ fptr : BitVec 64).extractLsb' 0 32 = fptr := by
  ext i hi
  rw [BitVec.getElem_extractLsb']
  rw [BitVec.getLsbD_append, if_pos (by omega)]
  simp [hi]

/-- The high part of two fields in a row. -/
@[simp] theorem extract_high_append (flen fptr : Word32) : (flen ++ fptr : BitVec 64).extractLsb' 32 32 = flen := by
  ext i hi
  rw [BitVec.getElem_extractLsb']
  rw [BitVec.getLsbD_append, if_neg (by omega)]
  simp [hi]

/-- The second pixel of `BLEND` in the extended operand (R74). -/
@[simp] theorem extract_pixel_append (z : BitVec 40) (p : BitVec 24) : (z ++ p : BitVec 64).extractLsb' 0 24 = p := by
  ext i hi
  rw [BitVec.getElem_extractLsb']
  rw [BitVec.getLsbD_append, if_pos (by omega)]
  simp [hi]

/-- The bits above the second pixel's are zero, so the mask of format FPPS clears them (R82). -/
theorem and_low_pixel (p : BitVec 24) : (0#40 ++ p : BitVec 64) &&& 0xFFFFFFFFFF000000#64 = 0#64 := by
  have h : 0xFFFFFFFFFF000000#64 = ((0xFFFFFFFFFF : BitVec 40) ++ (0 : BitVec 24) : BitVec 64) := by decide
  rw [h]
  change ((0#40 ++ p : BitVec (40 + 24)) &&& ((0xFFFFFFFFFF : BitVec 40) ++ (0 : BitVec 24)) : BitVec (40 + 24)) = 0
  rw [BitVec.and_append]
  simp

/-- The bits above the hexadecimal word's are zero, so the mask of format FW clears them (R82). -/
theorem and_low_word (w : Word32) : (0#32 ++ w : BitVec 64) &&& 0xFFFFFFFF00000000#64 = 0#64 := by
  have h : 0xFFFFFFFF00000000#64 = ((0xFFFFFFFF : BitVec 32) ++ (0 : BitVec 32) : BitVec 64) := by decide
  rw [h]
  change ((0#32 ++ w : BitVec (32 + 32)) &&& ((0xFFFFFFFF : BitVec 32) ++ (0 : BitVec 32)) : BitVec (32 + 32)) = 0
  rw [BitVec.and_append]
  simp

@[simp] theorem pixelOfBits_pixelBits (p : Pixel) : pixelOfBits (pixelBits p) = p := by
  cases p
  simp only [pixelOfBits, pixelBits, Pixel.mk.injEq]
  exact ⟨tripleA_append _ _ _, tripleB_append _ _ _, tripleC_append _ _ _⟩

/-- Three bytes read from a field make the field again (R75). -/
theorem triple_eta (p : BitVec 24) : tripleA p ++ tripleB p ++ tripleC p = p := by
  ext i hi
  rw [← BitVec.getLsbD_eq_getElem, triple_getLsbD]
  simp only [tripleA, tripleB, tripleC, BitVec.getLsbD_extractLsb']
  split_ifs
  · rw [decide_eq_true (by omega), Bool.true_and, Nat.zero_add]; exact BitVec.getLsbD_eq_getElem _
  · rw [decide_eq_true (by omega), Bool.true_and, Nat.add_sub_cancel' (by omega)]; exact BitVec.getLsbD_eq_getElem _
  · rw [decide_eq_true (by omega), Bool.true_and, Nat.add_sub_cancel' (by omega)]; exact BitVec.getLsbD_eq_getElem _

theorem pixelBits_pixelOfBits (p : BitVec 24) : pixelBits (pixelOfBits p) = p := triple_eta p

/-- The length and the address read from the extended operand make it again (R78). -/
theorem frameOperand_eta (x : BitVec 64) : x.extractLsb' 32 32 ++ x.extractLsb' 0 32 = x := by
  apply BitVec.eq_of_getLsbD_eq
  intro i hi
  rw [BitVec.getLsbD_append]
  split
  · simp [*]
  · rw [BitVec.getLsbD_extractLsb', decide_eq_true (by omega), Bool.true_and, Nat.add_sub_cancel' (by omega)]

/-- An opcode's number is the opcode's (R80). -/
theorem opcodeOfByte_opcodeByte (o : Opcode) : opcodeOfByte (opcodeByte o) = some o := by cases o <;> rfl

/-- No opcode has two numbers (R80). -/
theorem eq_opcodeByte_of_opcodeOfByte {b : BitVec 8} {o : Opcode} (h : opcodeOfByte b = some o) : b = opcodeByte o := by
  have hall : ∀ b : BitVec 8, ((opcodeOfByte b).all fun o => b == opcodeByte o) = true := by decide +kernel
  have hb := hall b
  rw [h] at hb
  simpa using hb

end Sys2Proof
end

