-- ==== Sys2Proof/Laws/GammaPow.lean ====
section
/-! SUPPORT. The arithmetic of GAMMA_POW is exact: the comparison of integers is the comparison of real numbers (spec/40_color_model.md
R121), the logarithms enclose what they stand for so that they never change its answer, the search finds the value
rounded half up, and a platform's value is within 1 of it. -/

namespace Sys2Proof.Machine

/-! ## The comparison as it stands -/

/-- A comparison of two powers of fractions, as a comparison of integers. -/
theorem frac_pow_le_iff (p q c a b : Nat) (hb : 0 < b) :
    ((a : ℝ) / (255 * b)) ^ q ≤ ((c : ℝ) / 255) ^ p ↔ a ^ q * 255 ^ p ≤ (255 * b) ^ q * c ^ p := by
  have hb' : (0 : ℝ) < 255 * b := by positivity
  rw [div_pow, div_pow, div_le_div_iff₀ (by positivity) (by positivity)]
  rw [show ((c : ℝ) ^ p * (255 * (b : ℝ)) ^ q) = (((255 * b) ^ q * c ^ p : Nat) : ℝ) by push_cast; ring,
    show ((a : ℝ) ^ q * 255 ^ p) = ((a ^ q * 255 ^ p : Nat) : ℝ) by push_cast; ring, Nat.cast_le]

/-- The q-th power takes the root out of the exponent p/q. -/
theorem rpow_frac_pow (y : ℝ) (hy : 0 ≤ y) (p q : Nat) (hq : 0 < q) : (y ^ ((p : ℝ) / q)) ^ q = y ^ p := by
  rw [← Real.rpow_natCast (y ^ ((p : ℝ) / q)) q, ← Real.rpow_mul hy, div_mul_cancel₀ _ (by positivity), Real.rpow_natCast]

theorem powAtLeastExact_iff (p q c a b : Nat) (hq : 0 < q) (hb : 0 < b) :
    powAtLeastExact p q c a b = true ↔ (a : ℝ) / b ≤ 255 * ((c : ℝ) / 255) ^ ((p : ℝ) / q) := by
  have hy : (0 : ℝ) ≤ (c : ℝ) / 255 := by positivity
  have hb' : (0 : ℝ) < b := by exact_mod_cast hb
  rw [powAtLeastExact, decide_eq_true_eq, ← frac_pow_le_iff p q c a b hb, ← rpow_frac_pow _ hy p q hq,
    pow_le_pow_iff_left₀ (by positivity) (Real.rpow_nonneg hy _) hq.ne']
  rw [div_le_iff₀ (by positivity), div_le_iff₀ hb']
  constructor <;> intro h <;> linarith

theorem powAtMostExact_iff (p q c a b : Nat) (hq : 0 < q) (hb : 0 < b) :
    powAtMostExact p q c a b = true ↔ 255 * ((c : ℝ) / 255) ^ ((p : ℝ) / q) ≤ (a : ℝ) / b := by
  have hy : (0 : ℝ) ≤ (c : ℝ) / 255 := by positivity
  have hb' : (0 : ℝ) < b := by exact_mod_cast hb
  have hkey : ((c : ℝ) / 255) ^ p ≤ ((a : ℝ) / (255 * b)) ^ q ↔ (255 * b) ^ q * c ^ p ≤ a ^ q * 255 ^ p := by
    rw [div_pow, div_pow, div_le_div_iff₀ (by positivity) (by positivity)]
    rw [show ((c : ℝ) ^ p * (255 * (b : ℝ)) ^ q) = (((255 * b) ^ q * c ^ p : Nat) : ℝ) by push_cast; ring,
      show ((a : ℝ) ^ q * 255 ^ p) = ((a ^ q * 255 ^ p : Nat) : ℝ) by push_cast; ring, Nat.cast_le]
  rw [powAtMostExact, decide_eq_true_eq, ← hkey, ← rpow_frac_pow _ hy p q hq,
    pow_le_pow_iff_left₀ (Real.rpow_nonneg hy _) (by positivity) hq.ne']
  rw [le_div_iff₀ (by positivity), le_div_iff₀ hb']
  constructor <;> intro h <;> linarith

/-! ## The logarithms -/

theorem logScale_pos : 0 < logScale := by decide

/-- The digits from below: two to the number they make is at most the power they measure. -/
theorem two_pow_logBelow_le (n : Nat) : ∀ (l d : Nat) (v : ℝ), logScale ≤ l → (l : ℝ) / logScale * 2 ^ d ≤ v →
    (2 : ℝ) ^ logBelow n l d ≤ v ^ 2 ^ n := by
  have hS : (0 : ℝ) < (logScale : ℝ) := by exact_mod_cast logScale_pos
  induction n with
  | zero =>
    intro l d v hl hv
    have h1 : (1 : ℝ) ≤ (l : ℝ) / logScale := by rw [le_div_iff₀ hS, one_mul]; exact_mod_cast hl
    have h2 : (0 : ℝ) < 2 ^ d := by positivity
    simp only [logBelow, pow_zero, pow_one]
    nlinarith
  | succ n ih =>
    intro l d v hl hv
    have hs : ((l * l / logScale : Nat) : ℝ) / logScale ≤ ((l : ℝ) / logScale) ^ 2 := by
      rw [div_pow, sq, sq, div_le_div_iff₀ hS (by positivity)]
      have : ((l * l / logScale : Nat) : ℝ) * logScale ≤ (l : ℝ) * l := by exact_mod_cast Nat.div_mul_le_self (l * l) logScale
      nlinarith
    have hlow : logScale ≤ l * l / logScale := by
      rw [Nat.le_div_iff_mul_le logScale_pos]; exact Nat.mul_le_mul hl hl
    have hnn : (0 : ℝ) ≤ (l : ℝ) / logScale * 2 ^ d := by positivity
    have hv2 : ((l : ℝ) / logScale) ^ 2 * 2 ^ (2 * d) ≤ v ^ 2 := by
      rw [pow_mul', ← mul_pow]; exact pow_le_pow_left₀ hnn hv 2
    have hsv : ((l * l / logScale : Nat) : ℝ) / logScale * 2 ^ (2 * d) ≤ v ^ 2 :=
      le_trans (mul_le_mul_of_nonneg_right hs (by positivity)) hv2
    simp only [logBelow]
    rw [show v ^ 2 ^ (n + 1) = (v ^ 2) ^ 2 ^ n by rw [← pow_mul]; congr 1; ring]
    split_ifs with h
    · exact ih _ _ _ hlow hsv
    · refine ih _ _ _ (by omega) (le_trans ?_ hsv)
      have h2 : ((l * l / logScale / 2 : Nat) : ℝ) * 2 ≤ ((l * l / logScale : Nat) : ℝ) := by
        exact_mod_cast Nat.div_mul_le_self (l * l / logScale) 2
      rw [pow_succ, div_mul_eq_mul_div, div_mul_eq_mul_div]
      apply div_le_div_of_nonneg_right _ hS.le
      have : (0 : ℝ) < 2 ^ (2 * d) := by positivity
      nlinarith

/-- A mantissa of at most 2, squared and rounded up, stays below 4 and one unit. -/
theorem square_ceil_lt {S u : Nat} (hS : 0 < S) (hu : u ≤ 2 * S) : u * u + (S - 1) < (4 * S).succ * S := by
  have h : u * u ≤ 2 * S * (2 * S) := Nat.mul_le_mul hu hu
  have h2 : (4 * S).succ * S = 2 * S * (2 * S) + S := by rw [Nat.succ_mul]; ring
  omega

/-- The digits from above: two to the number they make is at least the power they measure. -/
theorem le_two_pow_logAbove (n : Nat) : ∀ (u d : Nat) (v : ℝ), 0 ≤ v → u ≤ 2 * logScale →
    v ≤ (u : ℝ) / logScale * 2 ^ d → v ^ 2 ^ n ≤ (2 : ℝ) ^ logAbove n u d := by
  have hS : (0 : ℝ) < (logScale : ℝ) := by exact_mod_cast logScale_pos
  induction n with
  | zero =>
    intro u d v h0 hu hv
    have h2 : (0 : ℝ) < 2 ^ d := by positivity
    simp only [logAbove, pow_zero, pow_one]
    split_ifs with h
    · have h1 : (u : ℝ) / logScale ≤ 1 := by rw [div_le_iff₀ hS, one_mul]; exact_mod_cast h
      nlinarith
    · have h1 : (u : ℝ) / logScale ≤ 2 := by rw [div_le_iff₀ hS]; exact_mod_cast hu
      rw [pow_succ]
      nlinarith
  | succ n ih =>
    intro u d v h0 hu hv
    have hceil : u * u ≤ (u * u + (logScale - 1)) / logScale * logScale := by
      have h1 := Nat.div_add_mod (u * u + (logScale - 1)) logScale
      have h2 := Nat.mod_lt (u * u + (logScale - 1)) logScale_pos
      rw [mul_comm logScale] at h1
      have h3 := logScale_pos
      omega
    have hs : ((u : ℝ) / logScale) ^ 2 ≤ (((u * u + (logScale - 1)) / logScale : Nat) : ℝ) / logScale := by
      rw [div_pow, sq, sq, div_le_div_iff₀ (by positivity) hS]
      have : (u : ℝ) * u ≤ (((u * u + (logScale - 1)) / logScale : Nat) : ℝ) * logScale := by exact_mod_cast hceil
      nlinarith
    have hhigh : (u * u + (logScale - 1)) / logScale ≤ 4 * logScale := by
      apply Nat.lt_succ_iff.mp
      rw [Nat.div_lt_iff_lt_mul logScale_pos]
      exact square_ceil_lt logScale_pos hu
    have hv2 : v ^ 2 ≤ ((u : ℝ) / logScale) ^ 2 * 2 ^ (2 * d) := by
      rw [pow_mul' (2 : ℝ), ← mul_pow]; exact pow_le_pow_left₀ h0 hv 2
    have hsv : v ^ 2 ≤ (((u * u + (logScale - 1)) / logScale : Nat) : ℝ) / logScale * 2 ^ (2 * d) :=
      le_trans hv2 (mul_le_mul_of_nonneg_right hs (by positivity))
    simp only [logAbove]
    rw [show v ^ 2 ^ (n + 1) = (v ^ 2) ^ 2 ^ n by rw [← pow_mul]; congr 1; ring]
    split_ifs with h
    · exact ih _ _ _ (by positivity) h hsv
    · refine ih _ _ _ (by positivity) (by omega) (le_trans hsv ?_)
      have h2 : (((u * u + (logScale - 1)) / logScale : Nat) : ℝ) ≤
          ((((u * u + (logScale - 1)) / logScale + 1) / 2 : Nat) : ℝ) * 2 := by
        exact_mod_cast (by omega : (u * u + (logScale - 1)) / logScale ≤ ((u * u + (logScale - 1)) / logScale + 1) / 2 * 2)
      rw [pow_succ, div_mul_eq_mul_div, div_mul_eq_mul_div]
      apply div_le_div_of_nonneg_right _ hS.le
      have : (0 : ℝ) < 2 ^ (2 * d) := by positivity
      nlinarith

/-- The binary logarithm of the whole part bounds a ratio on both sides. -/
theorem ratio_log2_bounds {x y : Nat} (hy : 0 < y) (hxy : y ≤ x) :
    y * 2 ^ Nat.log2 (x / y) ≤ x ∧ x < 2 * (y * 2 ^ Nat.log2 (x / y)) := by
  have hne : x / y ≠ 0 := (Nat.div_pos hxy hy).ne'
  have h1 : 2 ^ Nat.log2 (x / y) ≤ x / y := Nat.log2_self_le hne
  have h2 : x / y < 2 ^ (Nat.log2 (x / y) + 1) := Nat.lt_log2_self
  constructor
  · exact le_trans (Nat.mul_le_mul_left y h1) (Nat.mul_div_le x y)
  · rw [Nat.div_lt_iff_lt_mul hy, pow_succ] at h2
    linarith

theorem two_pow_logRatioBelow_le {x y : Nat} (hy : 0 < y) (hxy : y ≤ x) :
    (2 : ℝ) ^ logRatioBelow x y ≤ ((x : ℝ) / y) ^ 2 ^ logDigits := by
  have hS : (0 : ℝ) < (logScale : ℝ) := by exact_mod_cast logScale_pos
  have hy' : (0 : ℝ) < y := by exact_mod_cast hy
  obtain ⟨h1, -⟩ := ratio_log2_bounds hy hxy
  have hD : 0 < y * 2 ^ Nat.log2 (x / y) := by positivity
  refine two_pow_logBelow_le _ _ _ _ ?_ ?_
  · rw [Nat.le_div_iff_mul_le hD, mul_comm]
    exact Nat.mul_le_mul_right _ h1
  · have h3 : ((x * logScale / (y * 2 ^ Nat.log2 (x / y)) : Nat) : ℝ) * (y * 2 ^ Nat.log2 (x / y)) ≤ x * logScale := by
      exact_mod_cast Nat.div_mul_le_self (x * logScale) (y * 2 ^ Nat.log2 (x / y))
    rw [div_mul_eq_mul_div, div_le_div_iff₀ hS hy']
    linarith

theorem le_two_pow_logRatioAbove {x y : Nat} (hy : 0 < y) (hxy : y ≤ x) :
    ((x : ℝ) / y) ^ 2 ^ logDigits ≤ (2 : ℝ) ^ logRatioAbove x y := by
  have hS : (0 : ℝ) < (logScale : ℝ) := by exact_mod_cast logScale_pos
  have hy' : (0 : ℝ) < y := by exact_mod_cast hy
  obtain ⟨-, h2⟩ := ratio_log2_bounds hy hxy
  have hD : 0 < y * 2 ^ Nat.log2 (x / y) := by positivity
  have hS' := logScale_pos
  refine le_two_pow_logAbove _ _ _ _ (by positivity) ?_ ?_
  · apply Nat.lt_succ_iff.mp
    rw [Nat.div_lt_iff_lt_mul hD]
    nlinarith [Nat.sub_lt hD Nat.one_pos]
  · have h3 : x * logScale ≤ (x * logScale + (y * 2 ^ Nat.log2 (x / y) - 1)) / (y * 2 ^ Nat.log2 (x / y)) *
        (y * 2 ^ Nat.log2 (x / y)) := by
      have h4 := Nat.div_add_mod (x * logScale + (y * 2 ^ Nat.log2 (x / y) - 1)) (y * 2 ^ Nat.log2 (x / y))
      have h5 := Nat.mod_lt (x * logScale + (y * 2 ^ Nat.log2 (x / y) - 1)) hD
      rw [mul_comm (y * 2 ^ Nat.log2 (x / y))] at h4
      omega
    have h4 : (x : ℝ) * logScale ≤ (((x * logScale + (y * 2 ^ Nat.log2 (x / y) - 1)) / (y * 2 ^ Nat.log2 (x / y)) : Nat) : ℝ) *
        (y * 2 ^ Nat.log2 (x / y)) := by exact_mod_cast h3
    rw [div_mul_eq_mul_div, div_le_div_iff₀ hy' hS]
    linarith

/-- The two sides as powers of the ratios whose logarithms are taken. -/
theorem powAtLeastExact_iff_ratios (p q c a b : Nat) (hc : 0 < c) (ha : 0 < a) :
    powAtLeastExact p q c a b = true ↔ ((255 : ℝ) / c) ^ p ≤ ((255 * b : Nat) / (a : ℝ)) ^ q := by
  have hc' : (0 : ℝ) < c := by exact_mod_cast hc
  have ha' : (0 : ℝ) < a := by exact_mod_cast ha
  rw [powAtLeastExact, decide_eq_true_eq, div_pow, div_pow, div_le_div_iff₀ (by positivity) (by positivity)]
  rw [show ((255 : ℝ) ^ p * (a : ℝ) ^ q) = ((a ^ q * 255 ^ p : Nat) : ℝ) by push_cast; ring,
    show (((255 * b : Nat) : ℝ) ^ q * (c : ℝ) ^ p) = (((255 * b) ^ q * c ^ p : Nat) : ℝ) by push_cast; ring, Nat.cast_le]

/-- When the enclosures decide, they decide as the comparison does. -/
theorem powAtLeastByLogs_sound {p q c a b : Nat} {r : Bool} (hc : 0 < c) (hc' : c ≤ 255) (ha : 0 < a) (hb : 0 < b)
    (hab : a ≤ 255 * b) (h : powAtLeastByLogs p q c a b = some r) : powAtLeastExact p q c a b = r := by
  have hA := two_pow_logRatioBelow_le hc hc'
  have hA' := le_two_pow_logRatioAbove hc hc'
  have hB := two_pow_logRatioBelow_le ha hab
  have hB' := le_two_pow_logRatioAbove ha hab
  have hn : 2 ^ logDigits ≠ 0 := by positivity
  have hApos : (0 : ℝ) ≤ (255 : ℝ) / c := by positivity
  have hBpos : (0 : ℝ) ≤ ((255 * b : Nat) : ℝ) / a := by positivity
  have swap : ∀ (x : ℝ) (k : Nat), (x ^ k) ^ 2 ^ logDigits = (x ^ 2 ^ logDigits) ^ k := fun x k => by
    rw [← pow_mul, ← pow_mul, mul_comm]
  rw [Nat.cast_ofNat] at hA hA'
  unfold powAtLeastByLogs at h
  split_ifs at h with h1 h2
  · cases h
    rw [powAtLeastExact_iff_ratios p q c a b hc ha, ← pow_le_pow_iff_left₀ (by positivity) (by positivity) hn,
      swap, swap]
    calc (((255 : ℝ) / c) ^ 2 ^ logDigits) ^ p ≤ ((2 : ℝ) ^ logRatioAbove 255 c) ^ p := pow_le_pow_left₀ (by positivity) hA' p
      _ = (2 : ℝ) ^ (p * logRatioAbove 255 c) := by rw [← pow_mul, mul_comm]
      _ ≤ (2 : ℝ) ^ (q * logRatioBelow (255 * b) a) := pow_le_pow_right₀ one_le_two h1
      _ = ((2 : ℝ) ^ logRatioBelow (255 * b) a) ^ q := by rw [← pow_mul, mul_comm]
      _ ≤ _ := pow_le_pow_left₀ (by positivity) hB q
  · cases h
    rw [← Bool.not_eq_true, powAtLeastExact_iff_ratios p q c a b hc ha, not_le,
      ← pow_lt_pow_iff_left₀ (by positivity) (by positivity) hn, swap, swap]
    calc ((((255 * b : Nat) : ℝ) / a) ^ 2 ^ logDigits) ^ q ≤ ((2 : ℝ) ^ logRatioAbove (255 * b) a) ^ q :=
          pow_le_pow_left₀ (by positivity) hB' q
      _ = (2 : ℝ) ^ (q * logRatioAbove (255 * b) a) := by rw [← pow_mul, mul_comm]
      _ < (2 : ℝ) ^ (p * logRatioBelow 255 c) := pow_lt_pow_right₀ one_lt_two h2
      _ = ((2 : ℝ) ^ logRatioBelow 255 c) ^ p := by rw [← pow_mul, mul_comm]
      _ ≤ _ := pow_le_pow_left₀ (by positivity) hA p

/-- The evaluation never changes the comparison. -/
theorem powAtLeast_eq_exact {p q c a b : Nat} (hp : 0 < p) (hq : 0 < q) (hb : 0 < b) (hc : c ≤ 255) :
    powAtLeast p q c a b = powAtLeastExact p q c a b := by
  unfold powAtLeast
  split_ifs with h1 h2 h3 h4
  · subst h1
    symm
    simp [powAtLeastExact, Nat.zero_pow hq]
  · subst h2
    symm
    rw [powAtLeastExact, decide_eq_false_iff_not, Nat.zero_pow hp, mul_zero, not_le]
    have : 0 < a := Nat.pos_of_ne_zero h1
    positivity
  · symm
    rw [powAtLeastExact, decide_eq_false_iff_not, not_le]
    exact Nat.mul_lt_mul_of_lt_of_le (Nat.pow_lt_pow_left h3 hq.ne') (Nat.pow_le_pow_left hc p) (by positivity)
  · rfl
  · split
    · next r hr =>
      exact (powAtLeastByLogs_sound (Nat.pos_of_ne_zero h2) hc (Nat.pos_of_ne_zero h1) hb (not_lt.mp h3) hr).symm
    · rfl

/-! ## Rounding -/

/-- The search finds the last place of a predicate that holds at its start and, once false, stays false. -/
theorem roundSearch_spec (p q c : Nat) (P : Nat → Prop)
    (hP : ∀ k, powAtLeast p q c (2 * (k + 1) - 1) 2 = true ↔ P (k + 1)) (hanti : ∀ i j, i ≤ j → P j → P i) :
    ∀ n r, P r → P (roundSearch p q c n r) ∧ r ≤ roundSearch p q c n r ∧ roundSearch p q c n r < r + 2 ^ n ∧
      (roundSearch p q c n r + 1 < r + 2 ^ n → ¬ P (roundSearch p q c n r + 1)) := by
  intro n
  induction n with
  | zero => intro r hr; exact ⟨hr, le_refl r, by simp [roundSearch], by simp [roundSearch]⟩
  | succ n ih =>
    intro r hr
    have hpos : 0 < 2 ^ n := by positivity
    have hstep : powAtLeast p q c (2 * (r + 2 ^ n) - 1) 2 = true ↔ P (r + 2 ^ n) := by
      obtain ⟨k, hk⟩ : ∃ k, r + 2 ^ n = k + 1 := ⟨r + 2 ^ n - 1, by omega⟩
      rw [hk]; exact hP k
    rw [pow_succ]
    simp only [roundSearch]
    split_ifs with h
    · obtain ⟨h1, h2, h3, h4⟩ := ih (r + 2 ^ n) (hstep.mp h)
      exact ⟨h1, by omega, by omega, fun h5 => h4 (by omega)⟩
    · obtain ⟨h1, h2, h3, h4⟩ := ih r hr
      refine ⟨h1, h2, by omega, fun h5 h6 => ?_⟩
      by_cases h7 : roundSearch p q c n r + 1 < r + 2 ^ n
      · exact h4 h7 h6
      · exact h (hstep.mpr (hanti _ _ (by omega) h6))

/-- The corrected channel as a real number lies in [0, 255] (R121). -/
theorem corrected_bounds (c : Nat) (hc : c ≤ 255) (e : ℝ) (he : 0 ≤ e) :
    0 ≤ 255 * ((c : ℝ) / 255) ^ e ∧ 255 * ((c : ℝ) / 255) ^ e ≤ 255 := by
  have h0 : (0 : ℝ) ≤ (c : ℝ) / 255 := by positivity
  have h1 : (c : ℝ) / 255 ≤ 1 := by rw [div_le_one (by norm_num)]; exact_mod_cast hc
  have h2 := Real.rpow_nonneg h0 e
  have h3 := Real.rpow_le_one h0 h1 he
  constructor <;> linarith

/-- GAMMA_POW on a fraction is the exact value rounded half up (R11, R121). -/
theorem roundedPow_eq_floor {p q c : Nat} (hp : 0 < p) (hq : 0 < q) (hc : c ≤ 255) :
    roundedPow p q c = ⌊255 * ((c : ℝ) / 255) ^ ((p : ℝ) / q) + 1 / 2⌋₊ := by
  set v : ℝ := 255 * ((c : ℝ) / 255) ^ ((p : ℝ) / q) with hv
  obtain ⟨hv0, hv255⟩ := corrected_bounds c hc ((p : ℝ) / q) (by positivity)
  rw [← hv] at hv0 hv255
  obtain ⟨h1, -, h3, h4⟩ := roundSearch_spec p q c (fun k => (k : ℝ) ≤ v + 1 / 2)
    (fun k => by
      rw [powAtLeast_eq_exact hp hq two_pos hc, powAtLeastExact_iff p q c _ 2 hq two_pos, ← hv,
        show 2 * (k + 1) - 1 = 2 * k + 1 by omega]
      push_cast
      constructor <;> intro h <;> linarith)
    (fun i j hij hj => le_trans (by exact_mod_cast hij) hj) 8 0 (by simp only [Nat.cast_zero]; linarith)
  change roundSearch p q c 8 0 = _
  symm
  rw [Nat.floor_eq_iff (by linarith)]
  refine ⟨h1, ?_⟩
  by_cases h5 : roundSearch p q c 8 0 + 1 < 0 + 2 ^ 8
  · have := h4 h5
    rw [not_le] at this
    exact_mod_cast this
  · have h6 : roundSearch p q c 8 0 = 255 := by omega
    rw [h6]
    push_cast
    linarith

theorem roundedPow_le (p q c : Nat) : roundedPow p q c ≤ 255 := by
  have h : ∀ n r, roundSearch p q c n r < r + 2 ^ n := by
    intro n
    induction n with
    | zero => intro r; simp [roundSearch]
    | succ n ih =>
      intro r
      simp only [roundSearch]
      split_ifs
      · have := ih (r + 2 ^ n); omega
      · have h1 := ih r
        have h2 : 0 < 2 ^ n := by positivity
        omega
  have := h 8 0
  unfold roundedPow
  omega

/-! ## The gamma operand -/

theorem gammaDen_pos (pattern : Word64) : 0 < gammaDen pattern := by
  unfold gammaDen
  split_ifs <;> positivity

theorem gammaNum_pos {pattern : Word64} (h : gammaInDomain pattern = true) : 0 < gammaNum pattern := by
  simp only [gammaInDomain, Bool.and_eq_true, Bool.not_eq_true', Bool.and_eq_false_iff, decide_eq_false_iff_not] at h
  unfold gammaNum
  split_ifs with h1
  · rcases h.2 with h2 | h2
    · exact absurd h1 h2
    · exact Nat.pos_of_ne_zero h2
  · positivity

/-- A power of two with a difference as exponent, as a fraction of two powers. -/
theorem two_zpow_sub (e k : Nat) : (2 : ℝ) ^ ((e : ℤ) - (k : ℤ)) = 2 ^ (e - k) / 2 ^ (k - e) := by
  rw [zpow_sub₀ (by norm_num : (2 : ℝ) ≠ 0), zpow_natCast, zpow_natCast,
    div_eq_div_iff (by positivity) (by positivity), ← pow_add, ← pow_add]
  congr 1
  omega

/-- The fraction is the value of the pattern (R11). -/
theorem isBinary64_iff (pattern : Word64) (x : ℝ) :
    isBinary64 pattern x ↔ x = (gammaNum pattern : ℝ) / gammaDen pattern := by
  unfold isBinary64 gammaNum gammaDen
  split_ifs with h
  · have key := two_zpow_sub 0 1074
    rw [Nat.cast_zero, zero_sub, Nat.cast_ofNat] at key
    rw [key, Nat.zero_sub, Nat.sub_zero, pow_zero, ← mul_div_assoc, mul_one, Nat.cast_pow, Nat.cast_ofNat]
  · have key := two_zpow_sub (binaryExponent pattern) 1075
    rw [Nat.cast_ofNat] at key
    rw [key, ← mul_div_assoc, Nat.cast_mul, Nat.cast_add, Nat.cast_pow, Nat.cast_pow, Nat.cast_pow, Nat.cast_ofNat]

/-- The default GAMMA_POW computes R121's formula exactly. -/
theorem gammaPowExact_toNat {pattern : Word64} (h : gammaInDomain pattern = true) (c : Byte) :
    (gammaPowExact pattern c).toNat =
      ⌊255 * ((c.toNat : ℝ) / 255) ^ ((gammaNum pattern : ℝ) / gammaDen pattern) + 1 / 2⌋₊ := by
  have hn := gammaNum_pos h
  have hd := gammaDen_pos pattern
  have hg : 0 < Nat.gcd (gammaNum pattern) (gammaDen pattern) := Nat.gcd_pos_of_pos_left _ hn
  have hp : 0 < gammaNum pattern / Nat.gcd (gammaNum pattern) (gammaDen pattern) :=
    Nat.div_pos (Nat.gcd_le_left _ hn) hg
  have hq : 0 < gammaDen pattern / Nat.gcd (gammaNum pattern) (gammaDen pattern) :=
    Nat.div_pos (Nat.gcd_le_right _ hd) hg
  have hc : c.toNat ≤ 255 := by have := c.isLt; omega
  have hle := roundedPow_le (gammaNum pattern / Nat.gcd (gammaNum pattern) (gammaDen pattern))
    (gammaDen pattern / Nat.gcd (gammaNum pattern) (gammaDen pattern)) c.toNat
  simp only [gammaPowExact]
  rw [BitVec.toNat_ofNat, Nat.mod_eq_of_lt (by omega), roundedPow_eq_floor hp hq hc]
  have hratio : ((gammaNum pattern / Nat.gcd (gammaNum pattern) (gammaDen pattern) : Nat) : ℝ) /
      ((gammaDen pattern / Nat.gcd (gammaNum pattern) (gammaDen pattern) : Nat) : ℝ) =
      (gammaNum pattern : ℝ) / gammaDen pattern := by
    rw [Nat.cast_div (Nat.gcd_dvd_left _ _) (by positivity), Nat.cast_div (Nat.gcd_dvd_right _ _) (by positivity)]
    field_simp
  rw [hratio]

/-- What it is to be an admissible value of GAMMA_POW (R121). -/
theorem mem_gammaPowAdmissible (pattern : Word64) (c : Byte) (k : Nat) :
    k ∈ gammaPowAdmissible pattern c ↔ k < 256 ∧
      |(k : ℝ) - 255 * ((c.toNat : ℝ) / 255) ^ ((gammaNum pattern : ℝ) / gammaDen pattern)| ≤ 1 := by
  have hd := gammaDen_pos pattern
  have hc : c.toNat ≤ 255 := by have := c.isLt; omega
  obtain ⟨h0, -⟩ := corrected_bounds c.toNat hc ((gammaNum pattern : ℝ) / gammaDen pattern)
    (div_nonneg (Nat.cast_nonneg _) (Nat.cast_nonneg _))
  rw [gammaPowAdmissible, List.mem_filter, List.mem_range, Bool.and_eq_true,
    powAtLeastExact_iff _ _ _ _ 1 hd one_pos, powAtMostExact_iff _ _ _ _ 1 hd one_pos, abs_le]
  refine and_congr_right fun _ => ?_
  push_cast
  simp only [div_one]
  rcases Nat.eq_zero_or_pos k with rfl | hk
  · simp only [Nat.zero_sub, Nat.cast_zero]
    constructor
    · rintro ⟨h1, h2⟩; constructor <;> linarith
    · rintro ⟨h1, h2⟩; constructor <;> linarith
  · rw [Nat.cast_sub hk]
    push_cast
    constructor
    · rintro ⟨h1, h2⟩; constructor <;> linarith
    · rintro ⟨h1, h2⟩; constructor <;> linarith

theorem gammaPowAdmissible_ne_nil (pattern : Word64) (c : Byte) : gammaPowAdmissible pattern c ≠ [] := by
  have hc : c.toNat ≤ 255 := by have := c.isLt; omega
  obtain ⟨h0, h1⟩ := corrected_bounds c.toNat hc ((gammaNum pattern : ℝ) / gammaDen pattern)
    (div_nonneg (Nat.cast_nonneg _) (Nat.cast_nonneg _))
  apply List.ne_nil_of_mem (a := ⌊255 * ((c.toNat : ℝ) / 255) ^ ((gammaNum pattern : ℝ) / gammaDen pattern)⌋₊)
  rw [mem_gammaPowAdmissible]
  have h2 := Nat.floor_le h0
  have h3 := Nat.lt_floor_add_one (255 * ((c.toNat : ℝ) / 255) ^ ((gammaNum pattern : ℝ) / gammaDen pattern))
  constructor
  · have h4 : ((⌊255 * ((c.toNat : ℝ) / 255) ^ ((gammaNum pattern : ℝ) / gammaDen pattern)⌋₊ : Nat) : ℝ) ≤ 255 :=
      le_trans h2 h1
    have h5 : ⌊255 * ((c.toNat : ℝ) / 255) ^ ((gammaNum pattern : ℝ) / gammaDen pattern)⌋₊ ≤ 255 := by exact_mod_cast h4
    omega
  · rw [abs_le]
    constructor <;> linarith

/-- A platform's GAMMA_POW is within 1 of the exact value, whichever platform it is (R121). -/
theorem gammaPowPlatform_within_one (pattern : Word64) (c : Byte) :
    |((gammaPowPlatform pattern c).toNat : ℝ) -
      255 * ((c.toNat : ℝ) / 255) ^ ((gammaNum pattern : ℝ) / gammaDen pattern)| ≤ 1 := by
  have hpos : 0 < (gammaPowAdmissible pattern c).length :=
    List.length_pos_of_ne_nil (gammaPowAdmissible_ne_nil pattern c)
  have hmem : (gammaPowAdmissible pattern c).getD (Config.gammaPick pattern c % (gammaPowAdmissible pattern c).length) 0 ∈
      gammaPowAdmissible pattern c := by
    rw [List.getD_eq_getElem _ _ (Nat.mod_lt _ hpos)]
    exact List.getElem_mem _
  obtain ⟨h1, h2⟩ := (mem_gammaPowAdmissible _ _ _).mp hmem
  simp only [gammaPowPlatform]
  rw [BitVec.toNat_ofNat, Nat.mod_eq_of_lt (by omega)]
  exact h2

end Sys2Proof.Machine
end

