-- ==== Sys2Proof/Laws/PerInstr.lean ====
section
/-! SUPPORT. Laws that hold of every command, one lemma per constructor: its word carries its opcode (spec/30_encoding.md R80), and
its word has no bit of its format's must-be-zero mask (R82). -/

namespace Sys2Proof.Laws

/-- The word of a command carries the command's opcode (R71, R80). -/
def OpcodeField.Statement (i : Instr) : Prop := (fieldsOf (encode i)).op = opcodeByte i.opcode

/-- The word of a command is clear where its format must be zero (R82). -/
def MustBeZero.Statement (i : Instr) : Prop := encode i &&& mbzMask (opcodeFormat i.opcode) = 0

theorem OpcodeField.mkpix (r g b : Byte) : OpcodeField.Statement (.mkpix r g b) := by
  simp [OpcodeField.Statement, encode, encodeFields, opcodeByte, Instr.opcode]

theorem OpcodeField.mkpixb (r g b br : Byte) : OpcodeField.Statement (.mkpixb r g b br) := by
  simp [OpcodeField.Statement, encode, encodeFields, opcodeByte, Instr.opcode]

theorem OpcodeField.wheel (h : Byte) : OpcodeField.Statement (.wheel h) := by
  simp [OpcodeField.Statement, encode, encodeFields, opcodeByte, Instr.opcode]

theorem OpcodeField.hsv (h s v : Byte) : OpcodeField.Statement (.hsv h s v) := by
  simp [OpcodeField.Statement, encode, encodeFields, opcodeByte, Instr.opcode]

theorem OpcodeField.hue (a : Pixel) : OpcodeField.Statement (.hue a) := by
  simp [OpcodeField.Statement, encode, encodeFields, opcodeByte, Instr.opcode]

theorem OpcodeField.hexv (a : Pixel) : OpcodeField.Statement (.hexv a) := by
  simp [OpcodeField.Statement, encode, encodeFields, opcodeByte, Instr.opcode]

theorem OpcodeField.fromhex (w : Word32) : OpcodeField.Statement (.fromhex w) := by
  simp [OpcodeField.Statement, encode, encodeFields, opcodeByte, Instr.opcode]

theorem OpcodeField.blend (a b : Pixel) (amount : Byte) : OpcodeField.Statement (.blend a b amount) := by
  simp [OpcodeField.Statement, encode, encodeFields, opcodeByte, Instr.opcode]

theorem OpcodeField.gamma (a : Pixel) (pattern : Word64) : OpcodeField.Statement (.gamma a pattern) := by
  simp [OpcodeField.Statement, encode, encodeFields, opcodeByte, Instr.opcode]

theorem OpcodeField.init : OpcodeField.Statement .init := by
  simp [OpcodeField.Statement, encode, encodeFields, opcodeByte, Instr.opcode]

theorem OpcodeField.initpin (pin : Byte) : OpcodeField.Statement (.initpin pin) := by
  simp [OpcodeField.Statement, encode, encodeFields, opcodeByte, Instr.opcode]

theorem OpcodeField.update (fptr flen : Word32) : OpcodeField.Statement (.update fptr flen) := by
  simp [OpcodeField.Statement, encode, encodeFields, opcodeByte, Instr.opcode]

theorem OpcodeField.updateb (fptr flen : Word32) (br : Byte) : OpcodeField.Statement (.updateb fptr flen br) := by
  simp [OpcodeField.Statement, encode, encodeFields, opcodeByte, Instr.opcode]

theorem OpcodeField.clear : OpcodeField.Statement .clear := by
  simp [OpcodeField.Statement, encode, encodeFields, opcodeByte, Instr.opcode]

theorem OpcodeField.destroy : OpcodeField.Statement .destroy := by
  simp [OpcodeField.Statement, encode, encodeFields, opcodeByte, Instr.opcode]

theorem OpcodeField.isinit : OpcodeField.Statement .isinit := by
  simp [OpcodeField.Statement, encode, encodeFields, opcodeByte, Instr.opcode]

theorem OpcodeField.setbr (b : Byte) : OpcodeField.Statement (.setbr b) := by
  simp [OpcodeField.Statement, encode, encodeFields, opcodeByte, Instr.opcode]

theorem OpcodeField.getbr : OpcodeField.Statement .getbr := by
  simp [OpcodeField.Statement, encode, encodeFields, opcodeByte, Instr.opcode]

theorem MustBeZero.mkpix (r g b : Byte) : MustBeZero.Statement (.mkpix r g b) := by
  refine (and_mbzMask_eq_zero_iff _ _).mpr ?_
  simp [encodeFields, mbzFields, opcodeFormat, Instr.opcode]

theorem MustBeZero.mkpixb (r g b br : Byte) : MustBeZero.Statement (.mkpixb r g b br) := by
  refine (and_mbzMask_eq_zero_iff _ _).mpr ?_
  simp [encodeFields, mbzFields, opcodeFormat, Instr.opcode]

theorem MustBeZero.wheel (h : Byte) : MustBeZero.Statement (.wheel h) := by
  refine (and_mbzMask_eq_zero_iff _ _).mpr ?_
  simp [encodeFields, mbzFields, opcodeFormat, Instr.opcode]

theorem MustBeZero.hsv (h s v : Byte) : MustBeZero.Statement (.hsv h s v) := by
  refine (and_mbzMask_eq_zero_iff _ _).mpr ?_
  simp [encodeFields, mbzFields, opcodeFormat, Instr.opcode]

theorem MustBeZero.hue (a : Pixel) : MustBeZero.Statement (.hue a) := by
  refine (and_mbzMask_eq_zero_iff _ _).mpr ?_
  simp [encodeFields, mbzFields, opcodeFormat, Instr.opcode]

theorem MustBeZero.hexv (a : Pixel) : MustBeZero.Statement (.hexv a) := by
  refine (and_mbzMask_eq_zero_iff _ _).mpr ?_
  simp [encodeFields, mbzFields, opcodeFormat, Instr.opcode]

theorem MustBeZero.fromhex (w : Word32) : MustBeZero.Statement (.fromhex w) := by
  refine (and_mbzMask_eq_zero_iff _ _).mpr ?_
  simp [encodeFields, mbzFields, opcodeFormat, Instr.opcode, and_low_word]

theorem MustBeZero.blend (a b : Pixel) (amount : Byte) : MustBeZero.Statement (.blend a b amount) := by
  refine (and_mbzMask_eq_zero_iff _ _).mpr ?_
  simp [encodeFields, mbzFields, opcodeFormat, Instr.opcode, and_low_pixel]

theorem MustBeZero.gamma (a : Pixel) (pattern : Word64) : MustBeZero.Statement (.gamma a pattern) := by
  refine (and_mbzMask_eq_zero_iff _ _).mpr ?_
  simp [encodeFields, mbzFields, opcodeFormat, Instr.opcode]

theorem MustBeZero.init : MustBeZero.Statement .init := by
  refine (and_mbzMask_eq_zero_iff _ _).mpr ?_
  simp [encodeFields, mbzFields, opcodeFormat, Instr.opcode]

theorem MustBeZero.initpin (pin : Byte) : MustBeZero.Statement (.initpin pin) := by
  refine (and_mbzMask_eq_zero_iff _ _).mpr ?_
  simp [encodeFields, mbzFields, opcodeFormat, Instr.opcode]

theorem MustBeZero.update (fptr flen : Word32) : MustBeZero.Statement (.update fptr flen) := by
  refine (and_mbzMask_eq_zero_iff _ _).mpr ?_
  simp [encodeFields, mbzFields, opcodeFormat, Instr.opcode]

theorem MustBeZero.updateb (fptr flen : Word32) (br : Byte) : MustBeZero.Statement (.updateb fptr flen br) := by
  refine (and_mbzMask_eq_zero_iff _ _).mpr ?_
  simp [encodeFields, mbzFields, opcodeFormat, Instr.opcode]

theorem MustBeZero.clear : MustBeZero.Statement .clear := by
  refine (and_mbzMask_eq_zero_iff _ _).mpr ?_
  simp [encodeFields, mbzFields, opcodeFormat, Instr.opcode]

theorem MustBeZero.destroy : MustBeZero.Statement .destroy := by
  refine (and_mbzMask_eq_zero_iff _ _).mpr ?_
  simp [encodeFields, mbzFields, opcodeFormat, Instr.opcode]

theorem MustBeZero.isinit : MustBeZero.Statement .isinit := by
  refine (and_mbzMask_eq_zero_iff _ _).mpr ?_
  simp [encodeFields, mbzFields, opcodeFormat, Instr.opcode]

theorem MustBeZero.setbr (b : Byte) : MustBeZero.Statement (.setbr b) := by
  refine (and_mbzMask_eq_zero_iff _ _).mpr ?_
  simp [encodeFields, mbzFields, opcodeFormat, Instr.opcode]

theorem MustBeZero.getbr : MustBeZero.Statement .getbr := by
  refine (and_mbzMask_eq_zero_iff _ _).mpr ?_
  simp [encodeFields, mbzFields, opcodeFormat, Instr.opcode]

end Sys2Proof.Laws
end

