-- ==== Sys2Proof/Laws/State.lean ====
section
/-! SUPPORT. What each shared update of the state does to each field, true by definition. -/

namespace Sys2Proof.Machine

/-! ## `finish` -/

@[simp] theorem finish_params (c : Status) (v : Word32) (s : State) : (finish c v s).params = s.params := rfl
@[simp] theorem finish_init (c : Status) (v : Word32) (s : State) : (finish c v s).init = s.init := rfl
@[simp] theorem finish_busy (c : Status) (v : Word32) (s : State) : (finish c v s).busy = s.busy := rfl
@[simp] theorem finish_bright (c : Status) (v : Word32) (s : State) : (finish c v s).bright = s.bright := rfl
@[simp] theorem finish_pin (c : Status) (v : Word32) (s : State) : (finish c v s).pin = s.pin := rfl
@[simp] theorem finish_handle (c : Status) (v : Word32) (s : State) : (finish c v s).handle = s.handle := rfl
@[simp] theorem finish_result (c : Status) (v : Word32) (s : State) : (finish c v s).result = v := rfl
@[simp] theorem finish_status (c : Status) (v : Word32) (s : State) : (finish c v s).status = c.code := rfl
@[simp] theorem finish_phase (c : Status) (v : Word32) (s : State) : (finish c v s).phase = s.phase := rfl
@[simp] theorem finish_symbuf (c : Status) (v : Word32) (s : State) : (finish c v s).symbuf = s.symbuf := rfl
@[simp] theorem finish_mem (c : Status) (v : Word32) (s : State) : (finish c v s).mem = s.mem := rfl
@[simp] theorem finish_current (c : Status) (v : Word32) (s : State) : (finish c v s).current = s.current := rfl
@[simp] theorem finish_port (c : Status) (v : Word32) (s : State) : (finish c v s).port = s.port := rfl
@[simp] theorem finish_responses (c : Status) (v : Word32) (s : State) : (finish c v s).responses = s.responses := rfl
@[simp] theorem finish_trace (c : Status) (v : Word32) (s : State) : (finish c v s).trace = s.trace := rfl
@[simp] theorem finish_answers (c : Status) (v : Word32) (s : State) : (finish c v s).answers = s.answers := rfl

/-! ## `raise` -/

@[simp] theorem raise_params (e : Status) (s : State) : (raise e s).params = s.params := rfl
@[simp] theorem raise_init (e : Status) (s : State) : (raise e s).init = s.init := rfl
@[simp] theorem raise_busy (e : Status) (s : State) : (raise e s).busy = s.busy := rfl
@[simp] theorem raise_bright (e : Status) (s : State) : (raise e s).bright = s.bright := rfl
@[simp] theorem raise_pin (e : Status) (s : State) : (raise e s).pin = s.pin := rfl
@[simp] theorem raise_handle (e : Status) (s : State) : (raise e s).handle = s.handle := rfl
@[simp] theorem raise_result (e : Status) (s : State) : (raise e s).result = 0 := rfl
@[simp] theorem raise_status (e : Status) (s : State) : (raise e s).status = e.code := rfl
@[simp] theorem raise_phase (e : Status) (s : State) : (raise e s).phase = s.phase := rfl
@[simp] theorem raise_symbuf (e : Status) (s : State) : (raise e s).symbuf = s.symbuf := rfl
@[simp] theorem raise_mem (e : Status) (s : State) : (raise e s).mem = s.mem := rfl
@[simp] theorem raise_current (e : Status) (s : State) : (raise e s).current = s.current := rfl
@[simp] theorem raise_port (e : Status) (s : State) : (raise e s).port = s.port := rfl
@[simp] theorem raise_responses (e : Status) (s : State) : (raise e s).responses = s.responses := rfl
@[simp] theorem raise_trace (e : Status) (s : State) : (raise e s).trace = s.trace := rfl
@[simp] theorem raise_answers (e : Status) (s : State) : (raise e s).answers = s.answers := rfl

/-! ## `endCommand` -/

@[simp] theorem endCommand_params (c : Status) (s : State) : (endCommand c s).params = s.params := rfl
@[simp] theorem endCommand_init (c : Status) (s : State) : (endCommand c s).init = s.init := rfl
@[simp] theorem endCommand_busy (c : Status) (s : State) : (endCommand c s).busy = false := rfl
@[simp] theorem endCommand_bright (c : Status) (s : State) : (endCommand c s).bright = s.bright := rfl
@[simp] theorem endCommand_pin (c : Status) (s : State) : (endCommand c s).pin = s.pin := rfl
@[simp] theorem endCommand_handle (c : Status) (s : State) : (endCommand c s).handle = s.handle := rfl
@[simp] theorem endCommand_result (c : Status) (s : State) : (endCommand c s).result = 0 := rfl
@[simp] theorem endCommand_status (c : Status) (s : State) : (endCommand c s).status = c.code := rfl
@[simp] theorem endCommand_phase (c : Status) (s : State) : (endCommand c s).phase = .idle := rfl
@[simp] theorem endCommand_symbuf (c : Status) (s : State) : (endCommand c s).symbuf = s.symbuf := rfl
@[simp] theorem endCommand_mem (c : Status) (s : State) : (endCommand c s).mem = s.mem := rfl
@[simp] theorem endCommand_current (c : Status) (s : State) : (endCommand c s).current = s.current := rfl
@[simp] theorem endCommand_port (c : Status) (s : State) : (endCommand c s).port = s.port := rfl
@[simp] theorem endCommand_responses (c : Status) (s : State) : (endCommand c s).responses = s.responses := rfl
@[simp] theorem endCommand_trace (c : Status) (s : State) : (endCommand c s).trace = s.trace := rfl
@[simp] theorem endCommand_answers (c : Status) (s : State) : (endCommand c s).answers = s.answers := rfl

/-! ## `record` -/

@[simp] theorem record_params (e : Event) (s : State) : (record e s).params = s.params := rfl
@[simp] theorem record_init (e : Event) (s : State) : (record e s).init = s.init := rfl
@[simp] theorem record_busy (e : Event) (s : State) : (record e s).busy = s.busy := rfl
@[simp] theorem record_bright (e : Event) (s : State) : (record e s).bright = s.bright := rfl
@[simp] theorem record_pin (e : Event) (s : State) : (record e s).pin = s.pin := rfl
@[simp] theorem record_handle (e : Event) (s : State) : (record e s).handle = s.handle := rfl
@[simp] theorem record_result (e : Event) (s : State) : (record e s).result = s.result := rfl
@[simp] theorem record_status (e : Event) (s : State) : (record e s).status = s.status := rfl
@[simp] theorem record_phase (e : Event) (s : State) : (record e s).phase = s.phase := rfl
@[simp] theorem record_symbuf (e : Event) (s : State) : (record e s).symbuf = s.symbuf := rfl
@[simp] theorem record_mem (e : Event) (s : State) : (record e s).mem = s.mem := rfl
@[simp] theorem record_current (e : Event) (s : State) : (record e s).current = s.current := rfl
@[simp] theorem record_port (e : Event) (s : State) : (record e s).port = s.port := rfl
@[simp] theorem record_responses (e : Event) (s : State) : (record e s).responses = s.responses := rfl
@[simp] theorem record_trace (e : Event) (s : State) : (record e s).trace = s.trace ++ [e] := rfl
@[simp] theorem record_answers (e : Event) (s : State) : (record e s).answers = s.answers := rfl

/-! ## `enterEncode` -/

@[simp] theorem enterEncode_params (s : State) : (enterEncode s).params = s.params := rfl
@[simp] theorem enterEncode_init (s : State) : (enterEncode s).init = s.init := rfl
@[simp] theorem enterEncode_busy (s : State) : (enterEncode s).busy = s.busy := rfl
@[simp] theorem enterEncode_bright (s : State) : (enterEncode s).bright = s.bright := rfl
@[simp] theorem enterEncode_pin (s : State) : (enterEncode s).pin = s.pin := rfl
@[simp] theorem enterEncode_handle (s : State) : (enterEncode s).handle = s.handle := rfl
@[simp] theorem enterEncode_result (s : State) : (enterEncode s).result = s.result := rfl
@[simp] theorem enterEncode_status (s : State) : (enterEncode s).status = s.status := rfl
@[simp] theorem enterEncode_phase (s : State) : (enterEncode s).phase = .encode := rfl
@[simp] theorem enterEncode_symbuf (s : State) : (enterEncode s).symbuf = unwrittenBuffer s.params := rfl
@[simp] theorem enterEncode_mem (s : State) : (enterEncode s).mem = s.mem := rfl
@[simp] theorem enterEncode_current (s : State) : (enterEncode s).current = s.current := rfl
@[simp] theorem enterEncode_port (s : State) : (enterEncode s).port = s.port := rfl
@[simp] theorem enterEncode_responses (s : State) : (enterEncode s).responses = s.responses := rfl
@[simp] theorem enterEncode_trace (s : State) : (enterEncode s).trace = s.trace := rfl
@[simp] theorem enterEncode_answers (s : State) : (enterEncode s).answers = s.answers := rfl

/-! ## `startTransmit` -/

@[simp] theorem startTransmit_params (s : State) : (startTransmit s).params = s.params := rfl
@[simp] theorem startTransmit_init (s : State) : (startTransmit s).init = s.init := rfl
@[simp] theorem startTransmit_busy (s : State) : (startTransmit s).busy = true := rfl
@[simp] theorem startTransmit_bright (s : State) : (startTransmit s).bright = s.bright := rfl
@[simp] theorem startTransmit_pin (s : State) : (startTransmit s).pin = s.pin := rfl
@[simp] theorem startTransmit_handle (s : State) : (startTransmit s).handle = s.handle := rfl
@[simp] theorem startTransmit_result (s : State) : (startTransmit s).result = s.result := rfl
@[simp] theorem startTransmit_status (s : State) : (startTransmit s).status = s.status := rfl
@[simp] theorem startTransmit_phase (s : State) : (startTransmit s).phase = .encode := rfl
@[simp] theorem startTransmit_symbuf (s : State) : (startTransmit s).symbuf = unwrittenBuffer s.params := rfl
@[simp] theorem startTransmit_mem (s : State) : (startTransmit s).mem = s.mem := rfl
@[simp] theorem startTransmit_current (s : State) : (startTransmit s).current = s.current := rfl
@[simp] theorem startTransmit_port (s : State) : (startTransmit s).port = s.port := rfl
@[simp] theorem startTransmit_responses (s : State) : (startTransmit s).responses = s.responses := rfl
@[simp] theorem startTransmit_trace (s : State) : (startTransmit s).trace = s.trace := rfl
@[simp] theorem startTransmit_answers (s : State) : (startTransmit s).answers = s.answers := rfl

/-! ## `startAcquire` -/

@[simp] theorem startAcquire_params (s : State) : (startAcquire s).params = s.params := rfl
@[simp] theorem startAcquire_init (s : State) : (startAcquire s).init = s.init := rfl
@[simp] theorem startAcquire_busy (s : State) : (startAcquire s).busy = true := rfl
@[simp] theorem startAcquire_bright (s : State) : (startAcquire s).bright = s.bright := rfl
@[simp] theorem startAcquire_pin (s : State) : (startAcquire s).pin = s.pin := rfl
@[simp] theorem startAcquire_handle (s : State) : (startAcquire s).handle = s.handle := rfl
@[simp] theorem startAcquire_result (s : State) : (startAcquire s).result = s.result := rfl
@[simp] theorem startAcquire_status (s : State) : (startAcquire s).status = s.status := rfl
@[simp] theorem startAcquire_phase (s : State) : (startAcquire s).phase = .acquire := rfl
@[simp] theorem startAcquire_symbuf (s : State) : (startAcquire s).symbuf = s.symbuf := rfl
@[simp] theorem startAcquire_mem (s : State) : (startAcquire s).mem = s.mem := rfl
@[simp] theorem startAcquire_current (s : State) : (startAcquire s).current = s.current := rfl
@[simp] theorem startAcquire_port (s : State) : (startAcquire s).port = s.port := rfl
@[simp] theorem startAcquire_responses (s : State) : (startAcquire s).responses = s.responses := rfl
@[simp] theorem startAcquire_trace (s : State) : (startAcquire s).trace = s.trace := rfl
@[simp] theorem startAcquire_answers (s : State) : (startAcquire s).answers = s.answers := rfl

/-! ## `accept` -/

@[simp] theorem accept_params (p : Presented) (rest : List Presented) (s : State) : (accept p rest s).params = s.params := rfl
@[simp] theorem accept_init (p : Presented) (rest : List Presented) (s : State) : (accept p rest s).init = s.init := rfl
@[simp] theorem accept_busy (p : Presented) (rest : List Presented) (s : State) : (accept p rest s).busy = s.busy := rfl
@[simp] theorem accept_bright (p : Presented) (rest : List Presented) (s : State) : (accept p rest s).bright = s.bright := rfl
@[simp] theorem accept_pin (p : Presented) (rest : List Presented) (s : State) : (accept p rest s).pin = s.pin := rfl
@[simp] theorem accept_handle (p : Presented) (rest : List Presented) (s : State) : (accept p rest s).handle = s.handle := rfl
@[simp] theorem accept_result (p : Presented) (rest : List Presented) (s : State) : (accept p rest s).result = s.result := rfl
@[simp] theorem accept_status (p : Presented) (rest : List Presented) (s : State) : (accept p rest s).status = s.status := rfl
@[simp] theorem accept_phase (p : Presented) (rest : List Presented) (s : State) : (accept p rest s).phase = s.phase := rfl
@[simp] theorem accept_symbuf (p : Presented) (rest : List Presented) (s : State) : (accept p rest s).symbuf = s.symbuf := rfl
@[simp] theorem accept_mem (p : Presented) (rest : List Presented) (s : State) : (accept p rest s).mem = s.mem := rfl
@[simp] theorem accept_current (p : Presented) (rest : List Presented) (s : State) : (accept p rest s).current = some p := rfl
@[simp] theorem accept_port (p : Presented) (rest : List Presented) (s : State) : (accept p rest s).port = rest := rfl
@[simp] theorem accept_responses (p : Presented) (rest : List Presented) (s : State) : (accept p rest s).responses = s.responses := rfl
@[simp] theorem accept_trace (p : Presented) (rest : List Presented) (s : State) : (accept p rest s).trace = s.trace := rfl
@[simp] theorem accept_answers (p : Presented) (rest : List Presented) (s : State) : (accept p rest s).answers = s.answers := rfl

/-! ## `respond` -/

@[simp] theorem respond_params (s : State) : (respond s).params = s.params := rfl
@[simp] theorem respond_init (s : State) : (respond s).init = s.init := rfl
@[simp] theorem respond_busy (s : State) : (respond s).busy = s.busy := rfl
@[simp] theorem respond_bright (s : State) : (respond s).bright = s.bright := rfl
@[simp] theorem respond_pin (s : State) : (respond s).pin = s.pin := rfl
@[simp] theorem respond_handle (s : State) : (respond s).handle = s.handle := rfl
@[simp] theorem respond_result (s : State) : (respond s).result = s.result := rfl
@[simp] theorem respond_status (s : State) : (respond s).status = s.status := rfl
@[simp] theorem respond_phase (s : State) : (respond s).phase = s.phase := rfl
@[simp] theorem respond_symbuf (s : State) : (respond s).symbuf = s.symbuf := rfl
@[simp] theorem respond_mem (s : State) : (respond s).mem = applyRacing s.mem s.racing := rfl
@[simp] theorem respond_current (s : State) : (respond s).current = none := rfl
@[simp] theorem respond_port (s : State) : (respond s).port = s.port := rfl
@[simp] theorem respond_responses (s : State) : (respond s).responses = s.responses ++ [⟨s.status, s.result⟩] := rfl
@[simp] theorem respond_trace (s : State) : (respond s).trace = s.trace := rfl
@[simp] theorem respond_answers (s : State) : (respond s).answers = s.answers := rfl

/-! ## `presentFirst` -/

@[simp] theorem presentFirst_params (cw : CommandWord) (s : State) : (presentFirst cw s).params = s.params := rfl
@[simp] theorem presentFirst_init (cw : CommandWord) (s : State) : (presentFirst cw s).init = s.init := rfl
@[simp] theorem presentFirst_busy (cw : CommandWord) (s : State) : (presentFirst cw s).busy = s.busy := rfl
@[simp] theorem presentFirst_bright (cw : CommandWord) (s : State) : (presentFirst cw s).bright = s.bright := rfl
@[simp] theorem presentFirst_pin (cw : CommandWord) (s : State) : (presentFirst cw s).pin = s.pin := rfl
@[simp] theorem presentFirst_handle (cw : CommandWord) (s : State) : (presentFirst cw s).handle = s.handle := rfl
@[simp] theorem presentFirst_result (cw : CommandWord) (s : State) : (presentFirst cw s).result = s.result := rfl
@[simp] theorem presentFirst_status (cw : CommandWord) (s : State) : (presentFirst cw s).status = s.status := rfl
@[simp] theorem presentFirst_phase (cw : CommandWord) (s : State) : (presentFirst cw s).phase = s.phase := rfl
@[simp] theorem presentFirst_symbuf (cw : CommandWord) (s : State) : (presentFirst cw s).symbuf = s.symbuf := rfl
@[simp] theorem presentFirst_mem (cw : CommandWord) (s : State) : (presentFirst cw s).mem = s.mem := rfl
@[simp] theorem presentFirst_current (cw : CommandWord) (s : State) : (presentFirst cw s).current = s.current := rfl
@[simp] theorem presentFirst_port (cw : CommandWord) (s : State) : (presentFirst cw s).port = ⟨cw, []⟩ :: s.port := rfl
@[simp] theorem presentFirst_responses (cw : CommandWord) (s : State) : (presentFirst cw s).responses = s.responses := rfl
@[simp] theorem presentFirst_trace (cw : CommandWord) (s : State) : (presentFirst cw s).trace = s.trace := rfl
@[simp] theorem presentFirst_answers (cw : CommandWord) (s : State) : (presentFirst cw s).answers = s.answers := rfl

/-- `HVALID` is a view of the stored handle. -/
theorem hvalid_eq (s : State) : s.hvalid = s.handle.isSome := rfl

end Sys2Proof.Machine
end

