-- ==== Sys2Proof/Laws/Serializer.lean ====
section
/-! SUPPORT. Laws of the serializer: what each move of its phase table answers, how a run of moves is taken apart, what no
move changes, and the running form of the invariant (spec/42_serializer_driver.md R170 to R181; spec/10_state.md R39). -/

namespace Sys2Proof.Machine

/-! ## A run of moves, one at a time -/

theorem runMoves_to {n : Nat} {job : Job} {s t : State} (h : serializerMove job s = .to t) :
    runMoves (n + 1) job s = runMoves n job t := by simp only [runMoves, h]

theorem runMoves_waits {n : Nat} {job : Job} {s t : State} (h : serializerMove job s = .waits t) :
    runMoves (n + 1) job s = .next t := by simp only [runMoves, h]

theorem serializerMove_idle {job : Job} {s : State} (h : s.phase = .idle) : serializerMove job s = .waits s := by
  simp only [serializerMove, h]

theorem serializerMove_encode {job : Job} {s : State} (h : s.phase = .encode) : serializerMove job s = encodeMove job s := by
  simp only [serializerMove, h]

theorem serializerMove_data {job : Job} {s : State} (h : s.phase = .data) : serializerMove job s = dataMove job s := by
  simp only [serializerMove, h]

theorem serializerMove_gap {job : Job} {s : State} (h : s.phase = .gap) :
    serializerMove job s = writeMove job s.params.trailer .settle s := by
  simp only [serializerMove, h, gapMove]

theorem serializerMove_settle {job : Job} {s : State} (h : s.phase = .settle) : serializerMove job s = settleMove job s := by
  simp only [serializerMove, h]

theorem serializerMove_release {job : Job} {s : State} (h : s.phase = .release) : serializerMove job s = releaseMove s := by
  simp only [serializerMove, h]

theorem serializerMove_acquire {pin : Byte} {s : State} (h : s.phase = .acquire) :
    serializerMove (.start pin) s = acquireMove pin s := by
  simp only [serializerMove, h]

theorem runMoves_idle (n : Nat) {job : Job} {s : State} (h : s.phase = .idle) : runMoves n job s = .next s := by
  cases n with
  | zero => rfl
  | succ n => exact runMoves_waits (serializerMove_idle h)

/-- A property that every move keeps holds where a run of moves ends. -/
theorem runMoves_induct {job : Job} {P : State → Prop} (hto : ∀ s t, P s → serializerMove job s = .to t → P t)
    (hwait : ∀ s t, P s → serializerMove job s = .waits t → P t) {n : Nat} {s t : State} (hs : P s)
    (h : runMoves n job s = .next t) : P t := by
  induction n generalizing s with
  | zero => cases h; exact hs
  | succ n ih =>
    simp only [runMoves] at h
    split at h
    · next s' hm => exact ih (hto _ _ hs hm) h
    · next s' hm => cases h; exact hwait _ _ hs hm
    · cases h

/-! ## Each move -/

theorem acquireMove_ok {pin : Byte} {s : State} {h : Handle} {as : List AcqAnswer} (ha : s.answers.acq = .ok h :: as) :
    acquireMove pin s = .to { s with
      init := true, pin := pin, handle := some h, phase := .encode, symbuf := unwrittenBuffer s.params
      trace := s.trace ++ [.acq pin s.params.sampleRateHz s.params.symbufLen (.ok h)]
      answers := { s.answers with acq := as } } := by
  simp only [acquireMove, ha]
  rfl

theorem acquireMove_err {pin : Byte} {s : State} {as : List AcqAnswer} (ha : s.answers.acq = .err :: as) :
    acquireMove pin s = .to { s with
      busy := false, phase := .idle, status := 0x01, result := 0
      trace := s.trace ++ [.acq pin s.params.sampleRateHz s.params.symbufLen .err]
      answers := { s.answers with acq := as } } := by
  simp only [acquireMove, ha]
  rfl

theorem acquireMove_unanswered {pin : Byte} {s : State} (ha : s.answers.acq = []) : acquireMove pin s = .waits s := by
  simp only [acquireMove, ha]

theorem encodeMove_whole {job : Job} {s : State} (h : (readFrame s job.source).length = s.params.ledCount) :
    encodeMove job s = .to { s with
      phase := .data
      symbuf := (frameSymbols s.params job.brightness (readFrame s job.source)).map some } := by
  simp only [encodeMove, encodeFrame, h, decide_true, encodedBuffer_full h]

theorem encodeMove_stuck {job : Job} {s : State} (h : (readFrame s job.source).length < s.params.ledCount) :
    encodeMove job s = .waits { s with symbuf := encodedBuffer s.params job.brightness (readFrame s job.source) } := by
  have hne : decide ((readFrame s job.source).length = s.params.ledCount) = false := by simpa using h.ne
  simp only [encodeMove, encodeFrame, hne]

theorem writeSucceeds_iff (w : WrAnswer) (n : Nat) : writeSucceeds w n = true ↔ w = .ok n := by
  cases w <;> simp [writeSucceeds]

theorem writeMove_ok {job : Job} {bytes : List Byte} {after : Phase} {s : State} {ws : List WrAnswer}
    (hh : s.hvalid = true) (hw : s.answers.wr = .ok bytes.length :: ws) :
    writeMove job bytes after s = .to { s with
      phase := after
      trace := s.trace ++ [.wr bytes (.ok bytes.length)]
      answers := { s.answers with wr := ws } } := by
  obtain ⟨h, hh⟩ := Option.isSome_iff_exists.mp hh
  simp only [writeMove, hh, hw, (writeSucceeds_iff _ _).mpr, if_true]
  simp only [record]

theorem writeMove_failed {job : Job} {bytes : List Byte} {after : Phase} {s : State} {w : WrAnswer} {ws : List WrAnswer}
    (hh : s.hvalid = true) (hw : s.answers.wr = w :: ws) (hne : w ≠ .ok bytes.length) :
    writeMove job bytes after s = .to (endTransmit job .peripheralError { s with
      trace := s.trace ++ [.wr bytes w]
      answers := { s.answers with wr := ws } }) := by
  obtain ⟨h, hh⟩ := Option.isSome_iff_exists.mp hh
  have hf : writeSucceeds w bytes.length = false := by
    rw [← Bool.not_eq_true, writeSucceeds_iff]
    exact hne
  simp only [writeMove, hh, hw, hf]
  rfl

theorem writeMove_unanswered {job : Job} {bytes : List Byte} {after : Phase} {s : State} (hh : s.hvalid = true)
    (hw : s.answers.wr = []) : writeMove job bytes after s = .waits s := by
  obtain ⟨h, hh⟩ := Option.isSome_iff_exists.mp hh
  simp only [writeMove, hh, hw]

theorem dataMove_written {job : Job} {s : State} {bytes : List Byte} (hb : s.symbuf = bytes.map some) :
    dataMove job s = writeMove job bytes .gap s := by
  simp only [dataMove, hb, writtenBytes_map_some]

theorem settleMove_ended {job : Job} {s : State} {excess : Nat} {ds : List Nat} (hd : s.answers.dly = excess :: ds) :
    settleMove job s = .to (endTransmit job .ok { s with
      trace := s.trace ++ [.dly s.params.settleDelayMs (s.params.settleDelayMs + excess)]
      answers := { s.answers with dly := ds } }) := by
  simp only [settleMove, hd]
  rfl

theorem settleMove_unended {job : Job} {s : State} (hd : s.answers.dly = []) : settleMove job s = .waits s := by
  simp only [settleMove, hd]

theorem releaseMove_owned {s : State} {h : Handle} (hh : s.handle = some h) :
    releaseMove s = .to { s with
      init := false, busy := false, phase := .idle, pin := s.params.defaultPin, bright := 255, handle := none
      status := 0x00, result := 0
      trace := s.trace ++ [.rel h] } := by
  simp only [releaseMove, hh]
  rfl

/-! ## A whole frame -/

/-- Three moves of a frame whose pixels are all read and whose writes are both taken: ENCODE, DATA, GAP (R175). -/
theorem runMoves_to_settle (n : Nat) {job : Job} {s : State} {bytes : List Byte} {ws : List WrAnswer}
    (hp : s.phase = .encode) (hh : s.hvalid = true) (hread : (readFrame s job.source).length = s.params.ledCount)
    (hb : bytes = frameSymbols s.params job.brightness (readFrame s job.source))
    (hw : s.answers.wr = .ok s.params.symbufLen :: .ok s.params.resetGapLen :: ws) :
    runMoves (n + 3) job s = runMoves n job { s with
      phase := .settle
      symbuf := bytes.map some
      trace := s.trace ++ [.wr bytes (.ok s.params.symbufLen), .wr s.params.trailer (.ok s.params.resetGapLen)]
      answers := { s.answers with wr := ws } } := by
  have hlen : bytes.length = s.params.symbufLen := by
    rw [hb, frameSymbols_length, hread]
    rfl
  have hgap : s.params.trailer.length = s.params.resetGapLen := by simp [Params.trailer]
  rw [show n + 3 = (n + 2) + 1 from rfl, runMoves_to ((serializerMove_encode hp).trans (encodeMove_whole hread)), ← hb]
  refine Eq.trans (runMoves_to (Eq.trans (serializerMove_data rfl) (Eq.trans (dataMove_written rfl)
    (writeMove_ok (ws := .ok s.params.resetGapLen :: ws) hh (by rw [hlen]; exact hw))))) ?_
  refine Eq.trans (runMoves_to (Eq.trans (serializerMove_gap rfl) (writeMove_ok (ws := ws) hh (by rw [hgap])))) ?_
  simp only [hgap, hlen, List.append_assoc, List.singleton_append]

/-- A frame whose pixels are all read and whose data `Wr` fails ends there (R173, R175). -/
theorem runMoves_failed_data (n : Nat) {job : Job} {s : State} {bytes : List Byte} {w : WrAnswer} {ws : List WrAnswer}
    (hp : s.phase = .encode) (hh : s.hvalid = true) (hread : (readFrame s job.source).length = s.params.ledCount)
    (hb : bytes = frameSymbols s.params job.brightness (readFrame s job.source))
    (hw : s.answers.wr = w :: ws) (hne : w ≠ .ok s.params.symbufLen) :
    runMoves (n + 2) job s = runMoves n job (endTransmit job .peripheralError { s with
      phase := .data
      symbuf := bytes.map some
      trace := s.trace ++ [.wr bytes w]
      answers := { s.answers with wr := ws } }) := by
  have hlen : bytes.length = s.params.symbufLen := by
    rw [hb, frameSymbols_length, hread]
    rfl
  rw [show n + 2 = (n + 1) + 1 from rfl, runMoves_to ((serializerMove_encode hp).trans (encodeMove_whole hread)), ← hb]
  exact runMoves_to (Eq.trans (serializerMove_data rfl) (Eq.trans (dataMove_written rfl)
    (writeMove_failed (w := w) (ws := ws) hh hw (by rw [hlen]; exact hne))))

/-- A frame whose pixels are all read, whose data `Wr` is taken and whose trailer `Wr` fails ends there (R173, R175). -/
theorem runMoves_failed_trailer (n : Nat) {job : Job} {s : State} {bytes : List Byte} {w : WrAnswer} {ws : List WrAnswer}
    (hp : s.phase = .encode) (hh : s.hvalid = true) (hread : (readFrame s job.source).length = s.params.ledCount)
    (hb : bytes = frameSymbols s.params job.brightness (readFrame s job.source))
    (hw : s.answers.wr = .ok s.params.symbufLen :: w :: ws) (hne : w ≠ .ok s.params.resetGapLen) :
    runMoves (n + 3) job s = runMoves n job (endTransmit job .peripheralError { s with
      phase := .gap
      symbuf := bytes.map some
      trace := s.trace ++ [.wr bytes (.ok s.params.symbufLen), .wr s.params.trailer w]
      answers := { s.answers with wr := ws } }) := by
  have hlen : bytes.length = s.params.symbufLen := by
    rw [hb, frameSymbols_length, hread]
    rfl
  have hgap : s.params.trailer.length = s.params.resetGapLen := by simp [Params.trailer]
  rw [show n + 3 = (n + 2) + 1 from rfl, runMoves_to ((serializerMove_encode hp).trans (encodeMove_whole hread)), ← hb]
  refine Eq.trans (runMoves_to (Eq.trans (serializerMove_data rfl) (Eq.trans (dataMove_written rfl)
    (writeMove_ok (ws := w :: ws) hh (by rw [hlen]; exact hw))))) ?_
  refine Eq.trans (runMoves_to (Eq.trans (serializerMove_gap rfl)
    (writeMove_failed (w := w) (ws := ws) hh rfl (by rw [hgap]; exact hne)))) ?_
  simp only [hlen, List.append_assoc, List.singleton_append]

/-- A whole frame, with the settle delay (R175 to R178). -/
theorem runMoves_whole_frame (n : Nat) {job : Job} {s : State} {bytes : List Byte} {x : Nat} {ws : List WrAnswer}
    {ds : List Nat} (hp : s.phase = .encode) (hh : s.hvalid = true)
    (hread : (readFrame s job.source).length = s.params.ledCount)
    (hb : bytes = frameSymbols s.params job.brightness (readFrame s job.source)) (ht : frameTaken s x ws ds) :
    runMoves (n + 4) job s = runMoves n job (endTransmit job .ok { s with
      phase := .settle
      symbuf := bytes.map some
      trace := s.trace ++ frameEvents s.params bytes x
      answers := { s.answers with wr := ws, dly := ds } }) := by
  obtain ⟨hw, hd⟩ := ht
  refine Eq.trans (runMoves_to_settle (n + 1) hp hh hread hb hw) ?_
  refine Eq.trans (runMoves_to (Eq.trans (serializerMove_settle rfl) (settleMove_ended hd))) ?_
  simp only [frameEvents, List.append_assoc, List.cons_append, List.nil_append]

end Sys2Proof.Machine
end

