-- ==== Sys2Proof/Laws/Running.lean ====
section
/-! SUPPORT. What a move of the serializer can do, said once, and what follows of every run of moves: what it leaves alone, the
invariant it keeps, and that it ends (spec/42_serializer_driver.md R171; spec/10_state.md R39). -/

namespace Sys2Proof.Machine

/-! ## Every move -/

/-- Every way one move reaches another state (R171 to R178, R190). -/
theorem move_to_cases {job : Job} {s t : State} (h : serializerMove job s = .to t) :
    (∃ pin hd as, job = .start pin ∧ s.phase = .acquire ∧ s.answers.acq = .ok hd :: as ∧ t = { s with
      init := true, pin := pin, handle := some hd, phase := .encode, symbuf := unwrittenBuffer s.params
      trace := s.trace ++ [.acq pin s.params.sampleRateHz s.params.symbufLen (.ok hd)]
      answers := { s.answers with acq := as } }) ∨
    (∃ pin as, job = .start pin ∧ s.phase = .acquire ∧ s.answers.acq = .err :: as ∧ t = { s with
      busy := false, phase := .idle, status := 0x01, result := 0
      trace := s.trace ++ [.acq pin s.params.sampleRateHz s.params.symbufLen .err]
      answers := { s.answers with acq := as } }) ∨
    (s.phase = .encode ∧ (readFrame s job.source).length = s.params.ledCount ∧ t = { s with
      phase := .data
      symbuf := (frameSymbols s.params job.brightness (readFrame s job.source)).map some }) ∨
    (∃ bytes w ws after, s.hvalid = true ∧ s.answers.wr = w :: ws ∧
      ((s.phase = .data ∧ writtenBytes s.symbuf = some bytes ∧ after = Phase.gap) ∨
        (s.phase = .gap ∧ bytes = s.params.trailer ∧ after = Phase.settle)) ∧
      ((w = .ok bytes.length ∧ t = { s with
          phase := after, trace := s.trace ++ [.wr bytes w], answers := { s.answers with wr := ws } }) ∨
        (w ≠ .ok bytes.length ∧ t = endTransmit job .peripheralError { s with
          trace := s.trace ++ [.wr bytes w], answers := { s.answers with wr := ws } }))) ∨
    (∃ x ds, s.phase = .settle ∧ s.answers.dly = x :: ds ∧ t = endTransmit job .ok { s with
      trace := s.trace ++ [.dly s.params.settleDelayMs (s.params.settleDelayMs + x)]
      answers := { s.answers with dly := ds } }) ∨
    (∃ hd, s.phase = .release ∧ s.handle = some hd ∧ t = { s with
      init := false, busy := false, phase := .idle, pin := s.params.defaultPin, bright := 255, handle := none
      status := 0x00, result := 0
      trace := s.trace ++ [.rel hd] }) := by
  have hwrite : ∀ bytes after, writeMove job bytes after s = .to t → ∃ w ws, s.hvalid = true ∧ s.answers.wr = w :: ws ∧
      ((w = .ok bytes.length ∧ t = { s with
          phase := after, trace := s.trace ++ [.wr bytes w], answers := { s.answers with wr := ws } }) ∨
        (w ≠ .ok bytes.length ∧ t = endTransmit job .peripheralError { s with
          trace := s.trace ++ [.wr bytes w], answers := { s.answers with wr := ws } })) := by
    intro bytes after h
    have hv : s.hvalid = true := by
      by_contra hv
      simp only [State.hvalid, Option.isSome_iff_ne_none, ne_eq, not_not] at hv
      simp [writeMove, hv] at h
    cases hw : s.answers.wr with
    | nil => rw [writeMove_unanswered hv hw] at h; cases h
    | cons w ws =>
      refine ⟨w, ws, hv, rfl, ?_⟩
      by_cases hok : w = .ok bytes.length
      · subst hok
        rw [writeMove_ok hv hw] at h
        cases h
        exact .inl ⟨rfl, rfl⟩
      · rw [writeMove_failed hv hw hok] at h
        cases h
        exact .inr ⟨hok, rfl⟩
  cases hp : s.phase with
  | idle => rw [serializerMove_idle hp] at h; cases h
  | acquire =>
    cases job with
    | send source br => simp [serializerMove, hp] at h
    | teardown => simp [serializerMove, hp] at h
    | start pin =>
      rw [serializerMove_acquire hp] at h
      cases ha : s.answers.acq with
      | nil => rw [acquireMove_unanswered ha] at h; cases h
      | cons a as =>
        cases a with
        | ok hd => rw [acquireMove_ok ha] at h; cases h; exact .inl ⟨pin, hd, as, rfl, rfl, rfl, rfl⟩
        | err => rw [acquireMove_err ha] at h; cases h; exact .inr (.inl ⟨pin, as, rfl, rfl, rfl, rfl⟩)
  | encode =>
    rw [serializerMove_encode hp] at h
    rcases Nat.lt_or_eq_of_le (readFrame_length_le s job.source) with hlt | heq
    · rw [encodeMove_stuck hlt] at h; cases h
    · rw [encodeMove_whole heq] at h; cases h; exact .inr (.inr (.inl ⟨rfl, heq, rfl⟩))
  | data =>
    rw [serializerMove_data hp, dataMove] at h
    split at h
    · cases h
    · next bytes hb =>
      obtain ⟨w, ws, hv, hw, hr⟩ := hwrite _ _ h
      exact .inr (.inr (.inr (.inl ⟨bytes, w, ws, _, hv, hw, .inl ⟨rfl, hb, rfl⟩, hr⟩)))
  | gap =>
    rw [serializerMove_gap hp] at h
    obtain ⟨w, ws, hv, hw, hr⟩ := hwrite _ _ h
    exact .inr (.inr (.inr (.inl ⟨_, w, ws, _, hv, hw, .inr ⟨rfl, rfl, rfl⟩, hr⟩)))
  | settle =>
    rw [serializerMove_settle hp] at h
    cases hd : s.answers.dly with
    | nil => rw [settleMove_unended hd] at h; cases h
    | cons x ds => rw [settleMove_ended hd] at h; cases h; exact .inr (.inr (.inr (.inr (.inl ⟨x, ds, rfl, rfl, rfl⟩))))
  | release =>
    rw [serializerMove_release hp] at h
    cases hh : s.handle with
    | none => simp [releaseMove, hh] at h
    | some hd => rw [releaseMove_owned hh] at h; cases h; exact .inr (.inr (.inr (.inr (.inr ⟨hd, rfl, rfl, rfl⟩))))

/-- Every way the block waits: as it stands, or in `ENCODE` at a byte that is not admitted, with the pixels before it
encoded (R54, R236). -/
theorem move_waits_cases {job : Job} {s t : State} (h : serializerMove job s = .waits t) :
    (t = s ∧ ((s.phase = .idle) ∨ (s.phase = .acquire ∧ (s.answers.acq = [] ∨ job.isStart = false)) ∨
      (s.phase = .data ∧ s.answers.wr = []) ∨ (s.phase = .gap ∧ s.answers.wr = []) ∨
      (s.phase = .settle ∧ s.answers.dly = []))) ∨
    (s.phase = .encode ∧ (readFrame s job.source).length < s.params.ledCount ∧
      t = { s with symbuf := encodedBuffer s.params job.brightness (readFrame s job.source) }) := by
  have hwrite : ∀ bytes after, writeMove job bytes after s = .waits t → t = s ∧ s.answers.wr = [] := by
    intro bytes after h
    simp only [writeMove] at h
    split at h
    · cases h
    · split at h
      · next hw => cases h; exact ⟨rfl, hw⟩
      · split at h <;> cases h
  cases hp : s.phase with
  | idle => rw [serializerMove_idle hp] at h; cases h; simp
  | acquire =>
    cases job with
    | send source br =>
      simp only [serializerMove, hp] at h
      cases h
      simp [Job.isStart]
    | teardown =>
      simp only [serializerMove, hp] at h
      cases h
      simp [Job.isStart]
    | start pin =>
      rw [serializerMove_acquire hp] at h
      cases ha : s.answers.acq with
      | nil => rw [acquireMove_unanswered ha] at h; cases h; simp
      | cons a as => cases a <;> simp [acquireMove, ha] at h
  | encode =>
    rw [serializerMove_encode hp] at h
    rcases Nat.lt_or_eq_of_le (readFrame_length_le s job.source) with hlt | heq
    · rw [encodeMove_stuck hlt] at h; cases h; exact .inr ⟨rfl, hlt, by rw [← hp]⟩
    · rw [encodeMove_whole heq] at h; cases h
  | data =>
    rw [serializerMove_data hp, dataMove] at h
    split at h
    · cases h
    · obtain ⟨rfl, hw⟩ := hwrite _ _ h
      simp [hw]
  | gap =>
    rw [serializerMove_gap hp] at h
    obtain ⟨rfl, hw⟩ := hwrite _ _ h
    simp [hw]
  | settle =>
    rw [serializerMove_settle hp] at h
    cases hd : s.answers.dly with
    | nil => rw [settleMove_unended hd] at h; cases h; simp
    | cons x ds => rw [settleMove_ended hd] at h; cases h
  | release =>
    rw [serializerMove_release hp] at h
    cases hh : s.handle with
    | none => simp [releaseMove, hh] at h
    | some hd => rw [releaseMove_owned hh] at h; cases h

/-- The two model faults need a missing handle or an unwritten byte (R229). -/
theorem move_faults_cases {job : Job} {s : State} {r : Fault} (h : serializerMove job s = .faults r) :
    ((s.phase = .data ∨ s.phase = .gap ∨ s.phase = .release) ∧ s.hvalid = false) ∨
      (s.phase = .data ∧ writtenBytes s.symbuf = none) := by
  have hwrite : ∀ bytes after, writeMove job bytes after s = .faults r → s.hvalid = false := by
    intro bytes after h
    simp only [writeMove] at h
    split at h
    · next hv => simp [State.hvalid, hv]
    · split at h
      · cases h
      · split at h <;> cases h
  cases hp : s.phase with
  | idle => rw [serializerMove_idle hp] at h; cases h
  | acquire =>
    cases job with
    | send source br => simp [serializerMove, hp] at h
    | teardown => simp [serializerMove, hp] at h
    | start pin =>
      rw [serializerMove_acquire hp, acquireMove] at h
      split at h
      · cases h
      · simp only at h
        split at h <;> cases h
  | encode =>
    rw [serializerMove_encode hp] at h
    rcases Nat.lt_or_eq_of_le (readFrame_length_le s job.source) with hlt | heq
    · rw [encodeMove_stuck hlt] at h; cases h
    · rw [encodeMove_whole heq] at h; cases h
  | data =>
    rw [serializerMove_data hp, dataMove] at h
    split at h
    · next hb => exact .inr ⟨rfl, hb⟩
    · exact .inl ⟨.inl rfl, hwrite _ _ h⟩
  | gap => rw [serializerMove_gap hp] at h; exact .inl ⟨.inr (.inl rfl), hwrite _ _ h⟩
  | settle =>
    rw [serializerMove_settle hp, settleMove] at h
    split at h <;> cases h
  | release =>
    rw [serializerMove_release hp, releaseMove] at h
    split at h
    · next hv => exact .inl ⟨.inr (.inr rfl), by simp [State.hvalid, hv]⟩
    · cases h

/-! ## What no move changes -/

/-- The parameters, host memory, the command in progress, the port and the responses are not the serializer's; its trace
only grows. -/
structure Outside (s t : State) : Prop where
  params : t.params = s.params
  mem : t.mem = s.mem
  current : t.current = s.current
  port : t.port = s.port
  responses : t.responses = s.responses
  trace : ∃ es, t.trace = s.trace ++ es

theorem Outside.refl (s : State) : Outside s s := ⟨rfl, rfl, rfl, rfl, rfl, [], (List.append_nil _).symm⟩

theorem Outside.trans {s t u : State} (h : Outside s t) (h' : Outside t u) : Outside s u := by
  obtain ⟨es, he⟩ := h.trace
  obtain ⟨es', he'⟩ := h'.trace
  exact ⟨h'.params.trans h.params, h'.mem.trans h.mem, h'.current.trans h.current, h'.port.trans h.port,
    h'.responses.trans h.responses, es ++ es', by rw [he', he, List.append_assoc]⟩

theorem endTransmit_outside (job : Job) (r : Status) (s : State) : Outside s (endTransmit job r s) := by
  cases job <;> exact ⟨rfl, rfl, rfl, rfl, rfl, [], (List.append_nil _).symm⟩

theorem move_to_outside {job : Job} {s t : State} (h : serializerMove job s = .to t) : Outside s t := by
  rcases move_to_cases h with ⟨pin, hd, as, -, -, -, rfl⟩ | ⟨pin, as, -, -, -, rfl⟩ | ⟨-, -, rfl⟩ |
    ⟨bytes, w, ws, after, -, -, -, ⟨-, rfl⟩ | ⟨-, rfl⟩⟩ | ⟨x, ds, -, -, rfl⟩ | ⟨hd, -, -, rfl⟩
  · exact ⟨rfl, rfl, rfl, rfl, rfl, _, rfl⟩
  · exact ⟨rfl, rfl, rfl, rfl, rfl, _, rfl⟩
  · exact ⟨rfl, rfl, rfl, rfl, rfl, [], (List.append_nil _).symm⟩
  · exact ⟨rfl, rfl, rfl, rfl, rfl, _, rfl⟩
  · refine Outside.trans (t := { s with trace := _, answers := _ }) ?_ (endTransmit_outside _ _ _)
    exact ⟨rfl, rfl, rfl, rfl, rfl, _, rfl⟩
  · refine Outside.trans (t := { s with trace := _, answers := _ }) ?_ (endTransmit_outside _ _ _)
    exact ⟨rfl, rfl, rfl, rfl, rfl, _, rfl⟩
  · exact ⟨rfl, rfl, rfl, rfl, rfl, _, rfl⟩

theorem move_waits_outside {job : Job} {s t : State} (h : serializerMove job s = .waits t) : Outside s t := by
  rcases move_waits_cases h with ⟨rfl, -⟩ | ⟨-, -, rfl⟩
  · exact Outside.refl _
  · exact ⟨rfl, rfl, rfl, rfl, rfl, [], (List.append_nil _).symm⟩

theorem runMoves_outside {n : Nat} {job : Job} {s t : State} (h : runMoves n job s = .next t) : Outside s t :=
  runMoves_induct (P := Outside s) (fun _ _ ho hm => ho.trans (move_to_outside hm))
    (fun _ _ ho hm => ho.trans (move_waits_outside hm)) (Outside.refl s) h

/-! ## Every run of moves ends -/

/-- How many moves a job has left from a phase, at most (R171). -/
def movesLeft (job : Job) (phase : Phase) : Nat :=
  let tail := if job = .teardown then 1 else 0
  match phase with
  | .idle => 0
  | .acquire => 5
  | .encode => 4 + tail
  | .data => 3 + tail
  | .gap => 2 + tail
  | .settle => 1 + tail
  | .release => 1

theorem movesLeft_le (job : Job) (phase : Phase) : movesLeft job phase ≤ maxMoves := by
  cases job <;> cases phase <;> simp [movesLeft, maxMoves]

theorem endTransmit_movesLeft (job : Job) (r : Status) (s : State) :
    movesLeft job (endTransmit job r s).phase < movesLeft job .settle := by
  cases job <;> simp [endTransmit, movesLeft]

theorem move_to_fewer {job : Job} {s t : State} (h : serializerMove job s = .to t) :
    movesLeft job t.phase < movesLeft job s.phase := by
  rcases move_to_cases h with ⟨pin, hd, as, rfl, hp, -, rfl⟩ | ⟨pin, as, rfl, hp, -, rfl⟩ | ⟨hp, -, rfl⟩ |
    ⟨bytes, w, ws, after, -, -, ⟨hp, -, rfl⟩ | ⟨hp, -, rfl⟩, ⟨-, rfl⟩ | ⟨-, rfl⟩⟩ | ⟨x, ds, hp, -, rfl⟩ | ⟨hd, hp, -, rfl⟩
  · simp [hp, movesLeft]
  · simp [hp, movesLeft]
  · rw [hp]; simp only [movesLeft]; omega
  · rw [hp]; simp only [movesLeft]; omega
  · rw [hp]; exact Nat.lt_trans (endTransmit_movesLeft _ _ _) (by simp only [movesLeft]; omega)
  · rw [hp]; simp only [movesLeft]; omega
  · rw [hp]; exact Nat.lt_trans (endTransmit_movesLeft _ _ _) (by simp only [movesLeft]; omega)
  · rw [hp]; exact endTransmit_movesLeft _ _ _
  · simp [hp, movesLeft]

theorem phase_idle_of_movesLeft {job : Job} {phase : Phase} (h : movesLeft job phase = 0) : phase = .idle := by
  cases phase <;> simp [movesLeft] at h ⊢

/-- A run with moves enough ends where no move is left: idle, or waiting; what every move keeps holds there. -/
theorem runMoves_stops {job : Job} {P : State → Prop} (hto : ∀ s t, P s → serializerMove job s = .to t → P t)
    {n : Nat} {s t : State} (hn : movesLeft job s.phase ≤ n) (hs : P s) (h : runMoves n job s = .next t) :
    (t.phase = .idle ∧ P t) ∨ ∃ u, P u ∧ serializerMove job u = .waits t := by
  induction n generalizing s with
  | zero =>
    cases h
    exact .inl ⟨phase_idle_of_movesLeft (Nat.le_zero.mp hn), hs⟩
  | succ n ih =>
    simp only [runMoves] at h
    split at h
    · next s' hm => exact ih (by have := move_to_fewer hm; omega) (hto _ _ hs hm) h
    · next s' hm => cases h; exact .inr ⟨s, hs, hm⟩
    · cases h

/-! ## The invariant, while a command runs -/

/-- The block in the TRANSMITTING state owns the adapter (R25, R28, R39). -/
def owns (s : State) : Prop := s.busy = true ∧ s.init = true ∧ s.hvalid = true

/-- How the registers fit the phase in the middle of a job. -/
def runningPhase (job : Job) (s : State) : Prop :=
  match s.phase with
  | .idle => s.busy = false ∧ s.hvalid = s.init
  | .acquire => s.busy = true ∧ s.init = false ∧ s.hvalid = false ∧ job.isStart = true
  | .encode => owns s
  | .data => owns s ∧ (writtenBytes s.symbuf).isSome = true
  | .gap => owns s
  | .settle => owns s
  | .release => owns s ∧ job = .teardown

/-- The invariant in the middle of a job. -/
structure Running (job : Job) (s : State) : Prop where
  memory : s.mem.wf = true
  symbufLength : s.symbuf.length = s.params.symbufLen
  symbols : symbolsOnly s.params s.symbuf
  statusLegal : s.status.toNat ≤ 6
  errorResult : s.status ≠ 0 → s.result = 0
  phase : runningPhase job s
  job : s.phase ≠ .idle → currentJob s = some job

theorem currentJob_congr {s t : State} (hc : t.current = s.current) (hp : t.params = s.params) (hb : t.bright = s.bright) :
    currentJob t = currentJob s := by
  unfold currentJob
  rw [hc]
  cases s.current with
  | none => rfl
  | some p =>
    simp only
    cases decode p.word with
    | illegal => rfl
    | legal i => cases i <;> simp only [jobOf, hp, hb]

theorem status_code_le (r : Status) : r.code.toNat ≤ 6 := by cases r <;> decide

theorem running_endTransmit {job : Job} {r : Status} {s : State} (h : Running job s) (ho : owns s)
    (hp : s.phase ≠ .idle) : Running job (endTransmit job r s) := by
  obtain ⟨hm, hl, hy, hs, he, -, hj⟩ := h
  cases job with
  | start pin => exact ⟨hm, hl, hy, status_code_le r, fun _ => rfl, ⟨rfl, ho.2.2.trans ho.2.1.symm⟩, fun hne => absurd rfl hne⟩
  | send source br =>
    exact ⟨hm, hl, hy, status_code_le r, fun _ => rfl, ⟨rfl, ho.2.2.trans ho.2.1.symm⟩, fun hne => absurd rfl hne⟩
  | teardown => exact ⟨hm, hl, hy, hs, he, ⟨ho, rfl⟩, fun _ => (currentJob_congr rfl rfl rfl).trans (hj hp)⟩

theorem symbolsOnly_map_some {p : Params} {bytes : List Byte} (h : ∀ b ∈ bytes, ∃ g : Fin 4, b = symbolByte p g) :
    symbolsOnly p (bytes.map some) := by
  intro x hx
  obtain ⟨b, hb, rfl⟩ := List.mem_map.mp hx
  obtain ⟨g, rfl⟩ := h b hb
  exact .inr ⟨g, rfl⟩

theorem running_move_to {job : Job} {s t : State} (h : Running job s) (hm : serializerMove job s = .to t) :
    Running job t := by
  have hcur := fun hp : s.phase ≠ .idle => h.job hp
  have hph := h.phase
  rcases move_to_cases hm with ⟨pin, hd, as, rfl, hp, -, rfl⟩ | ⟨pin, as, rfl, hp, -, rfl⟩ | ⟨hp, hlen, rfl⟩ |
    ⟨bytes, w, ws, after, hv, -, ⟨hp, -, rfl⟩ | ⟨hp, -, rfl⟩, ⟨-, rfl⟩ | ⟨-, rfl⟩⟩ | ⟨x, ds, hp, -, rfl⟩ | ⟨hd, hp, -, rfl⟩ <;>
    simp only [runningPhase, hp] at hph <;> have hjob := hcur (by rw [hp]; decide)
  · exact ⟨h.memory, unwrittenBuffer_length _, unwrittenBuffer_symbolsOnly _, h.statusLegal, h.errorResult,
      ⟨hph.1, rfl, rfl⟩, fun _ => (currentJob_congr rfl rfl rfl).trans hjob⟩
  · exact ⟨h.memory, h.symbufLength, h.symbols, status_code_le .initError, fun _ => rfl, ⟨rfl, hph.2.2.1.trans hph.2.1.symm⟩,
      fun hne => absurd rfl hne⟩
  · refine ⟨h.memory, ?_, symbolsOnly_map_some fun b hb => mem_frameSymbols hb, h.statusLegal, h.errorResult,
      ⟨hph, ?_⟩, fun _ => (currentJob_congr rfl rfl rfl).trans hjob⟩
    · rw [List.length_map, frameSymbols_length, hlen]
      rfl
    · rw [writtenBytes_map_some]
      rfl
  · exact ⟨h.memory, h.symbufLength, h.symbols, h.statusLegal, h.errorResult, hph.1,
      fun _ => (currentJob_congr rfl rfl rfl).trans hjob⟩
  · refine running_endTransmit ⟨h.memory, h.symbufLength, h.symbols, h.statusLegal, h.errorResult, ?_, ?_⟩ hph.1
      (by simp [hp])
    · simp only [runningPhase, hp]
      exact hph
    · exact fun _ => (currentJob_congr rfl rfl rfl).trans hjob
  · exact ⟨h.memory, h.symbufLength, h.symbols, h.statusLegal, h.errorResult, hph,
      fun _ => (currentJob_congr rfl rfl rfl).trans hjob⟩
  · refine running_endTransmit ⟨h.memory, h.symbufLength, h.symbols, h.statusLegal, h.errorResult, ?_, ?_⟩ hph
      (by simp [hp])
    · simp only [runningPhase, hp]
      exact hph
    · exact fun _ => (currentJob_congr rfl rfl rfl).trans hjob
  · refine running_endTransmit ⟨h.memory, h.symbufLength, h.symbols, h.statusLegal, h.errorResult, ?_, ?_⟩ hph
      (by simp [hp])
    · simp only [runningPhase, hp]
      exact hph
    · exact fun _ => (currentJob_congr rfl rfl rfl).trans hjob
  · exact ⟨h.memory, h.symbufLength, h.symbols, status_code_le .ok, fun _ => rfl, ⟨rfl, rfl⟩, fun hne => absurd rfl hne⟩

theorem running_move_waits {job : Job} {s t : State} (h : Running job s) (hm : serializerMove job s = .waits t) :
    Running job t ∧ t.phase ≠ .release := by
  rcases move_waits_cases hm with ⟨rfl, hp⟩ | ⟨hp, hlen, rfl⟩
  · refine ⟨h, ?_⟩
    rintro hr
    rw [hr] at hp
    simp at hp
  · have hph := h.phase
    simp only [runningPhase, hp] at hph
    refine ⟨⟨h.memory, encodedBuffer_length hlen.le, encodedBuffer_symbolsOnly _ _ _, h.statusLegal, h.errorResult, ?_,
      fun _ => (currentJob_congr rfl rfl rfl).trans (h.job (by simp [hp]))⟩, by simp [hp]⟩
    simp only [runningPhase, hp]
    exact hph

theorem running_move_no_fault {job : Job} {s : State} (h : Running job s) (r : Fault) : serializerMove job s ≠ .faults r := by
  intro hm
  have hph := h.phase
  rcases move_faults_cases hm with ⟨hp | hp | hp, hv⟩ | ⟨hp, hw⟩ <;> simp only [runningPhase, hp, owns] at hph
  · rw [hv] at hph; simp at hph
  · rw [hv] at hph; simp at hph
  · rw [hv] at hph; simp at hph
  · rw [hw] at hph; simp at hph

theorem running_runMoves_next {job : Job} (n : Nat) {s : State} (h : Running job s) : ∃ t, runMoves n job s = .next t := by
  induction n generalizing s with
  | zero => exact ⟨s, rfl⟩
  | succ n ih =>
    rcases hm : serializerMove job s with t | t | r
    · rw [runMoves_to hm]; exact ih (running_move_to h hm)
    · exact ⟨t, runMoves_waits hm⟩
    · exact absurd hm (running_move_no_fault h r)

/-- A job in a sound state runs without a fault to a sound state, in which the block is idle or waits (R229, R236). -/
theorem running_runJob {job : Job} {s : State} (h : Running job s) :
    ∃ t, runJob job s = .next t ∧ Running job t ∧ t.phase ≠ .release := by
  obtain ⟨t, ht⟩ := running_runMoves_next maxMoves h
  refine ⟨t, ht, ?_⟩
  rcases runMoves_stops (P := Running job) (fun _ _ => running_move_to) (movesLeft_le _ _) h ht with ⟨hi, hr⟩ | ⟨u, hu, hm⟩
  · exact ⟨hr, by simp [hi]⟩
  · exact running_move_waits hu hm

end Sys2Proof.Machine
end

