-- ==== Sys2Proof/Laws/Port.lean ====
section
/-! SUPPORT. Laws of the commands and the port: what no command changes, everything a step can do, that a command of a sound idle block leaves a sound block,
and how the invariant between steps and the one within a command fit (spec/10_state.md R39; spec/30_encoding.md R73). -/

namespace Sys2Proof.Machine

/-! ## What no command changes -/

theorem finish_outside (c : Status) (v : Word32) (s : State) : Outside s (finish c v s) :=
  ⟨rfl, rfl, rfl, rfl, rfl, [], (List.append_nil _).symm⟩

theorem raise_outside (e : Status) (s : State) : Outside s (raise e s) := finish_outside e 0 s

theorem startTransmit_outside (s : State) : Outside s (startTransmit s) :=
  ⟨rfl, rfl, rfl, rfl, rfl, [], (List.append_nil _).symm⟩

theorem startAcquire_outside (s : State) : Outside s (startAcquire s) :=
  ⟨rfl, rfl, rfl, rfl, rfl, [], (List.append_nil _).symm⟩

theorem runJob_outside {job : Job} {s t : State} (h : runJob job s = .next t) : Outside s t := runMoves_outside h

/-- A draw changes only the answers to come (R226). -/
theorem drawNoMemory_cases (s : State) : ∃ answers, (drawNoMemory s).2 = { s with answers := answers } := by
  unfold drawNoMemory
  split
  · split
    · exact ⟨s.answers, rfl⟩
    · exact ⟨_, rfl⟩
  · exact ⟨s.answers, rfl⟩

/-- With no failure drawn, what is left of the answers (R226). -/
theorem drawNoMemory_proceeds {s : State} (h : allocationProceeds s) :
    drawNoMemory s = (false, { s with answers := { s.answers with nomem := nomemLeft s } }) := by
  unfold drawNoMemory nomemLeft
  rcases hp : s.params.nomemPossible with _ | _
  · rfl
  · cases hn : s.answers.nomem with
    | nil =>
      simp only [if_true, List.tail_nil]
      rw [← hn]
    | cons b rest =>
      cases b
      · simp
      · simp [allocationProceeds, hp, hn] at h

/-- `INIT` and `INITPIN` on an UNINITIALIZED block with no failure drawn (R184). -/
theorem initCommon_proceeds {pin : Byte} {s : State} (hi : s.init = false) (h : allocationProceeds s) :
    initCommon pin s =
      runJob (.start pin) (startAcquire { s with answers := { s.answers with nomem := nomemLeft s } }) := by
  simp only [initCommon, hi, drawNoMemory_proceeds h]
  rfl

theorem initCommon_outside {pin : Byte} {s t : State} (h : initCommon pin s = .next t) : Outside s t := by
  unfold initCommon at h
  split at h
  · cases h; exact finish_outside _ _ _
  · obtain ⟨answers, ha⟩ := drawNoMemory_cases s
    have ho : Outside s (drawNoMemory s).2 := by
      rw [ha]
      exact ⟨rfl, rfl, rfl, rfl, rfl, [], (List.append_nil _).symm⟩
    split at h
    · next s1 hd => rw [hd] at ho; cases h; exact ho.trans (raise_outside _ _)
    · next s1 hd => rw [hd] at ho; exact ho.trans ((startAcquire_outside s1).trans (runJob_outside h))

/-- The checks of R186, as a condition on the operand. -/
theorem frameAccepted_iff (p : Params) (fptr flen : Word32) : frameAccepted p fptr flen = true ↔ frameChecked p fptr flen := by
  unfold frameAccepted frameChecked
  split_ifs with h1 h2 <;> simp_all

/-- A frame that passes the checks on a READY block is transmitted (R182, R186). -/
theorem sendFrame_checked {fptr flen : Word32} {br : Byte} {s : State} (hi : s.init = true)
    (hc : frameChecked s.params fptr flen) :
    sendFrame fptr flen br s = runJob (.send (.mem fptr) br) (startTransmit s) := by
  unfold sendFrame
  rw [if_neg (by simp [hi]), if_neg (by simp [(frameAccepted_iff _ _ _).mpr hc])]

theorem sendFrame_outside {fptr flen : Word32} {br : Byte} {s t : State} (h : sendFrame fptr flen br s = .next t) :
    Outside s t := by
  unfold sendFrame at h
  split at h
  · cases h; exact raise_outside _ _
  · split at h
    · cases h; exact raise_outside _ _
    · exact (startTransmit_outside s).trans (runJob_outside h)

/-- A Color Model command answers `finish` of some code and value (R100). -/
theorem exec_colorModel {i : Instr} (hi : isColorModel i = true) (s : State) :
    ∃ c v, exec i s = .next (finish c v s) ∧ (c ≠ .ok → v = 0) := by
  cases i with
  | gamma a pattern =>
    simp only [exec, execGamma]
    split
    · exact ⟨.invalidParameter, 0, rfl, fun _ => rfl⟩
    · exact ⟨.ok, _, rfl, fun h => absurd rfl h⟩
  | init => cases hi
  | initpin pin => cases hi
  | update fptr flen => cases hi
  | updateb fptr flen br => cases hi
  | clear => cases hi
  | destroy => cases hi
  | isinit => cases hi
  | setbr b => cases hi
  | getbr => cases hi
  | _ => exact ⟨.ok, _, rfl, fun h => absurd rfl h⟩

theorem exec_outside {i : Instr} {s t : State} (h : exec i s = .next t) : Outside s t := by
  by_cases hc : isColorModel i = true
  · obtain ⟨c, v, he, -⟩ := exec_colorModel hc s
    rw [he] at h
    cases h
    exact finish_outside _ _ _
  · cases i with
    | init => exact initCommon_outside h
    | initpin pin => exact initCommon_outside h
    | update fptr flen => exact sendFrame_outside h
    | updateb fptr flen br => exact sendFrame_outside h
    | clear =>
      simp only [exec, execClear] at h
      split at h
      · cases h; exact raise_outside _ _
      · exact (startTransmit_outside s).trans (runJob_outside h)
    | destroy =>
      simp only [exec, execDestroy] at h
      split at h
      · cases h; exact finish_outside _ _ _
      · exact (startTransmit_outside s).trans (runJob_outside h)
    | isinit => cases h; exact finish_outside _ _ _
    | setbr b => cases h; exact ⟨rfl, rfl, rfl, rfl, rfl, [], (List.append_nil _).symm⟩
    | getbr => cases h; exact finish_outside _ _ _
    | _ => exact absurd rfl hc

/-! ## A command of a sound block -/

/-- What a command may meet: a sound block, idle, with the command captured (R39, R73). -/
structure Ready (s : State) : Prop where
  memory : s.mem.wf = true
  symbufLength : s.symbuf.length = s.params.symbufLen
  symbols : symbolsOnly s.params s.symbuf
  statusLegal : s.status.toNat ≤ 6
  errorResult : s.status ≠ 0 → s.result = 0
  idle : s.phase = .idle
  notBusy : s.busy = false
  handle : s.hvalid = s.init

theorem Ready.finish {s : State} (h : Ready s) (c : Status) (v : Word32) (hv : c ≠ .ok → v = 0) :
    Ready (finish c v s) :=
  ⟨h.memory, h.symbufLength, h.symbols, status_code_le c, fun hc => hv (by rintro rfl; exact hc rfl), h.idle, h.notBusy,
    h.handle⟩

theorem Ready.answers {s : State} (h : Ready s) (answers : Answers) : Ready { s with answers := answers } :=
  ⟨h.memory, h.symbufLength, h.symbols, h.statusLegal, h.errorResult, h.idle, h.notBusy, h.handle⟩

theorem Ready.bright {s : State} (h : Ready s) (b : Byte) : Ready { s with bright := b } :=
  ⟨h.memory, h.symbufLength, h.symbols, h.statusLegal, h.errorResult, h.idle, h.notBusy, h.handle⟩

/-- A block at rest fits every job. -/
theorem Ready.running {s : State} (h : Ready s) (job : Job) : Running job s := by
  refine ⟨h.memory, h.symbufLength, h.symbols, h.statusLegal, h.errorResult, ?_, fun hne => absurd h.idle hne⟩
  simp only [runningPhase, h.idle]
  exact ⟨h.notBusy, h.handle⟩

theorem Ready.startTransmit {s : State} {job : Job} (h : Ready s) (hi : s.init = true) (hj : currentJob s = some job) :
    Running job (startTransmit s) :=
  ⟨h.memory, unwrittenBuffer_length _, unwrittenBuffer_symbolsOnly _, h.statusLegal, h.errorResult,
    ⟨rfl, hi, h.handle.trans hi⟩, fun _ => (currentJob_congr rfl rfl rfl).trans hj⟩

theorem Ready.startAcquire {s : State} {pin : Byte} (h : Ready s) (hi : s.init = false)
    (hj : currentJob s = some (.start pin)) : Running (.start pin) (startAcquire s) :=
  ⟨h.memory, h.symbufLength, h.symbols, h.statusLegal, h.errorResult, ⟨rfl, hi, h.handle.trans hi, rfl⟩,
    fun _ => (currentJob_congr rfl rfl rfl).trans hj⟩

/-- A command of a sound block ends or waits in a sound block, and never faults (R229). -/
def EndsSound (o : Result) : Prop := ∃ t job, o = .next t ∧ Running job t ∧ t.phase ≠ .release

theorem Ready.endsSound {s : State} (h : Ready s) : EndsSound (.next s) :=
  ⟨s, .teardown, rfl, h.running _, by simp [h.idle]⟩

theorem Running.endsSound {job : Job} {s : State} (h : Running job s) : EndsSound (runJob job s) := by
  obtain ⟨t, ht, hr, hp⟩ := running_runJob h
  exact ⟨t, job, ht, hr, hp⟩

theorem initCommon_endsSound {pin : Byte} {s : State} (h : Ready s) (hj : currentJob s = some (.start pin)) :
    EndsSound (initCommon pin s) := by
  unfold initCommon
  split
  · exact (h.finish _ _ fun hc => absurd rfl hc).endsSound
  · next hi =>
    obtain ⟨answers, ha⟩ := drawNoMemory_cases s
    split
    · next s1 hd =>
      rw [hd] at ha
      cases ha
      exact ((h.answers answers).finish .noMemory 0 fun _ => rfl).endsSound
    · next s1 hd =>
      rw [hd] at ha
      cases ha
      exact ((h.answers answers).startAcquire (by simpa using hi)
        ((currentJob_congr rfl rfl rfl).trans hj)).endsSound

theorem sendFrame_endsSound {fptr flen : Word32} {br : Byte} {s : State} (h : Ready s)
    (hj : currentJob s = some (.send (.mem fptr) br)) : EndsSound (sendFrame fptr flen br s) := by
  unfold sendFrame
  split
  · exact (h.finish .notInitialized 0 fun _ => rfl).endsSound
  · next hi =>
    split
    · exact (h.finish .invalidParameter 0 fun _ => rfl).endsSound
    · exact (h.startTransmit (by simpa using hi) hj).endsSound

/-- Every command of a sound block whose captured word it is. -/
theorem exec_endsSound {i : Instr} {s : State} (h : Ready s) (hj : currentJob s = jobOf i s) : EndsSound (exec i s) := by
  by_cases hc : isColorModel i = true
  · obtain ⟨c, v, he, hv⟩ := exec_colorModel hc s
    rw [he]
    exact (h.finish c v hv).endsSound
  · cases i with
    | init => exact initCommon_endsSound h hj
    | initpin pin => exact initCommon_endsSound h hj
    | update fptr flen => exact sendFrame_endsSound h hj
    | updateb fptr flen br => exact sendFrame_endsSound h hj
    | clear =>
      simp only [exec, execClear]
      split
      · exact (h.finish .notInitialized 0 fun _ => rfl).endsSound
      · next hi => exact (h.startTransmit (by simpa using hi) hj).endsSound
    | destroy =>
      simp only [exec, execDestroy]
      split
      · exact (h.finish .ok 0 fun _ => rfl).endsSound
      · next hi => exact (h.startTransmit (by simpa using hi) hj).endsSound
    | isinit => exact (h.finish .ok _ fun hc => absurd rfl hc).endsSound
    | setbr b => exact ((h.bright b).finish .ok _ fun hc => absurd rfl hc).endsSound
    | getbr => exact (h.finish .ok _ fun hc => absurd rfl hc).endsSound
    | _ => exact absurd rfl hc

/-! ## Every step -/

/-- The job of a command in progress is the one its word asks for (R184 to R190). -/
theorem jobOf_eq_some {i : Instr} {s : State} {job : Job} : jobOf i s = some job ↔ hasJob i s job := by
  cases i <;> simp [jobOf, hasJob, eq_comm]

/-- A command that did not stop has ended and has its response, or waits (R72, R73). -/
theorem settlePort_next {o : Result} {t : State} (h : settlePort o = .next t) :
    ∃ u, o = .next u ∧ ((u.accepts = true ∧ t = respond u) ∨ (u.accepts = false ∧ t = u)) := by
  unfold settlePort at h
  split at h
  · next u =>
    split at h
    · next ha => cases h; exact ⟨u, rfl, .inl ⟨ha, rfl⟩⟩
    · next ha => cases h; exact ⟨_, rfl, .inr ⟨by simpa using ha, rfl⟩⟩
  · cases h
  · cases h

/-- Every way a step reaches a next state: it makes no move; or it accepts the oldest word and performs it, or raises
ILLEGAL_COMMAND; or the command in progress goes on with its job; and a command that has ended is given its response
(R66, R72, R73, R81, R224). -/
theorem step_cases {s t : State} (h : step s = .next t) : t = s ∨
    ∃ u, ((u.accepts = true ∧ t = respond u) ∨ (u.accepts = false ∧ t = u)) ∧
      ((∃ p rest, s.accepts = true ∧ s.port = p :: rest ∧
          ((∃ i, decode p.word = .legal i ∧ exec i (accept p rest s) = .next u) ∨
            (∃ why, decode p.word = .illegal why ∧ u = raise .illegalCommand (accept p rest s)))) ∨
        ∃ p i job, s.accepts = false ∧ s.current = some p ∧ decode p.word = .legal i ∧ hasJob i s job ∧
          runJob job s = .next u) := by
  unfold step portStep at h
  split at h
  · next ha =>
    split at h
    · cases h; exact .inl rfl
    · next p rest hp =>
      obtain ⟨u, hu, ht⟩ := settlePort_next h
      refine .inr ⟨u, ht, .inl ⟨p, rest, ha, hp, ?_⟩⟩
      unfold runWord at hu
      split at hu
      · next i hd => exact .inl ⟨i, hd, hu⟩
      · next why hd => cases hu; exact .inr ⟨why, hd, rfl⟩
  · next ha =>
    have ha : s.accepts = false := by simpa using ha
    obtain ⟨u, hu, ht⟩ := settlePort_next h
    unfold resume at hu
    split at hu
    · cases hu
      rcases ht with ⟨hc, -⟩ | ⟨-, rfl⟩
      · rw [ha] at hc; cases hc
      · exact .inl rfl
    · next job hj =>
      unfold currentJob at hj
      split at hj
      · cases hj
      · next p hp =>
        split at hj
        · cases hj
        · next i hd => exact .inr ⟨u, ht, .inr ⟨p, i, job, ha, hp, hd, jobOf_eq_some.mp hj, hu⟩⟩

/-! ## Between steps -/

theorem accepts_iff (s : State) : s.accepts = true ↔ s.busy = false ∧ s.phase = .idle := by simp [State.accepts]

/-- A word of a sound block, legal or not (R81). -/
theorem runWord_endsSound {p : Presented} {s : State} (h : Ready s) (hc : s.current = some p) : EndsSound (runWord p.word s) := by
  unfold runWord
  split
  · next i hd =>
    apply exec_endsSound h
    simp only [currentJob, hc, hd]
  · exact (h.finish .illegalCommand 0 fun _ => rfl).endsSound

/-- The invariant at rest is what a command may meet, once its word is captured. -/
theorem Inv.ready {s : State} (h : Inv s) (ha : s.accepts = true) (p : Presented) (rest : List Presented) :
    Ready (accept p rest s) := by
  obtain ⟨hb, hp⟩ := (accepts_iff s).mp ha
  have hph := h.phase
  simp only [phaseFits, hp] at hph
  exact ⟨h.memory, h.symbufLength, h.symbols, h.statusLegal, h.errorResult, hp, hb, hph.2.1⟩

/-- The invariant in a waiting block is the invariant in the middle of the command in progress. -/
theorem Inv.running {s : State} (h : Inv s) (ha : s.accepts = false) : ∃ job, currentJob s = some job ∧ Running job s := by
  have hph := h.phase
  have hmk : ∀ job, currentJob s = some job → runningPhase job s → Running job s := fun job hj hr =>
    ⟨h.memory, h.symbufLength, h.symbols, h.statusLegal, h.errorResult, hr, fun _ => hj⟩
  have htr : transmitting s → ∃ job, currentJob s = some job ∧ owns s := fun ⟨h1, h2, h3, h4⟩ =>
    let ⟨job, hj⟩ := Option.isSome_iff_exists.mp h4
    ⟨job, hj, h1, h2, h3⟩
  rcases hp : s.phase with _ | _ | _ | _ | _ | _ | _ <;> simp only [phaseFits, hp] at hph
  · rw [(accepts_iff s).mpr ⟨hph.1, hp⟩] at ha
    cases ha
  · obtain ⟨h1, h2, h3, h4⟩ := hph
    obtain ⟨job, hj, hs⟩ := (Option.any_eq_true _ _).mp h4
    refine ⟨job, hj, hmk job hj ?_⟩
    simp only [runningPhase, hp]
    exact ⟨h1, h2, h3, hs⟩
  · obtain ⟨job, hj, ho⟩ := htr hph
    exact ⟨job, hj, hmk job hj (by simp only [runningPhase, hp]; exact ho)⟩
  · obtain ⟨job, hj, ho⟩ := htr hph.1
    exact ⟨job, hj, hmk job hj (by simp only [runningPhase, hp]; exact ⟨ho, hph.2⟩)⟩
  · obtain ⟨job, hj, ho⟩ := htr hph
    exact ⟨job, hj, hmk job hj (by simp only [runningPhase, hp]; exact ho)⟩
  · obtain ⟨job, hj, ho⟩ := htr hph
    exact ⟨job, hj, hmk job hj (by simp only [runningPhase, hp]; exact ho)⟩

/-- A block that waits in the middle of a command meets the invariant between steps. -/
theorem Running.inv {job : Job} {s : State} (h : Running job s) (hp : s.phase ≠ .idle) (hr : s.phase ≠ .release) :
    Inv s := by
  refine ⟨h.memory, h.symbufLength, h.symbols, h.statusLegal, h.errorResult, ?_⟩
  have hj := h.job hp
  have hph := h.phase
  have htr : owns s → transmitting s := fun ⟨h1, h2, h3⟩ => ⟨h1, h2, h3, by rw [hj]; rfl⟩
  rcases hq : s.phase with _ | _ | _ | _ | _ | _ | _ <;> simp only [runningPhase, hq] at hph <;> simp only [phaseFits, hq]
  · exact absurd hq hp
  · exact ⟨hph.1, hph.2.1, hph.2.2.1, by rw [hj]; exact hph.2.2.2⟩
  · exact htr hph
  · exact ⟨htr hph.1, hph.2⟩
  · exact htr hph
  · exact htr hph
  · exact hr hq

/-- A block at rest meets the invariant once its response is returned. -/
theorem Running.inv_respond {job : Job} {s : State} (h : Running job s) (hp : s.phase = .idle) : Inv (respond s) := by
  have hph := h.phase
  simp only [runningPhase, hp] at hph
  refine ⟨applyRacing_wf _ _ h.memory, h.symbufLength, h.symbols, h.statusLegal, h.errorResult, ?_⟩
  simp only [phaseFits, respond_phase, hp]
  exact ⟨hph.1, hph.2, rfl⟩

end Sys2Proof.Machine
end

