-- ==== Sys2Proof/WellFormed.lean ====
section
/-! DEFINITION. Well-formed commands as the host writes them (spec/30_encoding.md R84).  The arguments of `Instr` have the widths
of their fields, so a term of `Instr` is well formed by its type.  What can be ill formed is a line of assembler, whose
operands are numbers of any size. -/

namespace Sys2Proof

/-- A well-formed line: it has the operands its mnemonic's format asks for, and each fits its field (R84). -/
def AsmLine.wellFormed (ledCount : Nat) (line : AsmLine) : Bool := (assemble ledCount line).isSome

end Sys2Proof
end

