-- ==== Sys2Proof/Tests/Slice0.lean ====
section
/-! SUPPORT. The model's own tests.  Every expected value is from spec/95_test_vectors.md (its vector is named), from R85, or worked
out by hand from the spec's encoding; the witnesses show, for each statement of Certificates/Slice0 with hypotheses, a
state and operands that meet them. -/

namespace Sys2Proof.Tests

set_option Elab.async false -- one proof at a time: the thread stacks of all of them together pass the memory limit

open Sys2Proof Sys2Proof.Machine

/-! ## Small states -/

/-- One LED, the default tables, the symbol bytes of the "instantiated" vectors. -/
def one : Params := Config.default

/-- The same block with two LEDs. -/
def two : Params := { Config.default with ledCount := 2 }

/-- A block after reset, with the answers its platform will give. -/
def blank (p : Params) (answers : Answers) : State := { State.resetWith p with answers := answers }

/-- A READY block that owns handle 7. -/
def ready (p : Params) (answers : Answers) : State := { blank p answers with init := true, handle := some 7 }

/-- A platform that answers everything with success, for a block of `n` LEDs. -/
def allOk (n : Nat) : Answers := ⟨[.ok 7], [.ok (12 * n), .ok 48], [0], []⟩

/-- A platform that has given no answer. -/
def silent : Answers := ⟨[], [], [], []⟩

/-- The state after a command, or the state before it where the command did not answer a next state. -/
def after (i : Instr) (s : State) : State := (nextOf (exec i s)).getD s

/-- The response registers after a command. -/
def answered (i : Instr) (s : State) : BitVec 8 × Word32 := ((after i s).status, (after i s).result)

/-- `SYMBUF` as written bytes. -/
def symbols (s : State) : Option (List Byte) := writtenBytes s.symbuf

/-! ## Decoding and encoding: words written out from the spec's encodings -/

theorem test_decode_mkpix : decode 0x00000000000000000012345600000001 = .legal (.mkpix 0x12 0x34 0x56) := by decide +kernel
theorem test_decode_mkpixb : decode 0x000000000000000000FF800000008002 = .legal (.mkpixb 255 128 0 128) := by decide +kernel
theorem test_decode_wheel : decode 0x00000000000000000000000000005503 = .legal (.wheel 85) := by decide +kernel
theorem test_decode_hsv : decode 0x0000000000000000006480C800000004 = .legal (.hsv 100 128 200) := by decide +kernel
theorem test_decode_hue : decode 0x00000000000000000064C83200000005 = .legal (.hue ⟨100, 200, 50⟩) := by decide +kernel
theorem test_decode_hexv : decode 0x00000000000000000022113300000006 = .legal (.hexv ⟨0x22, 0x11, 0x33⟩) := by decide +kernel
theorem test_decode_fromhex : decode 0x00000000FF1122330000000000000007 = .legal (.fromhex 0xFF112233) := by decide +kernel
theorem test_decode_blend : decode 0x000000000014FE00000A01FF00007F08 = .legal (.blend ⟨10, 1, 255⟩ ⟨20, 254, 0⟩ 127) := by
  decide +kernel
theorem test_decode_gamma : decode 0x4008000000000000007FC8FE00000009 = .legal (.gamma ⟨127, 200, 254⟩ 0x4008000000000000) := by
  decide +kernel
theorem test_decode_init : decode 0x00000000000000000000000000000010 = .legal .init := by decide +kernel
theorem test_decode_initpin : decode 0x00000000000000000000000000001211 = .legal (.initpin 18) := by decide +kernel
theorem test_decode_update : decode 0x00000001FFFFFFFE0000000000000012 = .legal (.update 0xFFFFFFFE 1) := by decide +kernel
theorem test_decode_updateb : decode 0x0000000200002000000000000000FF13 = .legal (.updateb 0x2000 2 255) := by decide +kernel
theorem test_decode_clear : decode 0x00000000000000000000000000000014 = .legal .clear := by decide +kernel
theorem test_decode_destroy : decode 0x00000000000000000000000000000015 = .legal .destroy := by decide +kernel
theorem test_decode_isinit : decode 0x00000000000000000000000000000016 = .legal .isinit := by decide +kernel
theorem test_decode_setbr : decode 0x00000000000000000000000000008017 = .legal (.setbr 128) := by decide +kernel
theorem test_decode_getbr : decode 0x00000000000000000000000000000018 = .legal .getbr := by decide +kernel

/-- V-D1 to V-D5: reserved opcodes. -/
theorem test_decode_reserved : ∀ op ∈ [0x00, 0x0A, 0x0F, 0x19, 0xFF], decode (BitVec.ofNat 128 op) = .illegal .reservedOpcode := by
  decide +kernel

/-- V-D6 to V-D16: non-zero must-be-zero bits. -/
theorem test_decode_nonzero_reserved_bits : ∀ w ∈ [
      0x000000000000000000FF000000010001, 0x000000000000000000FF000000000101, 0x000000000000000001FF000000000001,
      0x800000000000000000FF000000000001, 0x00000001001122330000000000000007, 0x00000000010000020000000100000308,
      0x40000000000000008000000100000009, 0x00000000000000000000000000000110, 0x00000001000010000000000000000112,
      0x00000001000010000000000000010513, 0x00000000000000000000000000010517],
    decode (BitVec.ofNat 128 w) = .illegal .nonzeroReservedBits := by
  decide +kernel

/-- R85 and P1: encoding writes the words the spec prints. -/
theorem test_encode_words :
    encode (.mkpix 255 0 0) = 0x000000000000000000FF000000000001 ∧
    encode (.updateb 0x1000 1 128) = 0x00000001000010000000000000008013 ∧
    encode (.blend ⟨10, 20, 30⟩ ⟨200, 100, 50⟩ 0) = 0x0000000000C86432000A141E00000008 := by
  decide +kernel

/-! ## Well-formed lines: what the assembler refuses (R84) -/

theorem test_wf_accepts : AsmLine.wellFormed 1 ⟨.core .blend, [.px 255 0 1, .px 0 254 100, .num 1]⟩ = true := by decide +kernel
theorem test_wf_refuses_wide_scalar : AsmLine.wellFormed 1 ⟨.core .setbr, [.num 256]⟩ = false ∧
    AsmLine.wellFormed 1 ⟨.core .wheel, [.num 256]⟩ = false ∧ AsmLine.wellFormed 1 ⟨.core .initpin, [.num 256]⟩ = false := by
  decide +kernel
theorem test_wf_refuses_wide_triple : AsmLine.wellFormed 1 ⟨.core .mkpix, [.num 0, .num 256, .num 0]⟩ = false ∧
    AsmLine.wellFormed 1 ⟨.core .hsv, [.num 0, .num 0, .num 256]⟩ = false ∧
    AsmLine.wellFormed 1 ⟨.core .mkpixb, [.num 0, .num 0, .num 0, .num 256]⟩ = false := by
  decide +kernel
theorem test_wf_refuses_wide_pixel : AsmLine.wellFormed 1 ⟨.core .hue, [.px 256 0 0]⟩ = false ∧
    AsmLine.wellFormed 1 ⟨.core .hexv, [.px 0 256 0]⟩ = false ∧
    AsmLine.wellFormed 1 ⟨.core .blend, [.px 0 0 0, .px 0 0 256, .num 0]⟩ = false ∧
    AsmLine.wellFormed 1 ⟨.core .blend, [.px 0 0 0, .px 0 0 0, .num 256]⟩ = false := by
  decide +kernel
theorem test_wf_refuses_wide_words : AsmLine.wellFormed 1 ⟨.core .fromhex, [.num (2 ^ 32)]⟩ = false ∧
    AsmLine.wellFormed 1 ⟨.core .update, [.num (2 ^ 32), .num 1]⟩ = false ∧
    AsmLine.wellFormed 1 ⟨.core .update, [.num 1, .num (2 ^ 32)]⟩ = false ∧
    AsmLine.wellFormed 1 ⟨.core .updateb, [.num 1, .num 1, .num 256]⟩ = false ∧
    AsmLine.wellFormed (2 ^ 32) ⟨.updatef, [.num 1]⟩ = false := by
  decide +kernel
theorem test_wf_refuses_bad_gamma : AsmLine.wellFormed 1 ⟨.core .gamma, [.px 0 0 0, .num (2 ^ 64)]⟩ = false ∧
    AsmLine.wellFormed 1 ⟨.core .gamma, [.px 0 0 0, .f64 false (10 ^ 309) 1]⟩ = false ∧
    AsmLine.wellFormed 1 ⟨.core .gamma, [.px 0 0 0, .f64 false 1 0]⟩ = false ∧
    AsmLine.wellFormed 1 ⟨.gamma22, [.px 0 0 256]⟩ = false := by
  decide +kernel
theorem test_wf_refuses_wrong_operands : AsmLine.wellFormed 1 ⟨.core .init, [.num 0]⟩ = false ∧
    AsmLine.wellFormed 1 ⟨.core .mkpix, [.num 0, .num 0]⟩ = false ∧
    AsmLine.wellFormed 1 ⟨.core .hue, [.num 0]⟩ = false ∧ AsmLine.wellFormed 1 ⟨.fromhexL, [.num (2 ^ 32)]⟩ = false := by
  decide +kernel
/-- R77: the pattern of f64(2.2); 0.5, 2.0 and 3.0 as V-C prints them. -/
theorem test_f64 : nearestBinary64 false 22 10 = some 0x400199999999999A ∧ nearestBinary64 false 1 2 = some 0x3FE0000000000000 ∧
    nearestBinary64 false 2 1 = some 0x4000000000000000 ∧ nearestBinary64 true 1 1 = some 0xBFF0000000000000 := by
  decide +kernel
/-- R86: the three pseudo-instructions. -/
theorem test_pseudo_instructions :
    assemble 1 ⟨.fromhexL, [.num 0x112233]⟩ = some (.fromhex 0x112233) ∧
    assemble 1 ⟨.gamma22, [.px 128 255 0]⟩ = some (.gamma ⟨128, 255, 0⟩ 0x400199999999999A) ∧
    assemble 2 ⟨.updatef, [.num 0x2000]⟩ = some (.update 0x2000 2) := by
  decide +kernel

/-! ## Color Model (V-C) -/

theorem test_mkpix : answered (.mkpix 0x12 0x34 0x56) (blank one silent) = (0x00, 0x00341256) := by decide +kernel
theorem test_mkpixb : answered (.mkpixb 1 254 100 254) (blank one silent) = (0x00, 0x00FD0063) := by decide +kernel
theorem test_mkpixb_truncates : answered (.mkpixb 100 200 3 3) (blank one silent) = (0x00, 0x00020100) := by decide +kernel
theorem test_wheel_band_two : answered (.wheel 127) (blank one silent) = (0x00, 0x0000817E) := by decide +kernel
theorem test_wheel_end : answered (.wheel 255) (blank one silent) = (0x00, 0x00FF0000) := by decide +kernel
theorem test_hsv : answered (.hsv 100 128 200) (blank one silent) = (0x00, 0x00C86384) := by decide +kernel
theorem test_hsv_default_region : answered (.hsv 255 255 255) (blank one silent) = (0x00, 0x0000FF0F) := by decide +kernel
theorem test_hue_reference : answered (.hue ⟨100, 50, 200⟩) (blank { one with hueFn := .reference } silent) = (0x00, 0x9D) := by
  decide +kernel
theorem test_hue_achromatic : answered (.hue ⟨10, 10, 10⟩) (blank one silent) = (0x00, 0) := by decide +kernel
theorem test_hexv : answered (.hexv ⟨0x22, 0x11, 0x33⟩) (blank one silent) = (0x00, 0x00112233) := by decide +kernel
theorem test_fromhex : answered (.fromhex 0xFF112233) (blank one silent) = (0x00, 0x00221133) := by decide +kernel
theorem test_blend : answered (.blend ⟨10, 1, 255⟩ ⟨20, 254, 0⟩ 127) (blank one silent) = (0x00, 0x000E7F80) := by decide +kernel
theorem test_blend_asymmetric : answered (.blend ⟨255, 0, 10⟩ ⟨0, 255, 20⟩ 100) (blank one silent) = (0x00, 0x009B640D) := by
  decide +kernel
theorem test_gamma_general : answered (.gamma ⟨127, 200, 254⟩ 0x4008000000000000) (blank one silent) = (0x00, 0x00207BFC) := by
  decide +kernel
/-- The neighbour of the 2.2 pattern takes the general path. -/
theorem test_gamma_neighbour : answered (.gamma ⟨128, 255, 64⟩ 0x4001999999999999) (blank one silent) = (0x00, 0x0038FF0C) := by
  decide +kernel

/-! ## Driver (V-S) -/

/-- V-S1. -/
theorem test_init : (after .init (blank one (allOk 1))).trace = [.acq 0 93750 12 (.ok 7),
      .wr (List.replicate 12 0x88) (.ok 12), .wr (List.replicate 48 0) (.ok 48), .dly 1 1] ∧
    (after .init (blank one (allOk 1))).init = true ∧ answered .init (blank one (allOk 1)) = (0x00, 0) := by
  decide +kernel
/-- V-S4. -/
theorem test_init_no_memory :
    answered .init (blank { one with nomemPossible := true } { silent with nomem := [true] }) = (0x05, 0) := by
  decide +kernel
/-- V-S2. -/
theorem test_initpin_acquire_fails : (after (.initpin 18) (blank one { silent with acq := [.err] })).trace = [.acq 18 93750 12 .err] ∧
    answered (.initpin 18) (blank one { silent with acq := [.err] }) = (0x01, 0) := by
  decide +kernel
/-- V-S3. -/
theorem test_initpin_clearing_fails :
    let t := after (.initpin 18) (blank one { silent with acq := [.ok 7], wr := [.err] })
    t.status = 0x04 ∧ t.init = true ∧ t.handle = some 7 ∧ t.pin = 18 ∧ t.busy = false := by
  decide +kernel
/-- V-E10, as the data write of an UPDATE. -/
theorem test_update_encodes :
    symbols (after (.update 0x1000 1) { ready one (allOk 1) with mem := [(0x1000, 0x10), (0x1001, 0x20), (0x1002, 0x30)], bright := 200 }) =
      some [0x88, 0x88, 0xEE, 0x88, 0x88, 0x8E, 0xE8, 0x8E, 0x88, 0xE8, 0x8E, 0x8E] := by
  decide +kernel
/-- V-S14: a short write. -/
theorem test_update_short_write :
    answered (.update 0x1000 1) { ready one { silent with wr := [.ok 11] } with mem := [(0x1000, 0), (0x1001, 0), (0x1002, 0)] } =
      (0x04, 0) := by
  decide +kernel
/-- P1, step 5: two pixels, `BRIGHT` unchanged. -/
theorem test_updateb_two_pixels :
    let t := after (.updateb 0x2000 2 255) { ready two (allOk 2) with
      mem := [(0x2000, 0xFF), (0x2001, 0), (0x2002, 0), (0x2003, 0), (0x2004, 0x80), (0x2005, 0xFF)], bright := 128 }
    symbols t = some (List.replicate 4 0xEE ++ List.replicate 12 0x88 ++ [0xE8, 0x88, 0x88, 0x88] ++ List.replicate 4 0xEE) ∧
      t.bright = 128 ∧ t.status = 0x00 := by
  decide +kernel
/-- V-S9: the frame would end past the top of the address space. -/
theorem test_updateb_range : answered (.updateb 0xFFFFFFFE 1 0) (ready one (allOk 1)) = (0x02, 0) := by decide +kernel
/-- V-S24. -/
theorem test_clear :
    (after .clear (ready { one with resetGapLen := 1, settleDelayMs := 0 } ⟨[], [.ok 12, .ok 1], [3], []⟩)).trace =
      [.wr (List.replicate 12 0x88) (.ok 12), .wr [0] (.ok 1), .dly 0 3] := by
  decide +kernel
/-- V-S18. -/
theorem test_destroy :
    let t := after .destroy { ready one (allOk 1) with bright := 7, pin := 18 }
    t.trace.getLast? = some (.rel 7) ∧ t.trace.length = 4 ∧ t.bright = 255 ∧ t.pin = 0 ∧ t.init = false ∧ t.handle = none := by
  decide +kernel
/-- V-S19: the clearing frame fails and is not reported. -/
theorem test_destroy_clearing_fails :
    let t := after .destroy (ready one { silent with wr := [.err] })
    t.trace = [.wr (List.replicate 12 0x88) .err, .rel 7] ∧ t.status = 0x00 ∧ t.init = false := by
  decide +kernel
theorem test_isinit : answered .isinit (ready one silent) = (0x00, 1) := by decide +kernel
theorem test_setbr : (after (.setbr 128) (blank one silent)).bright = 128 := by decide +kernel
theorem test_getbr : answered .getbr (blank one silent) = (0x00, 255) := by decide +kernel

/-! ## Steps -/

/-- The first step after reset runs the word that `withFetchWord` places. -/
theorem test_step_runs_word : (nextOf (step (State.reset.withFetchWord 128 0x000000000000000000FF000000000001))).map (·.responses) =
    some [⟨0x00, 0x0000FF00⟩] := by
  decide +kernel
/-- R224: an illegal word has its response too. -/
theorem test_step_illegal_word : (nextOf (step (State.reset.withFetchWord 128 0x19))).map (·.responses) = some [⟨0x06, 0⟩] := by
  decide +kernel
/-- R236: INIT waits for an `Acq` that is not answered, and the next command is held. -/
theorem test_step_waits :
    (nextOf (step { State.reset with port := [⟨0x10, []⟩, ⟨0x18, []⟩] })).map (fun t => (t.phase, t.port.length, t.responses.length)) =
      some (.acquire, 1, 0) := by
  decide +kernel

/-! ## Witnesses: for each statement with hypotheses, states and operands that meet them all, at the ends of the ranges -/

/-- A READY block with a pixel at the top of the address space and one at 0x1000, and `SYMBUF` of a sent frame. -/
def framed (answers : Answers) : State :=
  { ready one answers with mem := [(0x1000, 1), (0x1001, 2), (0x1002, 3), (0xFFFFFFFD, 4), (0xFFFFFFFE, 5), (0xFFFFFFFF, 6)] }

/-- A READY block of two LEDs with a frame at the top of the address space. -/
def framedTwo : State :=
  { ready two silent with
    mem := [(0xFFFFFFFA, 1), (0xFFFFFFFB, 2), (0xFFFFFFFC, 3), (0xFFFFFFFD, 4), (0xFFFFFFFE, 5), (0xFFFFFFFF, 6)] }

/-- `s` with one command word on the port. -/
def presenting (cw : CommandWord) (s : State) : State := presentFirst cw s

theorem exists_next {o : Result} {P : State → Prop} [DecidablePred P] (h : (nextOf o).any (fun t => decide (P t)) = true) :
    ∃ t, o = .next t ∧ P t := by
  cases o with
  | next t => exact ⟨t, rfl, by simpa [nextOf] using h⟩
  | fault f => simp [nextOf] at h
  | refused f => simp [nextOf] at h

/-! States of the invariant: at rest, and waiting in the middle of a command. -/

/-- A platform that answers every call a command can make. -/
def generous : Answers := ⟨[.ok 7], [.ok 12, .ok 48], [0], []⟩

/-- INIT waiting for an `Acq`. -/
def acquiring (answers : Answers) : State :=
  { blank one answers with busy := true, phase := .acquire, current := some ⟨0x10, []⟩ }

/-- A command waiting in a phase after ENCODE, on a block whose `BRIGHT` is 7. -/
def waiting (cw : CommandWord) (ph : Phase) (answers : Answers) : State :=
  { ready one answers with
    busy := true, phase := ph, current := some ⟨cw, []⟩, bright := 7, symbuf := List.replicate 12 (some 0x88) }

/-- CLEAR waiting in a phase after ENCODE. -/
def clearing (ph : Phase) (answers : Answers) : State := waiting 0x14 ph answers

theorem symbolsOnly_unwritten : symbolsOnly one (List.replicate 12 none) := by unfold symbolsOnly; decide +kernel
theorem symbolsOnly_dark : symbolsOnly one (List.replicate 12 (some 0x88)) := by unfold symbolsOnly; decide +kernel

/-- A block at rest with a command presented. -/
theorem inv_presenting (cw : CommandWord) (answers : Answers) : Inv (presenting cw (framed answers)) :=
  ⟨(by decide +kernel : (framed silent).mem.wf = true), rfl, symbolsOnly_unwritten, Nat.zero_le 6, fun h => absurd rfl h,
    ⟨rfl, rfl, rfl⟩⟩

theorem inv_acquiring (answers : Answers) : Inv (acquiring answers) :=
  ⟨rfl, rfl, symbolsOnly_unwritten, Nat.zero_le 6, fun h => absurd rfl h,
    ⟨rfl, rfl, rfl, (by decide +kernel : (currentJob (acquiring silent)).any Job.isStart = true)⟩⟩

theorem inv_waiting {cw : CommandWord} {ph : Phase} {answers : Answers} (hj : (currentJob (waiting cw ph answers)).isSome = true)
    (hp : ph = .data ∨ ph = .gap ∨ ph = .settle) : Inv (waiting cw ph answers) := by
  have ht : transmitting (waiting cw ph answers) := ⟨rfl, rfl, rfl, hj⟩
  refine ⟨rfl, rfl, symbolsOnly_dark, Nat.zero_le 6, fun h => absurd rfl h, ?_⟩
  rcases hp with rfl | rfl | rfl
  · exact ⟨ht, (by decide +kernel : (writtenBytes (List.replicate 12 (some 0x88))).isSome = true)⟩
  · exact ht
  · exact ht

theorem inv_clearing {ph : Phase} (answers : Answers) (hp : ph = .data ∨ ph = .gap ∨ ph = .settle) : Inv (clearing ph answers) :=
  inv_waiting (by rfl) hp

/-- DESTROY, waiting for the answer to its trailer `Wr`. -/
theorem inv_destroying (answers : Answers) : Inv (waiting 0x15 .gap answers) := inv_waiting (by rfl) (.inr (.inl rfl))

theorem witness_LegalWordIsItsEncoding : decode 0x000000000000000000FF000000000001 = .legal (.mkpix 255 0 0) := by decide +kernel

/-- 0x00, 0x0A, 0x0F, 0x19 and 0xFF are the ends of the reserved ranges; 0x01, 0x09, 0x10 and 0x18 are beside them. -/
theorem witness_ReservedOpcodesAreIllegal :
    (∀ op ∈ [0x00, 0x0A, 0x0F, 0x19, 0xFF], decode (BitVec.ofNat 128 op) = .illegal .reservedOpcode) ∧
    ∀ op ∈ [0x01, 0x09, 0x10, 0x18], decode (BitVec.ofNat 128 op) ≠ .illegal .reservedOpcode := by
  decide +kernel

/-- A command presented, and each kind of job in progress: INITPIN in ACQUIRE, UPDATEB in ENCODE, DESTROY in GAP. -/
theorem witness_StepPerformsDecodedCommand :
    (let s := presenting 0x14 (presenting 0x18 (ready one silent))
     s.busy = false ∧ s.phase = .idle ∧ s.port = ⟨0x14, []⟩ :: [⟨0x18, []⟩] ∧ decode 0x14 = .legal .clear) ∧
    (let s := { acquiring silent with current := some ⟨0x1211, []⟩ }
     s.busy = true ∧ s.phase ≠ .idle ∧ decode 0x1211 = .legal (.initpin 18) ∧ hasJob (.initpin 18) s (.start 18)) ∧
    (let s := waiting 0x00000001000010000000000000008013 .encode silent
     s.busy = true ∧ s.phase ≠ .idle ∧ decode 0x00000001000010000000000000008013 = .legal (.updateb 0x1000 1 128) ∧
      hasJob (.updateb 0x1000 1 128) s (.send (.mem 0x1000) 128)) ∧
    (let s := waiting 0x15 .gap silent
     s.busy = true ∧ s.phase ≠ .idle ∧ decode 0x15 = .legal .destroy ∧ hasJob .destroy s .teardown) :=
  ⟨by decide +kernel, ⟨rfl, by decide, by decide +kernel, .inr (.inl ⟨18, rfl, rfl⟩)⟩,
    ⟨rfl, by decide, by decide +kernel, .inr (.inr (.inr (.inl ⟨0x1000, 1, 128, rfl, rfl⟩)))⟩,
    rfl, by decide, by decide +kernel, .inr (.inr (.inr (.inr (.inr ⟨rfl, rfl⟩))))⟩

/-- Both reasons, on the port of a block at rest, with the host racing one byte and another one left alone. -/
theorem witness_IllegalWordRaisesIllegalCommand :
    decode 0x19 = .illegal .reservedOpcode ∧ decode 0x110 = .illegal .nonzeroReservedBits ∧
    (let s := { framed silent with port := [⟨0x19, [⟨0x1000, [9], 0⟩]⟩, ⟨0x18, []⟩] }
     s.busy = false ∧ s.phase = .idle ∧ s.port = ⟨0x19, [⟨0x1000, [9], 0⟩]⟩ :: [⟨0x18, []⟩] ∧
      ∀ x ∈ [RacingByte.mk 0x1000 [9] 0], x.addr ≠ 0x1001) := by
  decide +kernel

theorem witness_ColorModelIsAPureFunction :
    isColorModel (.mkpix 1 2 3) = true ∧ isColorModel (.gamma ⟨1, 2, 3⟩ 0) = true ∧ (framed silent).params = one :=
  ⟨rfl, rfl, rfl⟩

/-- 1 * 254 truncates to 0 and 1 * 255 does not. -/
theorem witness_ScaleTruncatesWithoutWrap : (1 : Byte).toNat * (254 : Byte).toNat < 255 ∧ scale 1 254 = 0 ∧ scale 1 255 = 1 := by
  decide +kernel

/-- The ends of the three bands (R106). -/
theorem witness_WheelFollowsItsThreeRamps :
    ∀ c ∈ ([(0, 0xFF0000), (84, 0x03FC00), (85, 0x00FF00), (169, 0x0003FC), (170, 0x0000FF), (255, 0xFF0000)] : List (Nat × Nat)),
      answered (.wheel (BitVec.ofNat 8 c.1)) (blank one silent) = (0, BitVec.ofNat 32 c.2) := by
  decide +kernel

/-- The ends of the regions at full saturation and value, and grey at saturation 0 (R108 to R110). -/
theorem witness_HsvFollowsRegionTable :
    (∀ c ∈ ([(0, 0x00FF00), (42, 0xFCFF00), (43, 0xFFFE00), (85, 0xFF0300), (86, 0xFF0000), (128, 0xFF00FC), (129, 0xFE00FF),
        (171, 0x0300FF), (172, 0x0000FF), (214, 0x00FCFF), (215, 0x00FFFE), (255, 0x00FF0F)] : List (Nat × Nat)),
      answered (.hsv (BitVec.ofNat 8 c.1) 255 255) (blank one silent) = (0, BitVec.ofNat 32 c.2)) ∧
    answered (.hsv 77 0 9) (blank one silent) = (0, 0x090909) ∧ one.hsvFn = .standard := by
  decide +kernel

theorem witness_HueIsZeroOnGreyAndAByteElsewhere :
    ∀ a ∈ [Pixel.mk 0 0 0, Pixel.mk 255 255 255],
      max a.r.toNat (max a.g.toNat a.b.toNat) = min a.r.toNat (min a.g.toNat a.b.toNat) := by
  decide +kernel

/-- Both directions: a pixel, and words with and without a byte above the red one. -/
theorem witness_HexRoundTripIsExact :
    (∃ t, exec (.hexv ⟨1, 2, 3⟩) (blank one silent) = .next t ∧ t.result = 0x020103) ∧
    (∃ t, exec (.fromhex 0x00FFFFFF) (blank one silent) = .next t ∧ (0x00FFFFFF : Word32).extractLsb' 24 8 = 0) ∧
    ∃ t, exec (.fromhex 0x01000000) (blank one silent) = .next t ∧ (0x01000000 : Word32).extractLsb' 24 8 ≠ 0 :=
  ⟨exists_next (by decide +kernel), exists_next (by decide +kernel), exists_next (by decide +kernel)⟩

theorem witness_GammaLookupPathReadsTheTable : (0x400199999999999B : Word64) ≠ 0x400199999999999A := by decide

/-- Negative, negative zero, infinity, NaN and zero; beside them the smallest and the largest finite positive values. -/
theorem witness_GammaOutsideDomainIsRefused :
    (∀ w ∈ [0xBFF0000000000000, 0x8000000000000000], (BitVec.ofNat 64 w).msb = true) ∧
    (∀ w ∈ [0x7FF0000000000000, 0x7FF8000000000000, 0x7FFFFFFFFFFFFFFF], ((BitVec.ofNat 64 w).extractLsb' 52 11).toNat = 0x7FF) ∧
    ((0 : Word64).extractLsb' 52 11).toNat = 0 ∧ ((0 : Word64).extractLsb' 0 52).toNat = 0 ∧
    ∀ w ∈ [1, 0x7FEFFFFFFFFFFFFF], gammaInDomain (BitVec.ofNat 64 w) = true := by
  decide +kernel

/-- The numbers 1 and, at the bottom of the domain, 2^-1074. -/
theorem witness_isBinary64 : isBinary64 0x3FF0000000000000 1 ∧ isBinary64 1 (2 ^ (-1074 : ℤ)) := by
  have h1 : binaryExponent 0x3FF0000000000000 = 1023 ∧ binaryFraction 0x3FF0000000000000 = 0 := by decide +kernel
  have h2 : binaryExponent 1 = 0 ∧ binaryFraction 1 = 1 := by decide +kernel
  constructor
  · rw [isBinary64, h1.1, h1.2]
    norm_num
  · rw [isBinary64, h2.1, h2.2]
    norm_num

theorem witness_GammaGeneralPathIsExactlyRounded :
    (blank one silent).params.gammaPow = .exact ∧ (0x3FF0000000000000 : Word64) ≠ 0x400199999999999A ∧
      gammaInDomain 0x3FF0000000000000 = true ∧ gammaInDomain 1 = true := by
  decide +kernel

theorem witness_GammaPlatformPathIsWithinOne :
    (blank { one with gammaPow := .platform } silent).params.gammaPow = .platform ∧
      (0x3FF0000000000000 : Word64) ≠ 0x400199999999999A ∧ gammaInDomain 0x3FF0000000000000 = true ∧ gammaInDomain 1 = true := by
  decide +kernel

theorem default_lut_steps : ∀ c : Fin 255,
    (Config.defaultGammaLut.get c.castSucc).toNat ≤ (Config.defaultGammaLut.get c.succ).toNat := by
  decide +kernel

theorem default_lut_exact : ∀ c : Fin 256, (Config.defaultGammaLut.get c).toNat = roundedPow 11 5 c := by decide +kernel

/-- The default table of decision D11 meets the constraints of R33. -/
theorem witness_GammaTableAgreesWithFormula :
    gammaLutValid (blank one silent).params ∧ (blank one silent).params.gammaLut = Config.defaultGammaLut := by
  refine ⟨⟨by decide +kernel, by decide +kernel, fun c c' h => ?_, fun c => ?_⟩, rfl⟩
  · exact (Fin.monotone_iff_le_succ (f := fun i : Fin 256 => (Config.defaultGammaLut.get i).toNat)).mpr default_lut_steps h
  · have := default_lut_exact c
    have e : (blank one silent).params.gammaLut = Config.defaultGammaLut := rfl
    rw [e]
    omega

/-- The last pixel of a frame at the top of the address space, in ENCODE of an UPDATE that races the frame's first byte. -/
theorem witness_FramePixelIsThreeBytesGreenFirst :
    let s := { framedTwo with
      busy := true, phase := .encode, current := some ⟨0x00000002FFFFFFFA0000000000000012, [⟨0xFFFFFFFA, [9], 1⟩]⟩ }
    (∀ x ∈ s.racing, x.addr ≠ 0xFFFFFFFA + 3 * 1 ∧ x.addr ≠ 0xFFFFFFFA + 3 * 1 + 1 ∧ x.addr ≠ 0xFFFFFFFA + 3 * 1 + 2) ∧
      s.racing ≠ [] ∧ s.mem.read (0xFFFFFFFA + 3 * 1) = some 4 ∧ s.mem.read (0xFFFFFFFA + 3 * 1 + 1) = some 5 ∧
      s.mem.read (0xFFFFFFFA + 3 * 1 + 2) = some 6 ∧ frameAdmitted s 0xFFFFFFFA ∧ 1 < s.params.ledCount := by
  simp only [frameAdmitted]
  decide +kernel

/-- The last symbol of the last pixel, in each channel. -/
theorem witness_SymbolLayoutIsByPixelChannelGroup :
    [Pixel.mk 1 2 3, Pixel.mk 4 5 255].length = two.ledCount ∧
      ∀ c ∈ [(0, 4), (1, 5), (2, 255)], (let px : Pixel := ⟨4, 5, 255⟩
        let v : Byte := BitVec.ofNat 8 c.2
        [Pixel.mk 1 2 3, Pixel.mk 4 5 255][1]? = some px ∧
        ((c.1 = 0 ∧ v = px.g) ∨ (c.1 = 1 ∧ v = px.r) ∨ (c.1 = 2 ∧ v = px.b)) ∧ 3 < 4) := by
  decide +kernel

/-- The default symbols are distinct; 3 at brightness 85 and 1 at brightness 255 give the same symbols. -/
theorem witness_SymbolBytesDetermineScaledChannels :
    symtabDistinct one ∧ frameSymbols one 85 [⟨3, 3, 3⟩] = frameSymbols one 255 [⟨1, 1, 1⟩] := by
  unfold symtabDistinct
  decide +kernel

theorem witness_DarkFramesEncodeToSymbolZero : ∀ x ∈ [Pixel.black, Pixel.black], x = Pixel.black := by decide +kernel

/-- The allocation can proceed because `NOMEM_POSSIBLE` is 0, or because no failure is drawn. -/
theorem witness_InitAcquiresAndClears :
    (let s := blank one (allOk 1)
     s.init = false ∧ allocationProceeds s ∧ s.answers.acq = .ok 7 :: [] ∧ frameTaken s 0 [] []) ∧
    (let s := blank { one with nomemPossible := true } { allOk 1 with nomem := [false] }
     s.init = false ∧ allocationProceeds s ∧ s.answers.acq = .ok 7 :: [] ∧ frameTaken s 0 [] []) := by
  simp only [allocationProceeds, frameTaken]
  decide +kernel

theorem witness_InitpinAcquiresItsOwnPin :
    let s := blank two (allOk 2)
    s.init = false ∧ allocationProceeds s ∧ s.answers.acq = .ok 7 :: [] ∧ frameTaken s 0 [] [] := by
  simp only [allocationProceeds, frameTaken]
  decide +kernel

theorem witness_InitOnReadyBlockIsNoOp : (ready one silent).init = true := by decide

/-- An answer `err`; a run that ends in INIT_ERROR, also where `STATUS` held that code before; and an INIT that ends so after a
wait. -/
theorem witness_FailedAcquireLeavesBlockUninitialized :
    (let s := blank one { silent with acq := [.err] }
     s.init = false ∧ allocationProceeds s ∧ s.answers.acq = .err :: [] ∧ s.params.defaultPin = 0) ∧
    (∃ t, exec (.initpin 255) { blank one { silent with acq := [.err] } with status := 0x01 } = .next t ∧
      t.phase = .idle ∧ t.status = 0x01) ∧
    Inv (acquiring { silent with acq := [.err] }) ∧
    ∃ t, step (acquiring { silent with acq := [.err] }) = .next t ∧ t.responses ≠ [] ∧ t.status = 0x01 := by
  refine ⟨?_, exists_next (by decide +kernel), inv_acquiring _, exists_next (by decide +kernel)⟩
  simp only [allocationProceeds]
  decide +kernel

theorem witness_NoMemoryOnlyWherePossible :
    (let s := blank { one with nomemPossible := true } { allOk 1 with nomem := [true] }
     s.init = false ∧ s.params.nomemPossible = true ∧ s.answers.nomem.head? = some true) ∧
    (∃ t, exec .init { blank { one with nomemPossible := true } { allOk 1 with nomem := [true] } with status := 0x05 } = .next t ∧
      t.phase = .idle ∧ t.status = 0x05) ∧
    ∃ t, step (presenting 0x10 (blank { one with nomemPossible := true } { allOk 1 with nomem := [true] })) = .next t ∧
      t.responses ≠ [] ∧ t.status = 0x05 :=
  ⟨by decide +kernel, exists_next (by decide +kernel), exists_next (by decide +kernel)⟩

/-- A data count one short, one too many, and an error; the same of the trailer. -/
theorem witness_InitWithFailedClearingFrameIsReady :
    (∀ w ∈ [WrAnswer.ok 11, .ok 13, .err],
      let s := blank one { silent with acq := [.ok 7], wr := [w] }
      s.init = false ∧ allocationProceeds s ∧ s.answers.acq = .ok 7 :: [] ∧ s.answers.wr = w :: [] ∧
        w ≠ .ok (12 * s.params.ledCount)) ∧
    ∀ w ∈ [WrAnswer.ok 47, .ok 49, .err],
      let s := blank one { silent with acq := [.ok 7], wr := [.ok 12, w] }
      s.init = false ∧ allocationProceeds s ∧ s.answers.acq = .ok 7 :: [] ∧
        s.answers.wr = .ok (12 * s.params.ledCount) :: w :: [] ∧ w ≠ .ok s.params.resetGapLen := by
  simp only [allocationProceeds]
  decide +kernel

/-- Also for a frame that ends at the top of the address space. -/
theorem witness_UpdateSendsFrameAtGlobalBrightness : ∀ a ∈ [0x1000, 0xFFFFFFFD],
    let s := framed (allOk 1)
    let fptr : Word32 := BitVec.ofNat 32 a
    s.init = true ∧ s.hvalid = true ∧ frameChecked s.params fptr 1 ∧ frameAdmitted s fptr ∧ frameTaken s 0 [] [] := by
  simp only [frameChecked, frameAdmitted, frameTaken]
  decide +kernel

theorem witness_UpdatebSendsFrameAtOperandBrightness :
    let s := framed (allOk 1)
    s.init = true ∧ s.hvalid = true ∧ frameChecked s.params 0x1000 1 ∧ frameAdmitted s 0x1000 ∧ frameTaken s 0 [] [] := by
  simp only [frameChecked, frameAdmitted, frameTaken]
  decide +kernel

theorem witness_ClearSendsDarkFrame :
    let s := ready two (allOk 2)
    s.init = true ∧ s.hvalid = true ∧ frameTaken s 0 [] [] := by
  simp only [frameTaken]
  decide +kernel

theorem witness_DestroyClearsReleasesAndResets :
    let s := ready one (allOk 1)
    s.init = true ∧ s.handle = some 7 ∧ frameTaken s 0 [] [] := by
  simp only [frameTaken]
  decide +kernel

/-- A data count one short and one too many, a trailer count one short and an error, and the whole frame taken. -/
theorem witness_DestroyAlwaysTearsDown :
    (∀ c ∈ [(WrAnswer.ok 11, WrAnswer.err), (.ok 13, .ok 48), (.ok 12, .ok 47), (.ok 12, .err), (.ok 12, .ok 48)],
      let s := ready one ⟨[], [c.1, c.2], [0], []⟩
      s.init = true ∧ s.handle = some 7 ∧ s.answers.wr = c.1 :: c.2 :: [] ∧ s.answers.dly = 0 :: []) ∧
    WrAnswer.ok 11 ≠ .ok (12 * one.ledCount) ∧ WrAnswer.ok 13 ≠ .ok (12 * one.ledCount) ∧
    WrAnswer.ok 12 = .ok (12 * one.ledCount) ∧ WrAnswer.ok 47 ≠ .ok one.resetGapLen ∧ WrAnswer.ok 48 = .ok one.resetGapLen ∧
    (blank one silent).init = false := by
  decide +kernel

theorem witness_TransmissionNeedsInit : (blank one (allOk 1)).init = false := by decide

/-- The null address, lengths one off, and a frame that ends one byte too high. -/
theorem witness_BadFrameOperandIsRefused :
    (ready one silent).init = true ∧ (0 : Word32).toNat = 0 ∧ (0 : Word32).toNat ≠ one.ledCount ∧ (2 : Word32).toNat ≠ one.ledCount ∧
      2 ^ 32 < (0xFFFFFFFE : Word32).toNat + 3 * one.ledCount ∧ ¬ 2 ^ 32 < (0xFFFFFFFD : Word32).toNat + 3 * one.ledCount := by
  decide +kernel

/-- The three commands that send. -/
theorem witness_sendsBytes (answers : Answers) :
    (∃ bytes, sendsBytes (.update 0x1000 1) (framed answers) bytes) ∧
    (∃ bytes, sendsBytes (.updateb 0xFFFFFFFD 1 9) (framed answers) bytes) ∧
    ∃ bytes, sendsBytes .clear (framed answers) bytes := by
  refine ⟨⟨_, .inl ⟨_, _, _, .inr ⟨rfl, rfl⟩, ?_, ?_, rfl⟩⟩, ⟨_, .inl ⟨_, _, _, .inl rfl, ?_, ?_, rfl⟩⟩, _, .inr ⟨rfl, rfl⟩⟩
  · exact (by decide +kernel : (0x1000 : Word32).toNat ≠ 0 ∧ (1 : Word32).toNat = 1 ∧ (0x1000 : Word32).toNat + 3 * 1 ≤ 2 ^ 32)
  · exact (by decide +kernel : ∀ k < 3 * 1, (framed silent).mem.admits ((0x1000 : Word32).toNat + k) = true)
  · exact (by decide +kernel : (0xFFFFFFFD : Word32).toNat ≠ 0 ∧ (1 : Word32).toNat = 1 ∧ (0xFFFFFFFD : Word32).toNat + 3 * 1 ≤ 2 ^ 32)
  · exact (by decide +kernel : ∀ k < 3 * 1, (framed silent).mem.admits ((0xFFFFFFFD : Word32).toNat + k) = true)

theorem witness_FailedDataWriteEndsTheFrame : ∀ w ∈ [WrAnswer.ok 11, .ok 13, .err],
    let s := framed { silent with wr := [w] }
    s.init = true ∧ s.hvalid = true ∧ s.answers.wr = w :: [] ∧ w ≠ .ok (12 * s.params.ledCount) := by
  decide +kernel

theorem witness_FailedTrailerWriteEndsTheFrame : ∀ w ∈ [WrAnswer.ok 47, .ok 49, .err],
    let s := framed { silent with wr := [.ok 12, w] }
    s.init = true ∧ s.hvalid = true ∧ s.answers.wr = .ok (12 * s.params.ledCount) :: w :: [] ∧ w ≠ .ok s.params.resetGapLen := by
  decide +kernel

theorem witness_SetbrThenUpdateSendsWhatUpdatebSends :
    exec (.setbr 9) (framed (allOk 1)) = .next { framed (allOk 1) with bright := 9 } ∧
    (∃ u, exec (.update 0x1000 1) { framed (allOk 1) with bright := 9 } = .next u ∧ u.phase = .idle) ∧
    ∃ v, exec (.updateb 0x1000 1 9) (framed (allOk 1)) = .next v ∧ v.phase = .idle :=
  ⟨rfl, exists_next (by decide +kernel), exists_next (by decide +kernel)⟩

/-- The phase a move leads to, if it moves. -/
def movedTo (job : Job) (s : State) : Option Phase :=
  match serializerMove job s with
  | .to t => some t.phase
  | .waits _ => none
  | .faults _ => none

/-- A READY one-LED block in a phase, with every `SYMBUF` byte written. -/
def inPhase (ph : Phase) (answers : Answers) : State :=
  { ready one answers with phase := ph, symbuf := List.replicate 12 (some 0x88) }

/-- One move of each row, from the state and under the answers the row names. -/
theorem witness_PhaseMovesOnlyAsListed :
    movedTo (.start 3) { blank one (allOk 1) with phase := .acquire } = some .encode ∧
    movedTo (.start 3) { blank one { silent with acq := [.err] } with phase := .acquire } = some .idle ∧
    movedTo .teardown (inPhase .encode silent) = some .data ∧
    movedTo .teardown (inPhase .data (allOk 1)) = some .gap ∧
    movedTo .teardown (inPhase .data { silent with wr := [.err] }) = some .release ∧
    movedTo (.send .zeros 0) (inPhase .data { silent with wr := [.ok 11] }) = some .idle ∧
    movedTo .teardown (inPhase .gap { silent with wr := [.ok 48] }) = some .settle ∧
    movedTo .teardown (inPhase .gap { silent with wr := [.ok 49] }) = some .release ∧
    movedTo (.send .zeros 0) (inPhase .gap { silent with wr := [.ok 47] }) = some .idle ∧
    movedTo (.send .zeros 0) (inPhase .settle (allOk 1)) = some .idle ∧
    movedTo .teardown (inPhase .settle (allOk 1)) = some .release ∧
    movedTo .teardown (inPhase .release silent) = some .idle := by
  decide +kernel

/-- A handle gained and a handle given up, by a command and, under the invariant, by one that goes on after a wait; and no handle
in a phase that needs one. -/
theorem witness_HandleMovesOnlyByInitAndDestroy :
    (∃ t, exec .init (blank one (allOk 1)) = .next t ∧ (blank one (allOk 1)).handle ≠ t.handle) ∧
    (∃ t, exec .destroy (ready one (allOk 1)) = .next t ∧ (ready one (allOk 1)).handle ≠ t.handle) ∧
    (Inv (acquiring generous) ∧ ∃ t, step (acquiring generous) = .next t ∧ (acquiring generous).handle ≠ t.handle) ∧
    (Inv (waiting 0x15 .gap generous) ∧
      ∃ t, step (waiting 0x15 .gap generous) = .next t ∧ (waiting 0x15 .gap generous).handle ≠ t.handle) ∧
    ∀ ph ∈ [Phase.data, .gap, .release], (let s := { blank one silent with phase := ph }
      s.handle = none ∧ (s.phase = .data ∨ s.phase = .gap ∨ s.phase = .release)) :=
  ⟨exists_next (by decide +kernel), exists_next (by decide +kernel), ⟨inv_acquiring _, exists_next (by decide +kernel)⟩,
    ⟨inv_destroying _, exists_next (by decide +kernel)⟩, by decide +kernel⟩

/-- By SETBR and by DESTROY, by a command and by a step: SETBR accepted, DESTROY going on after a wait. -/
theorem witness_BrightMovesOnlyBySetbrAndDestroy :
    (∃ t, exec (.setbr 0) (blank one silent) = .next t ∧ (blank one silent).bright ≠ t.bright) ∧
    (∃ t, exec .destroy { ready one (allOk 1) with bright := 7 } = .next t ∧ 7 ≠ t.bright) ∧
    (Inv (presenting 0x8017 (framed silent)) ∧ ∃ t, step (presenting 0x8017 (framed silent)) = .next t ∧ 255 ≠ t.bright) ∧
    (Inv (waiting 0x15 .gap generous) ∧ ∃ t, step (waiting 0x15 .gap generous) = .next t ∧ 7 ≠ t.bright) :=
  ⟨exists_next (by decide +kernel), exists_next (by decide +kernel), ⟨inv_presenting _ _, exists_next (by decide +kernel)⟩,
    inv_destroying _, exists_next (by decide +kernel)⟩

/-- A command alone, and a step in whose window the host writes one byte of the frame and leaves the next one alone. -/
theorem witness_NoCommandWritesMemoryOrParameters :
    (∃ t, exec (.updateb 0x1000 1 255) (framed (allOk 1)) = .next t ∧ t.trace.length = 3) ∧
    (let s := { framed (allOk 1) with port := [⟨0x00000001000010000000000000008013, [⟨0x1000, [9], 0⟩]⟩] }
     (∃ t, step s = .next t ∧ t.trace.length = 3 ∧ t.mem.read 0x1000 ≠ s.mem.read 0x1000) ∧
      inHand s = some ⟨0x00000001000010000000000000008013, [⟨0x1000, [9], 0⟩]⟩ ∧
      ∀ x ∈ [RacingByte.mk 0x1000 [9] 0], x.addr ≠ 0x1001) :=
  ⟨exists_next (by decide +kernel), exists_next (by decide +kernel), by decide +kernel⟩

/-- A delay that lasts five milliseconds longer than its bound; a second delay equal to one recorded before; and one that ends
after a wait. -/
theorem witness_SettleDelayIsALowerBound :
    (∃ t, exec .clear (ready one { allOk 1 with dly := [5] }) = .next t ∧ .dly 1 6 ∈ t.trace) ∧
    (∃ t, step (presenting 0x14 { ready one (allOk 1) with trace := [.dly 1 1] }) = .next t ∧
      t.trace.head? = some (.dly 1 1) ∧ t.trace.tail.getLast? = some (.dly 1 1)) ∧
    ∃ t, step (clearing .settle { silent with dly := [5] }) = .next t ∧ t.trace = [.dly 1 6] :=
  ⟨exists_next (by decide +kernel), exists_next (by decide +kernel), exists_next (by decide +kernel)⟩

/-- The first and the last byte of a frame at 0x2000, by UPDATE and by UPDATEB. -/
theorem witness_UnadmittedByteStallsForever :
    ∀ w ∈ [0x00000001000020000000000000000012, 0x00000001000020000000000000008013],
      let cw : CommandWord := BitVec.ofNat 128 w
      let s := presenting cw (framed (allOk 1))
      s.busy = false ∧ s.phase = .idle ∧ s.init = true ∧ s.port = ⟨cw, []⟩ :: [] ∧
      (decode cw = .legal (.update 0x2000 1) ∨ decode cw = .legal (.updateb 0x2000 1 128)) ∧
      frameChecked s.params 0x2000 1 ∧ 0 < 3 * s.params.ledCount ∧ s.mem.admits ((0x2000 : Word32).toNat + 0) = false ∧
      2 < 3 * s.params.ledCount ∧ s.mem.admits ((0x2000 : Word32).toNat + 2) = false := by
  simp only [frameChecked]
  decide +kernel

/-- The four waits. -/
theorem witness_UnansweredCallHoldsThePort :
    (∃ s, Inv s ∧ s.phase = .acquire ∧ s.answers.acq = []) ∧ (∃ s, Inv s ∧ s.phase = .data ∧ s.answers.wr = []) ∧
    (∃ s, Inv s ∧ s.phase = .gap ∧ s.answers.wr = []) ∧ ∃ s, Inv s ∧ s.phase = .settle ∧ s.answers.dly = [] :=
  ⟨⟨_, inv_acquiring silent, rfl, rfl⟩, ⟨_, inv_clearing silent (.inl rfl), rfl, rfl⟩,
    ⟨_, inv_clearing silent (.inr (.inl rfl)), rfl, rfl⟩, ⟨_, inv_clearing silent (.inr (.inr rfl)), rfl, rfl⟩⟩

/-- At rest with a command presented, and going on from a wait. -/
theorem witness_CommandEndsWhenEveryCallIsAnswered :
    (∃ s, Inv s ∧ answersEveryCall s ∧ (∀ job, nextJob s = some job → jobAdmitted s job) ∧ s.port ≠ []) ∧
    ∃ s, Inv s ∧ answersEveryCall s ∧ (∀ job, nextJob s = some job → jobAdmitted s job) ∧ s.phase ≠ .idle := by
  refine ⟨⟨_, inv_presenting 0x14 (allOk 1), by unfold answersEveryCall; decide +kernel, ?_, by decide +kernel⟩,
    ⟨_, inv_clearing generous (.inr (.inl rfl)), by unfold answersEveryCall; decide +kernel, ?_, by decide +kernel⟩⟩
  · intro job h
    have e : nextJob (presenting 0x14 (framed (allOk 1))) = some (.send .zeros 0) := by decide +kernel
    obtain rfl : Job.send .zeros 0 = job := Option.some.inj (e.symm.trans h)
    exact trivial
  · intro job h
    have e : nextJob (clearing .gap generous) = some (.send .zeros 0) := by decide +kernel
    obtain rfl : Job.send .zeros 0 = job := Option.some.inj (e.symm.trans h)
    exact trivial

theorem witness_RacingReadReturnsAnyHeldValue : (framed silent).mem.read 0x1000 = some 1 := by decide +kernel

/-- A command in progress, and none. -/
theorem witness_ResetIsNotDestroy :
    (clearing .gap silent).busy = true ∧ (clearing .gap silent).phase ≠ .idle ∧ (framed silent).busy = false ∧
      (framed silent).phase = .idle := by
  decide +kernel

theorem witness_StepKeepsInvariantAndNeverFaults : ∃ s, Inv s ∧ s.port ≠ [] := ⟨_, inv_presenting 0x14 (allOk 1), by decide +kernel⟩

theorem witness_OneResponsePerCommandAtRest :
    ∃ t, step (presenting 0x14 (framed (allOk 1))) = .next t ∧ t.responses ≠ (presenting 0x14 (framed (allOk 1))).responses :=
  exists_next (by decide +kernel)

end Sys2Proof.Tests
end

section
/-! PROOFS. Reading a frame from host memory (spec/20_memory.md R51, R52, R54, R64): the pixels an admitted frame gives, the
values a raced read returns, and the block that is stuck at a byte the platform does not admit. -/

namespace Sys2Proof.Machine

/-! ## The pixels of a frame -/

/-- A pixel is its three bytes, green at the lowest address (R52). -/
theorem framePixel_of_frameBytes {s : State} {fptr : Word32} {i : Nat} {green red blue : Byte}
    (hg : frameByte s (fptr.toNat + 3 * i) = some green) (hr : frameByte s (fptr.toNat + 3 * i + 1) = some red)
    (hb : frameByte s (fptr.toNat + 3 * i + 2) = some blue) :
    framePixel s fptr i = some { g := green, r := red, b := blue } := by
  simp only [framePixel, memRead_three, hg, hr, hb]

/-- The encoder reads pixel `i` of an admitted frame at index `i` (R51, R153). -/
theorem readFrame_getElem?_of_admitted {s : State} {fptr : Word32} {i : Nat} (h : frameAdmitted s fptr)
    (hi : i < s.params.ledCount) : (readFrame s (.mem fptr))[i]? = framePixel s fptr i :=
  readFrame_getElem? (by rwa [readFrame_length_of_admitted h])

/-- Settles O24: the three byte reads are reads of memory, and the encoder's list holds the pixel they make. -/
theorem framePixelIsThreeBytesGreenFirst : Obligations.FramePixelIsThreeBytesGreenFirst := by
  intro s fptr i green red blue hrace hg hr hb
  have hpixel : framePixel s fptr i = some { g := green, r := red, b := blue } := by
    apply framePixel_of_frameBytes
    · rw [frameByte_of_not_raced fun x hx => (hrace x hx).1, hg]
    · rw [frameByte_of_not_raced fun x hx => (hrace x hx).2.1, hr]
    · rw [frameByte_of_not_raced fun x hx => (hrace x hx).2.2, hb]
  refine ⟨hpixel, fun hadm hi => ⟨readFrame_length_of_admitted hadm, ?_⟩⟩
  rw [readFrame_getElem?_of_admitted hadm hi, hpixel]

/-! ## Racing reads -/

/-- The window of a captured command is the one it was presented with (R64, R68). -/
@[simp] theorem racing_of_captured (s : State) (p : Presented) :
    ({ s with current := some p } : State).racing = p.racing := rfl

@[simp] theorem heldValues_single (a pick : Nat) (writes : List Byte) (b : Byte) :
    heldValues [⟨a, writes, pick⟩] a b = b :: writes := by
  simp [heldValues]

@[simp] theorem pickOf_single (a pick : Nat) (writes : List Byte) :
    pickOf [⟨a, writes, pick⟩] a = pick % (writes.length + 1) := by
  simp [pickOf]

/-- A read that the host races returns the held value the window picks, counted round (R64). -/
theorem frameByte_of_single_race {s : State} {a : Nat} {b : Byte} (hb : s.mem.read a = some b) (p : Presented)
    (writes : List Byte) (pick : Nat) :
    frameByte { s with current := some { p with racing := [⟨a, writes, pick⟩] } } a =
      some ((b :: writes).getD (pick % (b :: writes).length) b) := by
  simp only [frameByte, hb, racing_of_captured, heldValues_single, pickOf_single, Option.map_some, List.length_cons]

/-- Settles O55: a read returns a held value, and the place of a held value in the window is a pick that returns it. -/
theorem racingReadReturnsAnyHeldValue : Obligations.RacingReadReturnsAnyHeldValue := by
  intro s p a b writes hb
  refine ⟨?_, fun pick v hv => ?_, fun v hv => ?_⟩
  · rw [frameByte_of_not_raced (by simp)]
    exact hb
  · obtain ⟨b', hb', hv⟩ := frameByte_mem_heldValues hv
    obtain rfl : b = b' := Option.some.inj (hb.symm.trans hb')
    simpa only [racing_of_captured, heldValues_single] using hv
  · obtain ⟨pick, hpick, rfl⟩ := List.getElem_of_mem hv
    refine ⟨pick, ?_⟩
    rw [frameByte_of_single_race hb, Nat.mod_eq_of_lt hpick, List.getD_eq_getElem _ _ hpick]

/-! ## A frame byte that is not admitted -/

/-- The encoder writes only `SYMBUF`, so it leaves the frame as it was read (R58, R153). -/
@[simp] theorem readFrame_encodeFrame (s : State) (source : FrameSource) (br : Byte) :
    readFrame (encodeFrame s source br).1 source = readFrame s source :=
  readFrame_congr source rfl rfl rfl

/-- Encoding again what was encoded once reads the same pixels and writes the same buffer (R153). -/
theorem encodeFrame_again (s : State) (source : FrameSource) (br : Byte) :
    encodeFrame (encodeFrame s source br).1 source br = encodeFrame s source br := by
  rw [encodeFrame, readFrame_encodeFrame]
  rfl

/-- A job in `ENCODE` whose frame has a pixel that cannot be read waits there, after encoding the pixels before it (R54). -/
theorem runJob_unread {job : Job} {s : State} (hp : s.phase = .encode)
    (h : (readFrame s job.source).length < s.params.ledCount) :
    runJob job s = .next (encodeFrame s job.source job.brightness).1 :=
  runMoves_waits ((serializerMove_encode hp).trans (encodeMove_stuck h))

/-- A frame that passes the checks and has a pixel that cannot be read leaves the block in `ENCODE` (R54, R186). -/
theorem sendFrame_unread {fptr flen : Word32} {br : Byte} {s : State} (hi : s.init = true)
    (hc : frameChecked s.params fptr flen)
    (h : (readFrame (startTransmit s) (.mem fptr)).length < s.params.ledCount) :
    sendFrame fptr flen br s = .next (encodeFrame (startTransmit s) (.mem fptr) br).1 :=
  (sendFrame_checked hi hc).trans (runJob_unread (s := startTransmit s) rfl h)

theorem accepts_of_encode {s : State} (hp : s.phase = .encode) : s.accepts = false := by
  simp [State.accepts, hp]

/-- The job of an accepted command is the one its word asks for (R68). -/
theorem currentJob_accept {p : Presented} {i : Instr} (hd : decode p.word = .legal i) (rest : List Presented) (s : State) :
    currentJob (accept p rest s) = jobOf i (accept p rest s) := by
  simp only [currentJob, accept_current, hd]

/-- A step of a block at rest whose oldest command comes to wait in `ENCODE` (R72, R73). -/
theorem step_accepts_to_encode {s t : State} {p : Presented} {rest : List Presented} {i : Instr} (ha : s.accepts = true)
    (hport : s.port = p :: rest) (hd : decode p.word = .legal i) (he : exec i (accept p rest s) = .next t)
    (ht : t.phase = .encode) : step s = .next t := by
  simp [step, portStep, ha, hport, runWord, hd, he, settlePort, accepts_of_encode ht]

/-- A step of a block in `ENCODE` that comes to wait in `ENCODE` again (R66, R73). -/
theorem step_resumes_to_encode {s t : State} {job : Job} (hs : s.phase = .encode) (hj : currentJob s = some job)
    (hr : runJob job s = .next t) (ht : t.phase = .encode) : step s = .next t := by
  simp [step, portStep, accepts_of_encode hs, resume, hj, hr, settlePort, accepts_of_encode ht]

/-- A block stuck in `ENCODE` stays as it is (R54). -/
theorem step_unread {job : Job} {s : State} (hp : s.phase = .encode) (hj : currentJob s = some job)
    (h : (readFrame s job.source).length < s.params.ledCount) :
    step (encodeFrame s job.source job.brightness).1 = .next (encodeFrame s job.source job.brightness).1 := by
  have hjob : currentJob (encodeFrame s job.source job.brightness).1 = some job := (currentJob_congr rfl rfl rfl).trans hj
  have hrun := runJob_unread (job := job) (s := (encodeFrame s job.source job.brightness).1) hp
    (by rw [readFrame_encodeFrame]; exact h)
  rw [encodeFrame_again] at hrun
  exact step_resumes_to_encode hp hjob hrun hp

/-- `UPDATE` and `UPDATEB` send the frame of their operand at some brightness (R187, R188). -/
theorem exec_frame_command {i : Instr} {fptr flen : Word32} {br : Byte} (s : State)
    (h : i = .update fptr flen ∨ i = .updateb fptr flen br) :
    ∃ level, jobOf i s = some (.send (.mem fptr) level) ∧ exec i s = sendFrame fptr flen level s := by
  rcases h with rfl | rfl
  · exact ⟨s.bright, rfl, rfl⟩
  · exact ⟨br, rfl, rfl⟩

/-- Settles O52: the frame's job comes to wait in `ENCODE`, and encoding again changes nothing. -/
theorem unadmittedByteStallsForever : Obligations.UnadmittedByteStallsForever := by
  intro s cw racing rest fptr flen br k hbusy hidle hinit hport hword hchecked hk hadm
  obtain ⟨i, hd, hi⟩ : ∃ i, decode cw = .legal i ∧ (i = .update fptr flen ∨ i = .updateb fptr flen br) :=
    hword.elim (fun h => ⟨_, h, .inl rfl⟩) fun h => ⟨_, h, .inr rfl⟩
  obtain ⟨level, hjob, hexec⟩ := exec_frame_command (accept ⟨cw, racing⟩ rest s) hi
  have hcur : currentJob (startTransmit (accept ⟨cw, racing⟩ rest s)) = some (.send (.mem fptr) level) :=
    calc currentJob (startTransmit (accept ⟨cw, racing⟩ rest s))
        = currentJob (accept ⟨cw, racing⟩ rest s) := currentJob_congr rfl rfl rfl
      _ = jobOf i (accept ⟨cw, racing⟩ rest s) := currentJob_accept hd rest s
      _ = some (.send (.mem fptr) level) := hjob
  have hunread : (readFrame (startTransmit (accept ⟨cw, racing⟩ rest s)) (.mem fptr)).length < s.params.ledCount :=
    readFrame_length_lt_of_unadmitted (s := startTransmit (accept ⟨cw, racing⟩ rest s)) hk hadm
  have hstop : exec i (accept ⟨cw, racing⟩ rest s) =
      .next (encodeFrame (startTransmit (accept ⟨cw, racing⟩ rest s)) (.mem fptr) level).1 := by
    rw [hexec]
    exact sendFrame_unread hinit hchecked hunread
  exact ⟨_, step_accepts_to_encode ((accepts_iff s).mpr ⟨hbusy, hidle⟩) hport hd hstop rfl, rfl, rfl, rfl, rfl, rfl, rfl, rfl,
    step_unread (job := .send (.mem fptr) level) rfl hcur hunread⟩

end Sys2Proof.Machine
end

section
/-! The reserved opcodes of the command word (spec/30_encoding.md R80, R83): the bytes to which the opcode map gives no opcode, and
the one way a word is illegal for its opcode. -/

namespace Sys2Proof

/-- The bytes that the opcode map leaves out (R83). -/
theorem opcodeOfByte_eq_none_iff (b : BitVec 8) : opcodeOfByte b = none ↔
    b.toNat = 0 ∨ (0x0A ≤ b.toNat ∧ b.toNat ≤ 0x0F) ∨ 0x19 ≤ b.toNat := by
  constructor
  · intro hnone
    unfold opcodeOfByte at hnone
    split at hnone
    case h_19 => -- the default branch, the only one that gives no opcode
      simp only [imp_false] at *
      omega
    all_goals nomatch hnone
  · intro hreserved
    refine Option.eq_none_iff_forall_ne_some.mpr fun o hsome => ?_
    have hb : b.toNat = (opcodeByte o).toNat := congrArg BitVec.toNat (eq_opcodeByte_of_opcodeOfByte hsome)
    cases o <;> simp only [opcodeByte, BitVec.reduceToNat] at hb <;> omega

/-- A word is illegal for its opcode when the opcode map has none for it; a word with an opcode is legal, or illegal for its
must-be-zero bits (R81). -/
theorem decode_eq_reservedOpcode_iff (cw : CommandWord) :
    decode cw = .illegal .reservedOpcode ↔ opcodeOfByte (fieldsOf cw).op = none := by
  unfold decode
  cases opcodeOfByte (fieldsOf cw).op with
  | none => simp
  | some o =>
    dsimp only
    split <;> simp

/-- Settles O3: a word is illegal for its opcode just when the map has none for its low byte, whatever its other bits. -/
theorem reservedOpcodesAreIllegal : Obligations.ReservedOpcodesAreIllegal := fun cw =>
  (decode_eq_reservedOpcode_iff cw).trans (opcodeOfByte_eq_none_iff (fieldsOf cw).op)

end Sys2Proof
end

section
/-! PROOFS. A command's word decodes to the command (spec/30_encoding.md R80 to R82): what `decode` makes of a word of a known
opcode whose must-be-zero bits are clear, and so of the word of a command. -/

namespace Sys2Proof

/-- R81: past the opcode and the must-be-zero bits, a word decodes to its operands. -/
theorem decode_eq_legal_operandsOf {cw : CommandWord} {o : Opcode} (hop : (fieldsOf cw).op = opcodeByte o)
    (hmbz : cw &&& mbzMask (opcodeFormat o) = 0) : decode cw = .legal (operandsOf o (fieldsOf cw)) := by
  simp only [decode, hop, opcodeOfByte_opcodeByte, if_pos hmbz]

/-- R74 to R78: the operands read from a command's fields are the command's. -/
theorem operandsOf_encodeFields (i : Instr) : operandsOf i.opcode (encodeFields i) = i := by
  cases i <;> simp [operandsOf, encodeFields, Instr.opcode]

/-- A command's word that carries the command's opcode, and no bit that must be zero, decodes to the command. -/
theorem decode_encode_of_fields (i : Instr) (hop : Laws.OpcodeField.Statement i) (hmbz : Laws.MustBeZero.Statement i) :
    decode (encode i) = .legal i :=
  calc decode (encode i) = .legal (operandsOf i.opcode (fieldsOf (encode i))) := decode_eq_legal_operandsOf hop hmbz
    _ = .legal i := by rw [encode, fieldsOf_packFields, operandsOf_encodeFields]

end Sys2Proof
end

section
/-! PROOFS. The bytes of a 32-bit word, as a pixel result and as a hexadecimal word (spec/40_color_model.md R101, R112 to R115). -/

namespace Sys2Proof.Machine

/-! ## Four bytes in a row -/

theorem extractByte3_append (a b c d : Byte) : (a ++ b ++ c ++ d : Word32).extractLsb' 24 8 = a :=
  (BitVec.extractLsb'_append_eq_of_le (xhi := a ++ b ++ c) (xlo := d) (by decide)).trans (tripleA_append a b c)

theorem extractByte2_append (a b c d : Byte) : (a ++ b ++ c ++ d : Word32).extractLsb' 16 8 = b :=
  (BitVec.extractLsb'_append_eq_of_le (xhi := a ++ b ++ c) (xlo := d) (by decide)).trans (tripleB_append a b c)

theorem extractByte1_append (a b c d : Byte) : (a ++ b ++ c ++ d : Word32).extractLsb' 8 8 = c :=
  (BitVec.extractLsb'_append_eq_of_le (xhi := a ++ b ++ c) (xlo := d) (by decide)).trans (tripleC_append a b c)

theorem extractByte0_append (a b c d : Byte) : (a ++ b ++ c ++ d : Word32).extractLsb' 0 8 = d :=
  BitVec.extractLsb'_append_eq_right (a := a ++ b ++ c)

/-- A word is its four bytes in a row. -/
theorem word_eq_append (w : Word32) :
    w.extractLsb' 24 8 ++ w.extractLsb' 16 8 ++ w.extractLsb' 8 8 ++ w.extractLsb' 0 8 = w := by
  have h21 : w.extractLsb' 24 8 ++ w.extractLsb' 16 8 = w.extractLsb' 16 16 :=
    BitVec.extractLsb'_append_extractLsb'_eq_extractLsb' rfl
  have h10 : w.extractLsb' 16 16 ++ w.extractLsb' 8 8 = w.extractLsb' 8 24 :=
    BitVec.extractLsb'_append_extractLsb'_eq_extractLsb' rfl
  have h00 : w.extractLsb' 8 24 ++ w.extractLsb' 0 8 = w.extractLsb' 0 32 :=
    BitVec.extractLsb'_append_extractLsb'_eq_extractLsb' rfl
  rw [h21, h10, h00]
  exact BitVec.extractLsb'_eq_self

/-! ## Pixel results and hexadecimal words -/

/-- A pixel result carries its pixel (R101). -/
theorem pixelOfResult_pixres (p : Pixel) : pixelOfResult (pixres p) = p := by
  simp only [pixelOfResult, pixres, extractByte2_append, extractByte1_append, extractByte0_append]

/-- The shifts and disjunctions of R113 put red, green and blue in a row, under a zero byte. -/
theorem hexWord_eq_append (a : Pixel) : hexWord a = (0 : BitVec 8) ++ a.r ++ a.g ++ a.b := by
  rw [← BitVec.setWidth_eq ((0 : BitVec 8) ++ a.r ++ a.g ++ a.b),
    BitVec.setWidth_append_append_append_eq_shiftLeft_setWidth_or]
  simp [hexWord]

/-- The pixel of a hexadecimal word, whatever its top byte (R114). -/
theorem pixelOfHex_append (top r g b : Byte) : pixelOfHex (top ++ r ++ g ++ b) = { g := g, r := r, b := b } := by
  simp only [pixelOfHex, extractByte2_append, extractByte1_append, extractByte0_append]

theorem pixelOfHex_hexWord (a : Pixel) : pixelOfHex (hexWord a) = a := by
  rw [hexWord_eq_append, pixelOfHex_append]

/-- `HEXV` of the pixel of a word clears the word's top byte, so it gives the word back where that byte is zero (R115). -/
theorem hexWord_pixelOfHex_eq_iff (w : Word32) : hexWord (pixelOfHex w) = w ↔ w.extractLsb' 24 8 = 0 :=
  calc hexWord (pixelOfHex w) = w
      ↔ (0 : BitVec 8) ++ w.extractLsb' 16 8 ++ w.extractLsb' 8 8 ++ w.extractLsb' 0 8 =
          w.extractLsb' 24 8 ++ w.extractLsb' 16 8 ++ w.extractLsb' 8 8 ++ w.extractLsb' 0 8 := by
        rw [word_eq_append, hexWord_eq_append]; rfl
    _ ↔ (0 : BitVec 8) = w.extractLsb' 24 8 := by
        rw [BitVec.append_left_inj, BitVec.append_left_inj, BitVec.append_left_inj]
    _ ↔ w.extractLsb' 24 8 = 0 := eq_comm

end Sys2Proof.Machine
end

section
/-! PROOFS. The Color Model commands (spec/40_color_model.md R100 to R123): the answer of each as a function of its operands and the
parameters, and the statements on each command. -/

namespace Sys2Proof.Machine

/-! ## The answer of a Color Model command -/

/-- The code and the value of `GAMMA` (R118, R119, R122). -/
def gammaAnswer (p : Params) (a : Pixel) (pattern : Word64) : Status × Word32 :=
  if pattern ≠ gamma22 ∧ gammaInDomain pattern = false then (.invalidParameter, 0)
  else (.ok, pixres (a.map (gammaChannel p pattern)))

/-- The code and the value a Color Model command answers, from its operands and the parameters alone (R100); none for a driver
command. -/
def colorAnswer (p : Params) : Instr → Option (Status × Word32)
  | .mkpix r g b => some (.ok, pixres ⟨g, r, b⟩)
  | .mkpixb r g b br => some (.ok, pixres (scalePixel ⟨g, r, b⟩ br))
  | .wheel h => some (.ok, pixres (wheel h))
  | .hsv h sat v => some (.ok, pixres (hsvPixel p h sat v))
  | .hue a => some (.ok, zext32 (hueOf p a))
  | .hexv a => some (.ok, hexWord a)
  | .fromhex w => some (.ok, pixres (pixelOfHex w))
  | .blend a b amount => some (.ok, pixres (blendPixel a b amount))
  | .gamma a pattern => some (gammaAnswer p a pattern)
  | _ => none

/-- A Color Model command ends at once with its answer, and nothing but `RESULT` and `STATUS` is written (R100). -/
theorem exec_of_colorAnswer {i : Instr} {s : State} {code : Status} {value : Word32}
    (h : colorAnswer s.params i = some (code, value)) : exec i s = .next (finish code value s) := by
  cases i with
  | gamma a pattern =>
    simp only [colorAnswer, gammaAnswer] at h
    simp only [exec, execGamma]
    split at h <;> cases h
    · next hout => exact if_pos hout
    · next hin => exact if_neg hin
  | _ => cases h <;> rfl

/-- A command that answers OK, with the next state written out as R100 gives it. -/
theorem exec_ok_of_colorAnswer {i : Instr} {s : State} {value : Word32} (h : colorAnswer s.params i = some (.ok, value)) :
    exec i s = .next { s with status := 0x00, result := value } := exec_of_colorAnswer h

theorem result_of_colorAnswer {i : Instr} {s t : State} {code : Status} {value : Word32}
    (h : colorAnswer s.params i = some (code, value)) (ht : exec i s = .next t) : t.result = value := by
  cases (exec_of_colorAnswer h).symm.trans ht
  rfl

/-- Every Color Model command has an answer, whatever the parameters. -/
theorem exists_colorAnswer {i : Instr} (hi : isColorModel i = true) (p : Params) :
    ∃ code value, colorAnswer p i = some (code, value) := by
  cases i with
  | init | initpin | update | updateb | clear | destroy | isinit | setbr | getbr => cases hi
  | _ => exact ⟨_, _, rfl⟩

/-- The code is OK, but that `GAMMA` may raise INVALID_PARAMETER, with value 0 (R119). -/
theorem colorAnswer_code {i : Instr} {p : Params} {code : Status} {value : Word32} (h : colorAnswer p i = some (code, value)) :
    code = .ok ∨ (code = .invalidParameter ∧ value = 0 ∧ ∃ a pattern, i = .gamma a pattern) := by
  cases i with
  | gamma a pattern =>
    simp only [colorAnswer, gammaAnswer] at h
    split at h <;> cases h
    · exact .inr ⟨rfl, rfl, a, pattern, rfl⟩
    · exact .inl rfl
  | _ => cases h <;> exact .inl rfl

/-- Settles O7: the code and the value are the command's answer, which is a function of its operands and the parameters. -/
theorem colorModelIsAPureFunction : Obligations.ColorModelIsAPureFunction := by
  intro i p hi
  obtain ⟨code, value, h⟩ := exists_colorAnswer hi p
  refine ⟨code.code, value, ?_, fun s hs => exec_of_colorAnswer (hs ▸ h)⟩
  obtain rfl | ⟨rfl, hvalue, hgamma⟩ := colorAnswer_code h
  · exact .inl rfl
  · exact .inr ⟨rfl, hvalue, hgamma⟩

/-! ## Pixels from channels: `MKPIX`, `MKPIXB`, `WHEEL` -/

/-- Settles O8: the command packs the pixel of its triple, whose green is the second operand. -/
theorem mkpixReordersToStorageOrder : Obligations.MkpixReordersToStorageOrder := fun r g b _ =>
  ⟨decode_encode_of_fields (.mkpix r g b) (Laws.OpcodeField.mkpix r g b) (Laws.MustBeZero.mkpix r g b),
    exec_ok_of_colorAnswer rfl⟩

/-- Settles O10: the answer is the scaled pixel of the triple, a function of the operands alone. -/
theorem mkpixbScalesEachChannel : Obligations.MkpixbScalesEachChannel := fun r g b br _ =>
  ⟨decode_encode_of_fields (.mkpixb r g b br) (Laws.OpcodeField.mkpixb r g b br) (Laws.MustBeZero.mkpixb r g b br),
    exec_ok_of_colorAnswer rfl⟩

/-- Hue 0 to 84: red rises as green falls (R105). -/
theorem wheel_first_band {h : Byte} (hlt : h.toNat < 85) :
    wheel h = { r := rampUp h.toNat, g := rampDown h.toNat, b := 0 } := if_pos hlt

/-- Hue 85 to 169: blue rises as red falls (R105). -/
theorem wheel_second_band {h : Byte} (hge : 85 ≤ h.toNat) (hlt : h.toNat < 170) :
    wheel h = { r := rampDown (h.toNat - 85), g := 0, b := rampUp (h.toNat - 85) } :=
  (if_neg (Nat.not_lt.mpr hge)).trans (if_pos hlt)

/-- Hue 170 to 255: green rises as blue falls (R105). -/
theorem wheel_third_band {h : Byte} (hge : 170 ≤ h.toNat) :
    wheel h = { r := 0, g := rampUp (h.toNat - 170), b := rampDown (h.toNat - 170) } :=
  (if_neg (by omega)).trans (if_neg (by omega))

/-- A rising ramp within a band, its offset an integer, as the residue R105 names. -/
theorem rampUp_toInt {o : Nat} {x : ℤ} (hle : o ≤ 85) (hx : (o : ℤ) = x) : ((rampUp o).toNat : ℤ) = x * 3 % 256 := by
  rw [rampUp_toNat hle]; omega

/-- A falling ramp within a band, its offset an integer, as the residue R105 names. -/
theorem rampDown_toInt {o : Nat} {x : ℤ} (hle : o ≤ 85) (hx : (o : ℤ) = x) :
    ((rampDown o).toNat : ℤ) = (255 - x * 3) % 256 := by
  rw [rampDown_toNat hle]; omega

/-- Settles O11: band by band, each ramp is the residue of R105. -/
theorem wheelFollowsItsThreeRamps : Obligations.WheelFollowsItsThreeRamps := by
  intro h s
  refine ⟨decode_encode_of_fields (.wheel h) (Laws.OpcodeField.wheel h) (Laws.MustBeZero.wheel h), wheel h,
    exec_ok_of_colorAnswer rfl, fun hlt => ?_, fun hge hlt => ?_, fun hge => ?_⟩
  · rw [wheel_first_band hlt]
    exact ⟨rampUp_toInt hlt.le rfl, rampDown_toInt hlt.le rfl, rfl⟩
  · rw [wheel_second_band hge hlt]
    have hle : h.toNat - 85 ≤ 85 := by omega
    exact ⟨rampDown_toInt hle (Nat.cast_sub hge), rfl, rampUp_toInt hle (Nat.cast_sub hge)⟩
  · rw [wheel_third_band hge]
    have hle : h.toNat - 170 ≤ 85 := Nat.sub_le_sub_right (byte_le h) 170
    exact ⟨rfl, rampUp_toInt hle (Nat.cast_sub hge), rampDown_toInt hle (Nat.cast_sub hge)⟩

/-! ## `HUE`, `HEXV`, `FROMHEX` and `BLEND` -/

/-- Settles O13: the byte is `hueOf` of the parameters and the pixel. -/
theorem hueIsZeroOnGreyAndAByteElsewhere : Obligations.HueIsZeroOnGreyAndAByteElsewhere :=
  ⟨fun a => decode_encode_of_fields (.hue a) (Laws.OpcodeField.hue a) (Laws.MustBeZero.hue a),
    hueOf, fun _ _ => ⟨exec_ok_of_colorAnswer rfl, fun hgrey => if_pos hgrey⟩⟩

/-- Settles O14: the hexadecimal word is its three channels in a row. -/
theorem hexvPacksRedGreenBlue : Obligations.HexvPacksRedGreenBlue := by
  intro a s
  refine ⟨decode_encode_of_fields (.hexv a) (Laws.OpcodeField.hexv a) (Laws.MustBeZero.hexv a), ?_⟩
  rw [← hexWord_eq_append]
  exact exec_ok_of_colorAnswer rfl

/-- Settles O15: the pixel of four bytes in a row does not depend on the first. -/
theorem fromhexUnpacksAndIgnoresTopByte : Obligations.FromhexUnpacksAndIgnoresTopByte := by
  intro top r g b s
  refine ⟨decode_encode_of_fields (.fromhex _) (Laws.OpcodeField.fromhex _) (Laws.MustBeZero.fromhex _), ?_⟩
  have hanswer : colorAnswer s.params (.fromhex (top ++ r ++ g ++ b)) = some (.ok, pixres { g := g, r := r, b := b }) := by
    rw [← pixelOfHex_append top r g b]; rfl
  exact exec_ok_of_colorAnswer hanswer

/-- Settles O16: unpacking inverts packing, and packing inverts unpacking where the top byte is zero. -/
theorem hexRoundTripIsExact : Obligations.HexRoundTripIsExact := by
  refine ⟨fun a s t ht => ?_, fun w s t ht => ?_⟩
  · have hpixel : pixelOfHex t.result = a := by rw [result_of_colorAnswer rfl ht, pixelOfHex_hexWord]
    exact ⟨_, exec_ok_of_colorAnswer rfl, rfl, congrArg pixres hpixel⟩
  · have hword : hexWord (pixelOfResult t.result) = w ↔ w.extractLsb' 24 8 = 0 := by
      rw [result_of_colorAnswer rfl ht, pixelOfResult_pixres, hexWord_pixelOfHex_eq_iff]
    exact ⟨_, exec_ok_of_colorAnswer rfl, rfl, hword⟩

/-- Settles O17: a mixed channel never exceeds 255, so narrowing it cuts nothing. -/
theorem blendInterpolatesEachChannel : Obligations.BlendInterpolatesEachChannel := fun a b m _ =>
  ⟨decode_encode_of_fields (.blend a b m) (Laws.OpcodeField.blend a b m) (Laws.MustBeZero.blend a b m), blendPixel a b m,
    exec_ok_of_colorAnswer rfl, mix_toNat a.g b.g m, mix_toNat a.r b.r m, mix_toNat a.b b.b m⟩

/-! ## `GAMMA` -/

/-- With the pattern of 2.2 each channel goes through the table, and the domain is not asked (R118, R120). -/
theorem gammaAnswer_gamma22 (p : Params) (a : Pixel) :
    gammaAnswer p a gamma22 = (.ok, pixres (a.map fun c => p.gammaLut.get c.toFin)) := by
  have hchannel : gammaChannel p gamma22 = fun c => p.gammaLut.get c.toFin := funext fun _ => if_pos rfl
  rw [gammaAnswer, if_neg fun hout => hout.1 rfl, hchannel]

/-- With any other pattern the table is not read (R118). -/
theorem gammaAnswer_gammaLut {pattern : Word64} (hne : pattern ≠ gamma22) (p : Params) (a : Pixel) (lut : Vector Byte 256) :
    gammaAnswer { p with gammaLut := lut } a pattern = gammaAnswer p a pattern := by
  have hchannel (q : Params) : gammaChannel q pattern = gammaPow q pattern := funext fun _ => if_neg hne
  rw [gammaAnswer, gammaAnswer, hchannel, hchannel]
  rfl

/-- Settles O19: the lookup path's answer, and the other paths' independence of the table. -/
theorem gammaLookupPathReadsTheTable : Obligations.GammaLookupPathReadsTheTable := by
  intro a s
  refine ⟨exec_ok_of_colorAnswer (congrArg some (gammaAnswer_gamma22 s.params a)), fun pattern hne lut => ?_⟩
  obtain ⟨code, value, hanswer⟩ := exists_colorAnswer (i := .gamma a pattern) rfl s.params
  have hlut : colorAnswer { s.params with gammaLut := lut } (.gamma a pattern) = some (code, value) :=
    (congrArg some (gammaAnswer_gammaLut hne s.params a lut)).trans hanswer
  exact ⟨code.code, value, exec_of_colorAnswer hanswer, exec_of_colorAnswer hlut⟩

end Sys2Proof.Machine
end

section
/-! PROOFS. Where each symbol of a frame stands in `SYMBUF` (spec/41_frame_encoder.md R151 to R153): pixels lie 12 bytes apart,
channels 4 bytes apart within a pixel, and the groups of a channel follow one another. -/

namespace Sys2Proof.Machine

/-- Where every block of a `flatMap` has `n` items, item `j` of the block of entry `i` stands at `n * i + j`. -/
theorem getElem?_flatMap_of_length_eq {α β : Type} {f : α → List β} {n : Nat} (hlen : ∀ x, (f x).length = n)
    {xs : List α} {i j : Nat} {x : α} (hx : xs[i]? = some x) (hj : j < n) :
    (xs.flatMap f)[n * i + j]? = (f x)[j]? := by
  induction xs generalizing i with
  | nil => cases hx
  | cons y ys ih =>
    cases i with
    | zero =>
      obtain rfl : y = x := Option.some.inj hx
      rw [List.flatMap_cons, Nat.mul_zero, Nat.zero_add, List.getElem?_append_left (by rwa [hlen])]
    | succ i =>
      have hskip : n * (i + 1) + j = (f y).length + (n * i + j) := by rw [hlen, Nat.mul_succ]; omega
      rw [List.flatMap_cons, hskip, List.getElem?_append_right (Nat.le_add_right ..), Nat.add_sub_cancel_left]
      exact ih hx

/-- Symbol `k` of a channel is the symbol of its group `k` (R152). -/
theorem channelSymbols_getElem? (p : Params) (c : Byte) {k : Nat} (hk : k < 4) :
    (channelSymbols p c)[k]? = some (symbolByte p (symbolGroup c k)) :=
  calc (channelSymbols p c)[k]?
      = (List.range 4)[k]?.map fun k => symbolByte p (symbolGroup c k) := List.getElem?_map
    _ = some (symbolByte p (symbolGroup c k)) := by rw [List.getElem?_range hk, Option.map_some]

/-- Symbol `k` of channel `ch` of a pixel whose scaled channel `ch` is `c` (R151, R152). -/
theorem pixelSymbols_getElem? (p : Params) {br c : Byte} {px : Pixel} {ch k : Nat}
    (hc : (scalePixel px br).channels[ch]? = some c) (hk : k < 4) :
    (pixelSymbols p br px)[4 * ch + k]? = some (symbolByte p (symbolGroup c k)) :=
  (getElem?_flatMap_of_length_eq (channelSymbols_length p) hc hk).trans (channelSymbols_getElem? p c hk)

/-- The twelve symbols of pixel `i` stand from `12 * i` on (R152, R153). -/
theorem frameSymbols_getElem? (p : Params) (br : Byte) {pixels : List Pixel} {i j : Nat} {px : Pixel}
    (hpx : pixels[i]? = some px) (hj : j < 12) :
    (frameSymbols p br pixels)[12 * i + j]? = (pixelSymbols p br px)[j]? :=
  getElem?_flatMap_of_length_eq (pixelSymbols_length p br) hpx hj

/-- Settles O25: the index splits into the pixel's block, the channel's block within it and the group within that. -/
theorem symbolLayoutIsByPixelChannelGroup : Obligations.SymbolLayoutIsByPixelChannelGroup := by
  intro p br pixels i ch k px c hlen hpx hch hk
  have hlt : ch < 3 := by omega
  have hscaled : (scalePixel px br).channels[ch]? = some (scale c br) := by
    obtain ⟨rfl, rfl⟩ | ⟨rfl, rfl⟩ | ⟨rfl, rfl⟩ := hch <;> rfl
  have hsymbol : (frameSymbols p br pixels)[12 * i + 4 * ch + k]? = some (symbolByte p (symbolGroup (scale c br) k)) := by
    rw [Nat.add_assoc, frameSymbols_getElem? p br hpx (by omega), pixelSymbols_getElem? p hscaled hk]
  rw [encodedBuffer_full hlen, List.getElem?_map, hsymbol]
  rfl

end Sys2Proof.Machine
end

section
/-! PROOFS. The driver commands on an UNINITIALIZED block, and the read of the flag that tells it (spec/42_serializer_driver.md
R182, R186 to R191; spec/60_exceptions.md R223). -/

namespace Sys2Proof.Machine

/-! ## The flag -/

/-- `ISINIT` ends at once with the flag as a word, and nothing but `RESULT` and `STATUS` is written (R191). -/
theorem exec_isinit (s : State) : exec .isinit s = .next (finish .ok (flagWord s.init) s) := rfl

/-- Settles O39: the command answers the flag's word in every driver state. -/
theorem isinitReadsTheFlag : Obligations.IsinitReadsTheFlag := fun s =>
  ⟨decode_encode_of_fields .isinit Laws.OpcodeField.isinit Laws.MustBeZero.isinit, exec_isinit s⟩

/-! ## The precondition of the commands that transmit -/

/-- A frame is refused before its operand is checked (R182, R186, R223). -/
theorem sendFrame_uninitialized {s : State} (hi : s.init = false) (fptr flen : Word32) (br : Byte) :
    sendFrame fptr flen br s = .next (raise .notInitialized s) := if_pos hi

theorem execClear_uninitialized {s : State} (hi : s.init = false) : execClear s = .next (raise .notInitialized s) := if_pos hi

/-- `DESTROY` has nothing to tear down, and is not refused (R190). -/
theorem execDestroy_uninitialized {s : State} (hi : s.init = false) : execDestroy s = .next (finish .ok 0 s) := if_pos hi

/-- Settles O42: UPDATE and UPDATEB both send a frame, and every brightness is refused alike. -/
theorem transmissionNeedsInit : Obligations.TransmissionNeedsInit := fun s fptr flen br hi =>
  ⟨sendFrame_uninitialized hi fptr flen s.bright, sendFrame_uninitialized hi fptr flen br, execClear_uninitialized hi,
    execDestroy_uninitialized hi⟩

end Sys2Proof.Machine
end

section
/-! PROOFS. The exceptions of the block (spec/60_exceptions.md R221, R224, R226): every way a command can be
performed, the codes with which it can end, and from these what alone can raise `INIT_ERROR`, `NO_MEMORY` and `ILLEGAL_COMMAND`. -/

namespace Sys2Proof.Machine

/-! ## An illegal word -/

/-- An illegal word raises `ILLEGAL_COMMAND` (R81, R224). -/
theorem runWord_illegal {cw : CommandWord} {why : DecodeError} (h : decode cw = .illegal why) (s : State) :
    runWord cw s = .next (raise .illegalCommand s) := by
  simp only [runWord, h]

/-- A step of a block at rest whose oldest word ends at once (R72, R73). -/
theorem step_accepts_to_end {s u : State} {p : Presented} {rest : List Presented} (ha : s.accepts = true)
    (hport : s.port = p :: rest) (hw : runWord p.word (accept p rest s) = .next u) (hu : u.accepts = true) :
    step s = .next (respond u) := by
  simp only [step, portStep, ha, hport, hw, settlePort, hu, if_true]

/-- Settles O6: the exception is one write of `STATUS` and `RESULT`, and the step adds the response and the host's writes. -/
theorem illegalWordRaisesIllegalCommand : Obligations.IllegalWordRaisesIllegalCommand := by
  intro s cw why hd
  refine ⟨runWord_illegal hd s, fun racing rest hbusy hidle hport => ?_⟩
  have ha : s.accepts = true := (accepts_iff s).mpr ⟨hbusy, hidle⟩
  exact ⟨_, step_accepts_to_end ha hport (runWord_illegal hd _) ha, rfl,
    fun a hrace => read_applyRacing_other s.mem racing hrace⟩

/-! ## `INIT` and `INITPIN` -/

/-- The commands that start by acquiring the adapter are `INIT` and `INITPIN` (R184, R185). -/
theorem init_of_hasJob_start {i : Instr} {s : State} {pin : Byte} (h : hasJob i s (.start pin)) :
    i = .init ∨ ∃ pin, i = .initpin pin := by
  cases i <;> simp [hasJob] at h ⊢

/-- Both are `init_common`, on the pin of their job (R184, R185). -/
theorem exec_of_hasJob_start {i : Instr} {s : State} {pin : Byte} (h : hasJob i s (.start pin)) :
    exec i s = initCommon pin s := by
  cases i <;> simp [hasJob] at h
  case init => rw [h]; rfl
  case initpin => rw [h]; rfl

theorem exists_hasJob_start {i : Instr} (h : i = .init ∨ ∃ pin, i = .initpin pin) (s : State) :
    ∃ pin, hasJob i s (.start pin) := by
  obtain rfl | ⟨pin, rfl⟩ := h
  · exact ⟨s.params.defaultPin, .inl ⟨rfl, rfl⟩⟩
  · exact ⟨pin, .inr (.inl ⟨pin, rfl, rfl⟩)⟩

/-- An allocation that does not proceed is one whose failure the platform draws (R226). -/
theorem not_allocationProceeds_iff (s : State) :
    ¬ allocationProceeds s ↔ s.params.nomemPossible = true ∧ s.answers.nomem.head? = some true := by
  simp only [allocationProceeds, not_or, Bool.not_eq_false, ne_eq, not_not]

theorem drawNoMemory_fails {s : State} (h : ¬ allocationProceeds s) :
    drawNoMemory s = (true, { s with answers := { s.answers with nomem := s.answers.nomem.tail } }) := by
  obtain ⟨hpossible, hdraw⟩ := (not_allocationProceeds_iff s).mp h
  obtain ⟨rest, hrest⟩ := List.head?_eq_some_iff.mp hdraw
  simp only [drawNoMemory, hpossible, hrest, if_true, List.tail_cons]

/-- A failed allocation raises `NO_MEMORY` before any adapter call (R226). -/
theorem initCommon_fails {pin : Byte} {s : State} (hi : s.init = false) (h : ¬ allocationProceeds s) :
    initCommon pin s =
      .next (raise .noMemory { s with answers := { s.answers with nomem := s.answers.nomem.tail } }) := by
  simp only [initCommon, hi, drawNoMemory_fails h, Bool.false_eq_true, if_false]

/-- On a READY block both are a success no-op (R184). -/
theorem initCommon_ready {pin : Byte} {s : State} (hi : s.init = true) : initCommon pin s = .next (finish .ok 0 s) := if_pos hi

/-- An `Acq` answered `err` is the one move of the job (R172, R221). -/
theorem runJob_acquire_err {pin : Byte} {s : State} {as : List AcqAnswer} (hp : s.phase = .acquire)
    (ha : s.answers.acq = .err :: as) :
    runJob (.start pin) s = .next { s with
      busy := false, phase := .idle, status := 0x01, result := 0
      trace := s.trace ++ [.acq pin s.params.sampleRateHz s.params.symbufLen .err]
      answers := { s.answers with acq := as } } :=
  (runMoves_to ((serializerMove_acquire hp).trans (acquireMove_err ha))).trans (runMoves_idle _ rfl)

/-! ## The commands that transmit -/

/-- A READY block refuses a frame that does not pass the checks (R186). -/
theorem sendFrame_unchecked {fptr flen : Word32} {br : Byte} {s : State} (hi : s.init = true)
    (hc : ¬ frameChecked s.params fptr flen) : sendFrame fptr flen br s = .next (raise .invalidParameter s) := by
  have hrefused : frameAccepted s.params fptr flen = false := by
    rwa [← Bool.not_eq_true, frameAccepted_iff]
  rw [sendFrame, if_neg (by simp [hi]), if_pos hrefused]

theorem execClear_ready {s : State} (hi : s.init = true) : execClear s = runJob (.send .zeros 0) (startTransmit s) :=
  if_neg (by simp [hi])

theorem execDestroy_ready {s : State} (hi : s.init = true) : execDestroy s = runJob .teardown (startTransmit s) :=
  if_neg (by simp [hi])

/-! ## Every way a command is performed -/

/-- The state in which a command starts its job: `INIT` and `INITPIN` after the allocation draw, in `ACQUIRE`, the others in
`ENCODE` (R175, R184). -/
def jobStart (job : Job) (s : State) : State :=
  match job with
  | .start _ => startAcquire { s with answers := { s.answers with nomem := nomemLeft s } }
  | .send _ _ => startTransmit s
  | .teardown => startTransmit s

theorem jobStart_not_idle (job : Job) (s : State) : (jobStart job s).phase ≠ .idle := by
  cases job <;> simp [jobStart]

@[simp] theorem jobStart_acq (job : Job) (s : State) : (jobStart job s).answers.acq = s.answers.acq := by
  cases job <;> rfl

/-- The codes of a command that ends without an allocation and without the adapter: OK, INVALID_PARAMETER (R222) and
NOT_INITIALIZED (R223). -/
def Status.isPlain : Status → Bool
  | .ok | .invalidParameter | .notInitialized => true
  | .initError | .peripheralError | .noMemory | .illegalCommand => false

/-- Every way a command is performed: it ends at once, having written no more than `STATUS`, `RESULT` and `BRIGHT`; or its
allocation fails; or it starts its job. -/
inductive Performed (i : Instr) (s : State) : Prop where
  | ended {code : Status} {value : Word32} {b : Byte} (plain : code.isPlain = true)
      (eq : exec i s = .next (finish code value { s with bright := b }))
  | allocationFails {pin : Byte} (job : hasJob i s (.start pin)) (uninitialized : s.init = false)
      (fails : ¬ allocationProceeds s)
      (eq : exec i s = .next (raise .noMemory { s with answers := { s.answers with nomem := s.answers.nomem.tail } }))
  | starts {job : Job} (row : startRow i s job (jobStart job s)) (eq : exec i s = runJob job (jobStart job s))

/-- A command that ends at once and writes only `STATUS` and `RESULT`. -/
theorem Performed.of_finish {i : Instr} {s : State} {code : Status} {value : Word32} (plain : code.isPlain = true)
    (eq : exec i s = .next (finish code value s)) : Performed i s :=
  .ended (b := s.bright) plain eq

theorem performed_of_start_job {i : Instr} {s : State} {pin : Byte} (hj : hasJob i s (.start pin)) : Performed i s := by
  have he := exec_of_hasJob_start hj
  cases hi : s.init with
  | true => exact .of_finish rfl (he.trans (initCommon_ready hi))
  | false =>
    by_cases hproceeds : allocationProceeds s
    · exact .starts ⟨hj, hi, rfl⟩ (he.trans (initCommon_proceeds hi hproceeds))
    · exact .allocationFails hj hi hproceeds (he.trans (initCommon_fails hi hproceeds))

theorem performed_of_sendFrame {i : Instr} {s : State} {fptr flen : Word32} {br : Byte}
    (hj : hasJob i s (.send (.mem fptr) br)) (he : exec i s = sendFrame fptr flen br s) : Performed i s := by
  cases hi : s.init with
  | false => exact .of_finish rfl (he.trans (sendFrame_uninitialized hi fptr flen br))
  | true =>
    by_cases hchecked : frameChecked s.params fptr flen
    · exact .starts ⟨hj, hi, rfl⟩ (he.trans (sendFrame_checked hi hchecked))
    · exact .of_finish rfl (he.trans (sendFrame_unchecked hi hchecked))

theorem performed_of_colorModel {i : Instr} (hi : isColorModel i = true) (s : State) : Performed i s := by
  obtain ⟨code, value, h⟩ := exists_colorAnswer hi s.params
  refine .of_finish ?_ (exec_of_colorAnswer h)
  obtain rfl | ⟨rfl, -⟩ := colorAnswer_code h <;> rfl

theorem exec_performed (i : Instr) (s : State) : Performed i s := by
  by_cases hc : isColorModel i = true
  · exact performed_of_colorModel hc s
  · cases i with
    | init => exact performed_of_start_job (.inl ⟨rfl, rfl⟩)
    | initpin pin => exact performed_of_start_job (.inr (.inl ⟨pin, rfl, rfl⟩))
    | update fptr flen => exact performed_of_sendFrame (jobOf_eq_some.mp rfl) rfl
    | updateb fptr flen br => exact performed_of_sendFrame (jobOf_eq_some.mp rfl) rfl
    | clear =>
      cases hi : s.init with
      | false => exact .of_finish rfl (execClear_uninitialized hi)
      | true => exact .starts ⟨jobOf_eq_some.mp rfl, hi, rfl⟩ (execClear_ready hi)
    | destroy =>
      cases hi : s.init with
      | false => exact .of_finish rfl (execDestroy_uninitialized hi)
      | true => exact .starts ⟨jobOf_eq_some.mp rfl, hi, rfl⟩ (execDestroy_ready hi)
    | isinit => exact .of_finish rfl (exec_isinit s)
    | setbr b => exact .ended (b := b) rfl rfl
    | getbr => exact .of_finish rfl rfl
    | _ => exact absurd rfl hc

/-! ## The code with which a command ends -/

/-- No two codes of R220 share a number. -/
theorem Status.code_injective {c c' : Status} (h : c.code = c'.code) : c = c' := by
  revert h
  cases c <;> cases c' <;> decide

/-- The job is about to fail at its `Acq` (R172). -/
def AcquireRefused (job : Job) (s : State) : Prop :=
  s.phase = .acquire ∧ s.answers.acq.head? = some .err ∧ ∃ pin, job = .start pin

/-- The codes with which a job that goes on from `s` can end (R171, R221, R225). -/
inductive JobCode (job : Job) (s : State) : Status → Prop where
  | ok : JobCode job s .ok
  | peripheralError : JobCode job s .peripheralError
  | initError (refused : AcquireRefused job s) : JobCode job s .initError

/-- A `transmit` that ends the command ends it with its result; the others go on to `RELEASE` (R175, R190). -/
theorem endTransmit_cases (job : Job) (r : Status) (s : State) :
    endTransmit job r s = endCommand r s ∨ (endTransmit job r s).phase = .release := by
  cases job with
  | start | send => exact .inl rfl
  | teardown => exact .inr rfl

/-- The move from `s` to `t` ends the command with one of its job's codes, or goes on to a phase past `ACQUIRE`. -/
def EndsOrGoesOn (job : Job) (s t : State) : Prop :=
  (t.phase = .idle ∧ ∃ code, t.status = code.code ∧ JobCode job s code) ∨ (t.phase ≠ .idle ∧ t.phase ≠ .acquire)

/-- Every move does (R171). -/
theorem move_to_endsOrGoesOn {job : Job} {s t : State} (h : serializerMove job s = .to t) : EndsOrGoesOn job s t := by
  have hend : ∀ r u, JobCode job s r → t = endTransmit job r u → EndsOrGoesOn job s t := by
    rintro r u hr rfl
    obtain he | he := endTransmit_cases job r u
    · exact .inl ⟨congrArg State.phase he, r, congrArg State.status he, hr⟩
    · exact .inr (by simp [he])
  rcases move_to_cases h with ⟨pin, hd, as, -, -, -, rfl⟩ | ⟨pin, as, hjob, hp, ha, rfl⟩ | ⟨-, -, rfl⟩ |
    ⟨bytes, w, ws, after, -, -, hafter, ⟨-, rfl⟩ | ⟨-, ht⟩⟩ | ⟨x, ds, -, -, ht⟩ | ⟨hd, -, -, rfl⟩
  · exact .inr (by simp)
  · exact .inl ⟨rfl, .initError, rfl, .initError ⟨hp, by rw [ha]; rfl, pin, hjob⟩⟩
  · exact .inr (by simp)
  · obtain ⟨-, -, rfl⟩ | ⟨-, -, rfl⟩ := hafter <;> exact .inr (by simp)
  · exact hend _ _ .peripheralError ht
  · exact hend _ _ .ok ht
  · exact .inl ⟨rfl, .ok, rfl, .ok⟩

/-- A move that waits leaves the phase as it is (R236). -/
theorem move_waits_phase {job : Job} {s t : State} (h : serializerMove job s = .waits t) : t.phase = s.phase := by
  rcases move_waits_cases h with ⟨rfl, -⟩ | ⟨-, -, rfl⟩ <;> rfl

theorem runMoves_code {n : Nat} {job : Job} {s t : State} (h : runMoves n job s = .next t) (hs : s.phase ≠ .idle)
    (ht : t.phase = .idle) : ∃ code, t.status = code.code ∧ JobCode job s code := by
  induction n generalizing s with
  | zero => cases h; exact absurd ht hs
  | succ n ih =>
    simp only [runMoves] at h
    split at h
    · next s' hm =>
      obtain ⟨hidle, hcode⟩ | ⟨hidle, hacquire⟩ := move_to_endsOrGoesOn hm
      · cases (runMoves_idle n hidle).symm.trans h
        exact hcode
      · obtain ⟨code, hstatus, hcode⟩ := ih h hidle
        refine ⟨code, hstatus, ?_⟩
        cases hcode with
        | ok => exact .ok
        | peripheralError => exact .peripheralError
        | initError refused => exact absurd refused.1 hacquire
    · next s' hm => cases h; exact absurd ((move_waits_phase hm).symm.trans ht) hs
    · cases h

/-- A job that started or goes on, and has ended, did so with one of its codes. -/
theorem runJob_code {job : Job} {s t : State} {code : Status} (h : runJob job s = .next t) (hs : s.phase ≠ .idle)
    (ht : t.phase = .idle) (hcode : t.status = code.code) : JobCode job s code := by
  obtain ⟨code', hstatus, hj⟩ := runMoves_code h hs ht
  cases Status.code_injective (hcode.symm.trans hstatus)
  exact hj

/-- The codes with which a command that starts in `s` can end (R220 to R226). -/
inductive EndCode (i : Instr) (s : State) : Status → Prop where
  | plain {code : Status} (h : code.isPlain = true) : EndCode i s code
  | peripheralError : EndCode i s .peripheralError
  | initError (command : i = .init ∨ ∃ pin, i = .initpin pin) (uninitialized : s.init = false)
      (refused : s.answers.acq.head? = some .err) : EndCode i s .initError
  | noMemory (command : i = .init ∨ ∃ pin, i = .initpin pin) (uninitialized : s.init = false)
      (fails : ¬ allocationProceeds s) : EndCode i s .noMemory

/-- A command that has ended did so with one of its codes. -/
theorem exec_code {i : Instr} {s t : State} {code : Status} (h : exec i s = .next t) (ht : t.phase = .idle)
    (hcode : t.status = code.code) : EndCode i s code := by
  cases exec_performed i s with
  | ended plain eq =>
    cases eq.symm.trans h
    cases Status.code_injective hcode
    exact .plain plain
  | allocationFails job uninitialized fails eq =>
    cases eq.symm.trans h
    cases Status.code_injective (c := .noMemory) hcode
    exact .noMemory (init_of_hasJob_start job) uninitialized fails
  | @starts job row eq =>
    cases runJob_code (eq.symm.trans h) (jobStart_not_idle job s) ht hcode with
    | ok => exact .plain rfl
    | peripheralError => exact .peripheralError
    | initError refused =>
      obtain ⟨-, hanswer, pin, rfl⟩ := refused
      obtain ⟨hjob, huninitialized, -⟩ := row
      exact .initError (init_of_hasJob_start hjob) huninitialized hanswer

/-! ## The code a step returns -/

theorem performs_accepted {s : State} {p : Presented} {rest : List Presented} {i : Instr} (ha : s.accepts = true)
    (hport : s.port = p :: rest) (hd : decode p.word = .legal i) : performs s i :=
  ⟨p, by simp [inHand, ha, hport], hd⟩

theorem performs_resumed {s : State} {p : Presented} {i : Instr} (ha : s.accepts = false) (hc : s.current = some p)
    (hd : decode p.word = .legal i) : performs s i :=
  ⟨p, by simp [inHand, ha, hc], hd⟩

/-- The codes with which a step from `s` can return a response: of a command just accepted, of one that went on, or of an
illegal word (R72, R73, R224). -/
inductive ResponseCode (s : State) (code : Status) : Prop where
  | accepted {i : Instr} {p : Presented} {rest : List Presented} (inHand : performs s i)
      (ends : EndCode i (accept p rest s) code)
  | resumed {i : Instr} {job : Job} (inHand : performs s i) (asks : hasJob i s job) (ends : JobCode job s code)
  | illegal (eq : code = .illegalCommand)

/-- In `IDLE` a job makes no move. -/
theorem runJob_idle {job : Job} {s t : State} (hs : s.phase = .idle) (h : runJob job s = .next t) : t = s := by
  cases (runMoves_idle maxMoves hs).symm.trans h
  rfl

/-- A step that returns a response does so with one of its codes. -/
theorem step_code {s t : State} {code : Status} (h : step s = .next t) (hr : t.responses ≠ s.responses)
    (hcode : t.status = code.code) : ResponseCode s code := by
  obtain rfl | ⟨u, hu, hdone⟩ := step_cases h
  · exact absurd rfl hr
  have houtside : u.responses = s.responses := by
    obtain ⟨p, rest, -, -, ⟨i, -, he⟩ | ⟨why, -, rfl⟩⟩ | ⟨p, i, job, -, -, -, -, he⟩ := hdone
    · exact (exec_outside he).responses
    · rfl
    · exact (runJob_outside he).responses
  obtain ⟨hends, rfl⟩ | ⟨-, rfl⟩ := hu
  · have hidle : u.phase = .idle := ((accepts_iff u).mp hends).2
    obtain ⟨p, rest, ha, hport, ⟨i, hd, he⟩ | ⟨why, hd, rfl⟩⟩ | ⟨p, i, job, ha, hc, hd, hj, he⟩ := hdone
    · exact .accepted (performs_accepted ha hport hd) (exec_code he hidle hcode)
    · exact .illegal (Status.code_injective (c' := .illegalCommand) hcode.symm)
    · have hs : s.phase ≠ .idle := fun hs => by
        rw [runJob_idle hs he, ha] at hends
        cases hends
      exact .resumed (performs_resumed ha hc hd) hj (runJob_code he hs hidle hcode)
  · exact absurd houtside hr

/-! ## `INIT_ERROR` and `NO_MEMORY` -/

/-- A block of the invariant that waits for its `Acq` is UNINITIALIZED (R39). -/
theorem Inv.init_of_acquire {s : State} (h : Inv s) (hp : s.phase = .acquire) : s.init = false := by
  have hph := h.phase
  simp only [phaseFits, hp] at hph
  obtain ⟨-, hinit, -⟩ := hph
  exact hinit

/-- An `INIT` or `INITPIN` whose `Acq` is answered `err` ends there (R221). -/
theorem exec_acquire_err {i : Instr} {s : State} {pin : Byte} {as : List AcqAnswer} (hj : hasJob i s (.start pin))
    (hi : s.init = false) (hproceeds : allocationProceeds s) (ha : s.answers.acq = .err :: as) :
    exec i s = .next { s with
      busy := false, phase := .idle, status := 0x01, result := 0
      trace := s.trace ++ [.acq pin s.params.sampleRateHz (12 * s.params.ledCount) .err]
      answers := ⟨as, s.answers.wr, s.answers.dly, nomemLeft s⟩ } :=
  calc exec i s = initCommon pin s := exec_of_hasJob_start hj
    _ = runJob (.start pin) (jobStart (.start pin) s) := initCommon_proceeds hi hproceeds
    _ = _ := runJob_acquire_err rfl ((jobStart_acq _ s).trans ha)

/-- Settles O31: the answer `err` is the one move of the job, and no other end of a command or of a job has the code. -/
theorem failedAcquireLeavesBlockUninitialized : Obligations.FailedAcquireLeavesBlockUninitialized := by
  refine ⟨fun s i pin as hi hproceeds ha hcommand => ?_, fun i s t h ht hs => ?_, fun s t hinv h hr hs => ?_⟩
  · have hj : hasJob i s (.start pin) := by
      obtain rfl | ⟨rfl, rfl⟩ := hcommand
      · exact .inr (.inl ⟨pin, rfl, rfl⟩)
      · exact .inl ⟨rfl, rfl⟩
    exact exec_acquire_err hj hi hproceeds ha
  · cases exec_code (code := .initError) h ht hs with
    | plain hplain => cases hplain
    | initError command uninitialized refused => exact ⟨uninitialized, refused, command⟩
  · cases step_code (code := .initError) h hr hs with
    | accepted inHand ends =>
      cases ends with
      | plain hplain => cases hplain
      | initError command uninitialized refused => exact ⟨_, inHand, uninitialized, refused, command⟩
    | resumed inHand asks ends =>
      cases ends with
      | initError refused =>
        obtain ⟨hacquire, hanswer, pin, rfl⟩ := refused
        exact ⟨_, inHand, hinv.init_of_acquire hacquire, hanswer, init_of_hasJob_start asks⟩
    | illegal eq => cases eq

/-- Settles O32: the failed draw ends the command at once, and no other end of a command or of a job has the code. -/
theorem noMemoryOnlyWherePossible : Obligations.NoMemoryOnlyWherePossible := by
  refine ⟨fun s i hcommand hi hpossible hdraw => ?_, fun i s t h ht hs => ?_, fun s t h hr hs => ?_⟩
  · obtain ⟨pin, hj⟩ := exists_hasJob_start hcommand s
    exact (exec_of_hasJob_start hj).trans (initCommon_fails hi ((not_allocationProceeds_iff s).mpr ⟨hpossible, hdraw⟩))
  · cases exec_code (code := .noMemory) h ht hs with
    | plain hplain => cases hplain
    | noMemory command uninitialized fails =>
      obtain ⟨hpossible, hdraw⟩ := (not_allocationProceeds_iff s).mp fails
      exact ⟨uninitialized, hpossible, hdraw, command⟩
  · cases step_code (code := .noMemory) h hr hs with
    | accepted inHand ends =>
      cases ends with
      | plain hplain => cases hplain
      | noMemory command uninitialized fails =>
        obtain ⟨hpossible, hdraw⟩ := (not_allocationProceeds_iff _).mp fails
        exact ⟨_, inHand, uninitialized, hpossible, hdraw, command⟩
    | resumed inHand asks ends => cases ends
    | illegal eq => cases eq

end Sys2Proof.Machine
end

section
/-! PROOFS. Reset (spec/70_reset_and_hazards.md R250): the state it leaves, whose symbol buffer is the one that the encoder starts
a frame with. -/

namespace Sys2Proof.Machine

/-- Reset leaves `SYMBUF` as the start of a frame does (R34, R250). -/
@[simp] theorem resetWith_symbuf (p : Params) : (State.resetWith p).symbuf = unwrittenBuffer p := rfl

theorem eq_none_of_mem_unwrittenBuffer {p : Params} {x : Option Byte} (hx : x ∈ unwrittenBuffer p) : x = none :=
  List.eq_of_mem_replicate hx

/-- Settles O56: `SYMBUF` is the unwritten buffer, and every other field is the one that `State.resetWith` lists. -/
theorem resetLeavesTheListedState : Obligations.ResetLeavesTheListedState := by
  intro p
  have hlength : (State.resetWith p).symbuf.length = 12 * p.ledCount := by
    rw [resetWith_symbuf, unwrittenBuffer_length, Params.symbufLen, Config.bytesPerPixel]
  have hunwritten : ∀ x ∈ (State.resetWith p).symbuf, x = none := by
    rw [resetWith_symbuf]
    exact fun _ => eq_none_of_mem_unwrittenBuffer
  exact ⟨rfl, rfl, rfl, rfl, rfl, rfl, rfl, rfl, rfl, hlength, hunwritten, rfl, rfl, rfl, rfl, rfl⟩

end Sys2Proof.Machine
end

section
/-! PROOFS. The command word (spec/30_encoding.md R71 to R85): every command's word decodes to the command, and no other word
does. -/

namespace Sys2Proof

/-! ## A command's word decodes to the command -/

theorem opcodeField_encode : ∀ i : Instr, Laws.OpcodeField.Statement i
  | .mkpix r g b => Laws.OpcodeField.mkpix r g b
  | .mkpixb r g b br => Laws.OpcodeField.mkpixb r g b br
  | .wheel h => Laws.OpcodeField.wheel h
  | .hsv h s v => Laws.OpcodeField.hsv h s v
  | .hue a => Laws.OpcodeField.hue a
  | .hexv a => Laws.OpcodeField.hexv a
  | .fromhex w => Laws.OpcodeField.fromhex w
  | .blend a b amount => Laws.OpcodeField.blend a b amount
  | .gamma a pattern => Laws.OpcodeField.gamma a pattern
  | .init => Laws.OpcodeField.init
  | .initpin pin => Laws.OpcodeField.initpin pin
  | .update fptr flen => Laws.OpcodeField.update fptr flen
  | .updateb fptr flen br => Laws.OpcodeField.updateb fptr flen br
  | .clear => Laws.OpcodeField.clear
  | .destroy => Laws.OpcodeField.destroy
  | .isinit => Laws.OpcodeField.isinit
  | .setbr b => Laws.OpcodeField.setbr b
  | .getbr => Laws.OpcodeField.getbr

theorem mustBeZero_encode : ∀ i : Instr, Laws.MustBeZero.Statement i
  | .mkpix r g b => Laws.MustBeZero.mkpix r g b
  | .mkpixb r g b br => Laws.MustBeZero.mkpixb r g b br
  | .wheel h => Laws.MustBeZero.wheel h
  | .hsv h s v => Laws.MustBeZero.hsv h s v
  | .hue a => Laws.MustBeZero.hue a
  | .hexv a => Laws.MustBeZero.hexv a
  | .fromhex w => Laws.MustBeZero.fromhex w
  | .blend a b amount => Laws.MustBeZero.blend a b amount
  | .gamma a pattern => Laws.MustBeZero.gamma a pattern
  | .init => Laws.MustBeZero.init
  | .initpin pin => Laws.MustBeZero.initpin pin
  | .update fptr flen => Laws.MustBeZero.update fptr flen
  | .updateb fptr flen br => Laws.MustBeZero.updateb fptr flen br
  | .clear => Laws.MustBeZero.clear
  | .destroy => Laws.MustBeZero.destroy
  | .isinit => Laws.MustBeZero.isinit
  | .setbr b => Laws.MustBeZero.setbr b
  | .getbr => Laws.MustBeZero.getbr

/-- Settles O1: a command's word carries its opcode and clears its must-be-zero bits, and its fields hold its operands. -/
theorem decodeInvertsEncode : Obligations.DecodeInvertsEncode := fun i =>
  decode_encode_of_fields i (opcodeField_encode i) (mustBeZero_encode i)

/-- The command of a worked word is read off the word the encoder writes for it. -/
theorem decode_eq_legal_of_encode_eq {cw : CommandWord} {i : Instr} (h : encode i = cw) : decode cw = .legal i :=
  h ▸ decodeInvertsEncode i

/-- Settles O4: each word is the encoding of its command, written out, and each line assembles to one of these. -/
theorem workedWordsDecode : Obligations.WorkedWordsDecode := by
  refine ⟨?_, ?_, ?_, ?_, ?_, ?_, ?_, ?_, ?_, ?_, by decide, by decide⟩ <;>
    exact decode_eq_legal_of_encode_eq (by decide)

/-! ## A legal word is its command's word -/

/-- What a legal word is: its byte names an opcode, the must-be-zero fields of the opcode's format are clear, and the command is
the one its operands make (R81). -/
theorem decode_eq_legal {cw : CommandWord} {i : Instr} (h : decode cw = .legal i) :
    ∃ o, (fieldsOf cw).op = opcodeByte o ∧ cw &&& mbzMask (opcodeFormat o) = 0 ∧ i = operandsOf o (fieldsOf cw) := by
  unfold decode at h
  split at h
  · cases h
  · next o hop =>
    split at h
    · next hmbz => cases h; exact ⟨o, eq_opcodeByte_of_opcodeOfByte hop, hmbz, rfl⟩
    · cases h

/-- A mask of a whole field clears no bit of it (R82). -/
theorem and_ones8 (x : BitVec 8) : x &&& 0xFF = x := BitVec.and_allOnes
theorem and_ones16 (x : BitVec 16) : x &&& 0xFFFF = x := BitVec.and_allOnes
theorem and_ones24 (x : BitVec 24) : x &&& 0xFFFFFF = x := BitVec.and_allOnes
theorem and_ones64 (x : BitVec 64) : x &&& 0xFFFFFFFFFFFFFFFF = x := BitVec.and_allOnes

/-- An extended operand whose high part must be zero is its low part, extended by zeros (R82). -/
theorem zero_append_of_and_eq_zero {w v : Nat} {x m : BitVec (w + v)} (hm : m = BitVec.allOnes w ++ (0 : BitVec v))
    (h : x &&& m = 0) : (0 : BitVec w) ++ x.extractLsb' 0 v = x := by
  have hx : x.extractLsb' v w ++ x.extractLsb' 0 v = x :=
    (BitVec.extractLsb'_append_extractLsb'_eq_extractLsb' (Nat.zero_add v).symm).trans BitVec.extractLsb'_eq_self
  have hhigh : x.extractLsb' v w = 0 := by
    have hlow : x.extractLsb' 0 v &&& (0 : BitVec v) = 0 := BitVec.and_zero
    rw [← hx, hm, BitVec.and_append, BitVec.and_allOnes, hlow] at h
    exact (BitVec.append_left_inj 0).mp (h.trans BitVec.zero_append_zero.symm)
  rw [← hhigh, hx]

/-- The hexadecimal word under zeros (R82). -/
theorem hexOperand_eta {x : BitVec 64} (h : x &&& 0xFFFFFFFF00000000 = 0) : 0#32 ++ x.extractLsb' 0 32 = x :=
  zero_append_of_and_eq_zero (by decide) h

/-- The second pixel of `BLEND` under zeros (R82). -/
theorem secondPixel_eta {x : BitVec 64} (h : x &&& 0xFFFFFFFFFF000000 = 0) : 0#40 ++ x.extractLsb' 0 24 = x :=
  zero_append_of_and_eq_zero (by decide) h

/-- The fields of a word whose opcode is `o` and whose must-be-zero bits are clear are those of the command its operands make:
each field is zero, or is the operands read from it (R74 to R78, R82). -/
theorem encodeFields_operandsOf {o : Opcode} {f : Fields} (hop : f.op = opcodeByte o)
    (hmbz : packFields f &&& mbzMask (opcodeFormat o) = 0) : encodeFields (operandsOf o f) = f := by
  obtain ⟨hs8, hz0, hp24, hz1, hx64⟩ := (and_mbzMask_eq_zero_iff f (opcodeFormat o)).mp hmbz
  obtain ⟨op, s8, z0, p24, z1, x64⟩ := f
  simp only at hop hs8 hz0 hp24 hz1 hx64
  subst hop
  cases o <;> simp only [opcodeFormat, mbzFields, and_ones8, and_ones16, and_ones24, and_ones64] at hs8 hz0 hp24 hz1 hx64
  case fromhex => simp [encodeFields, operandsOf, opcodeByte, hexOperand_eta hx64, *]
  case blend => simp [encodeFields, operandsOf, opcodeByte, pixelBits_pixelOfBits, secondPixel_eta hx64, *]
  all_goals simp [encodeFields, operandsOf, opcodeByte, triple_eta, pixelBits_pixelOfBits, frameOperand_eta, *]

/-- Settles O2: the word is its fields packed, and they are the fields of the command. -/
theorem legalWordIsItsEncoding : Obligations.LegalWordIsItsEncoding := by
  intro cw i h
  obtain ⟨o, hop, hmbz, rfl⟩ := decode_eq_legal h
  rw [encode, encodeFields_operandsOf hop (by rwa [packFields_fieldsOf]), packFields_fieldsOf]

end Sys2Proof
end

section
/-! PROOFS. Steps (spec/30_encoding.md R72, R73; spec/10_state.md R39): what a step does with the command in hand, the
invariant it keeps, and the one response it can return. -/

namespace Sys2Proof.Machine

/-! ## The command in hand -/

/-- A step of a block at rest with nothing presented (R250). -/
theorem step_no_command {s : State} (ha : s.accepts = true) (hport : s.port = []) : step s = .next s := by
  simp only [step, portStep, ha, hport, if_true]

/-- A step of a block at rest performs the oldest word presented (R73). -/
theorem step_accepts {s : State} {p : Presented} {rest : List Presented} (ha : s.accepts = true) (hport : s.port = p :: rest) :
    step s = settlePort (runWord p.word (accept p rest s)) := by
  simp only [step, portStep, ha, hport, if_true]

/-- A step of a block with a command in progress goes on with its job (R66, R68). -/
theorem step_resumes {s : State} {job : Job} (ha : s.accepts = false) (hj : currentJob s = some job) :
    step s = settlePort (runJob job s) := by
  simp only [step, portStep, ha, resume, hj, Bool.false_eq_true, if_false]

theorem runWord_legal {cw : CommandWord} {i : Instr} (h : decode cw = .legal i) (s : State) : runWord cw s = exec i s := by
  simp only [runWord, h]

theorem currentJob_of_hasJob {s : State} {p : Presented} {i : Instr} {job : Job} (hc : s.current = some p)
    (hd : decode p.word = .legal i) (hj : hasJob i s job) : currentJob s = some job := by
  simp only [currentJob, hc, hd, jobOf_eq_some.mpr hj]

/-- Settles O5: the port takes its oldest word where none is in progress, and reads the job of the captured one where one is. -/
theorem stepPerformsDecodedCommand : Obligations.StepPerformsDecodedCommand := by
  refine ⟨fun s cw racing rest i hbusy hidle hport hd => ?_, fun s cw racing i job hprogress hc hd hj => ?_⟩
  · rw [step_accepts ((accepts_iff s).mpr ⟨hbusy, hidle⟩) hport, runWord_legal hd]
    rfl
  · have ha : s.accepts = false := by
      rw [← Bool.not_eq_true, accepts_iff, not_and_or, Bool.not_eq_false]
      exact hprogress
    exact step_resumes ha (currentJob_of_hasJob hc hd hj)

/-! ## The invariant -/

/-- Where a job leaves a block idle, the port can take the next command (R73). -/
theorem Running.accepts_iff_idle {job : Job} {s : State} (h : Running job s) : s.accepts = true ↔ s.phase = .idle := by
  refine ⟨fun ha => ((accepts_iff s).mp ha).2, fun hp => (accepts_iff s).mpr ⟨?_, hp⟩⟩
  have hph := h.phase
  simp only [runningPhase, hp] at hph
  exact hph.1

/-- The port gives an ended command its response and keeps one that waits, and either way the invariant holds (R39, R72). -/
theorem EndsSound.settlePort_inv {o : Result} (h : EndsSound o) : ∃ t, settlePort o = .next t ∧ Inv t := by
  obtain ⟨u, job, rfl, hrun, hrelease⟩ := h
  by_cases ha : u.accepts = true
  · exact ⟨respond u, by simp only [settlePort, ha, if_true], hrun.inv_respond (hrun.accepts_iff_idle.mp ha)⟩
  · exact ⟨u, by simp only [settlePort, ha, Bool.false_eq_true, if_false],
      hrun.inv (fun hp => ha (hrun.accepts_iff_idle.mpr hp)) hrelease⟩

/-- Settles O59: the command accepted, or the one that goes on, ends or waits in a sound block, and the port keeps it sound. -/
theorem stepKeepsInvariantAndNeverFaults : Obligations.StepKeepsInvariantAndNeverFaults := by
  intro s h
  cases ha : s.accepts with
  | true =>
    cases hport : s.port with
    | nil => exact ⟨s, step_no_command ha hport, h⟩
    | cons p rest =>
      rw [step_accepts ha hport]
      exact (runWord_endsSound (h.ready ha p rest) rfl).settlePort_inv
  | false =>
    obtain ⟨job, hjob, hrun⟩ := h.running ha
    rw [step_resumes ha hjob]
    exact hrun.endsSound.settlePort_inv

/-! ## What a step leaves alone -/

/-- `u` is what the command `p` in the hand of `s` came to, before any response: the parameters, host memory and the responses
are as they were, and the trace has only grown (R8, R50, R72, R170). -/
structure Handled (s : State) (p : Presented) (u : State) : Prop where
  inHand : inHand s = some p
  current : u.current = some p
  params : u.params = s.params
  mem : u.mem = s.mem
  responses : u.responses = s.responses
  trace : ∃ es, u.trace = s.trace ++ es

theorem Handled.of_accepted {s u : State} {p : Presented} {rest : List Presented} (ha : s.accepts = true)
    (hport : s.port = p :: rest) (h : Outside (accept p rest s) u) : Handled s p u :=
  ⟨by simp [Machine.inHand, ha, hport], h.current, h.params, h.mem, h.responses, h.trace⟩

theorem Handled.of_resumed {s u : State} {p : Presented} (ha : s.accepts = false) (hc : s.current = some p)
    (h : Outside s u) : Handled s p u :=
  ⟨by simp [Machine.inHand, ha, hc], h.current.trans hc, h.params, h.mem, h.responses, h.trace⟩

/-- A step makes no move, or handles the command in hand, which then has ended, and is given its response, or waits. -/
theorem step_handled {s t : State} (h : step s = .next t) : t = s ∨
    ∃ u p, Handled s p u ∧ ((u.accepts = true ∧ t = respond u) ∨ (u.accepts = false ∧ t = u)) := by
  obtain hs | ⟨u, ht, hdone⟩ := step_cases h
  · exact .inl hs
  refine .inr ⟨u, ?_⟩
  obtain ⟨p, rest, ha, hport, ⟨i, -, he⟩ | ⟨why, -, rfl⟩⟩ | ⟨p, i, job, ha, hc, -, -, he⟩ := hdone
  · exact ⟨p, .of_accepted ha hport (exec_outside he), ht⟩
  · exact ⟨p, .of_accepted ha hport (raise_outside _ _), ht⟩
  · exact ⟨p, .of_resumed ha hc (runJob_outside he), ht⟩

/-- Settles O50: a command writes nothing outside the block, and the response lets in the host's own writes and no others. -/
theorem noCommandWritesMemoryOrParameters : Obligations.NoCommandWritesMemoryOrParameters := by
  refine ⟨fun i s t h => ?_, fun s t h => ?_⟩
  · have ho := exec_outside h
    exact ⟨ho.params, fun a => by rw [ho.mem], ho.trace⟩
  · obtain rfl | ⟨u, p, hu, ⟨-, rfl⟩ | ⟨-, rfl⟩⟩ := step_handled h
    · exact ⟨rfl, fun _ _ => rfl, [], (List.append_nil _).symm⟩
    · refine ⟨hu.params, fun a hrace => ?_, hu.trace⟩
      have hwindow : u.racing = p.racing := by simp only [State.racing, hu.current]
      rw [respond_mem, hwindow, read_applyRacing_other _ _ (hrace p hu.inHand), hu.mem]
    · exact ⟨hu.params, fun a _ => by rw [hu.mem], hu.trace⟩

/-! ## The response -/

/-- At rest the registers are as R39 has them. -/
theorem Inv.idle {s : State} (h : Inv s) (hp : s.phase = .idle) : s.busy = false ∧ s.hvalid = s.init ∧ s.current = none := by
  have hph := h.phase
  simpa only [phaseFits, hp] using hph

theorem driverState_ne_transmitting {s : State} (hb : s.busy = false) : s.driverState ≠ .transmitting := by
  cases hi : s.init <;> simp [State.driverState, hb, hi]

/-- Settles O60: a step that returns a response is one whose command has ended, and the state it leaves meets the invariant. -/
theorem oneResponsePerCommandAtRest : Obligations.OneResponsePerCommandAtRest := by
  intro s t h
  obtain rfl | ⟨u, p, hu, ⟨hends, rfl⟩ | ⟨-, rfl⟩⟩ := step_handled h
  · exact ⟨.inl rfl, fun hne => absurd rfl hne⟩
  · obtain ⟨hbusy, hidle⟩ := (accepts_iff u).mp hends
    refine ⟨.inr (by rw [respond_responses, hu.responses]; rfl), fun _ =>
      ⟨hidle, hbusy, rfl, driverState_ne_transmitting hbusy, fun hs => ?_⟩⟩
    obtain ⟨t, ht, hinv⟩ := stepKeepsInvariantAndNeverFaults s hs
    cases h.symm.trans ht
    exact ⟨(hinv.idle hidle).2.1, hinv.symbols⟩
  · exact ⟨.inl hu.responses, fun hne => absurd hu.responses hne⟩

end Sys2Proof.Machine
end

section
/-! PROOFS. Scaling, hue regions, blends and gamma (spec/40_color_model.md R102, R107 to R110, R116 to R123): the corner values
of a scaled and of a mixed channel, the region table, and the gamma of a channel against the real formula. -/

namespace Sys2Proof.Machine

/-! ## The scaled channel -/

theorem scale_comm (c br : Byte) : scale c br = scale br c := by
  rw [scale, scale, Nat.mul_comm]

theorem scale_small {c br : Byte} (h : c.toNat * br.toNat < 255) : scale c br = 0 := by
  rw [scale, Nat.div_eq_of_lt h]
  rfl

/-- Settles O9: the product of two bytes, over 255, is a byte, so nothing wraps. -/
theorem scaleTruncatesWithoutWrap : Obligations.ScaleTruncatesWithoutWrap := fun c br =>
  ⟨scale_toNat c br, scale_full c, scale_zero c, (scale_comm 255 br).trans (scale_full br), scale_small⟩

/-! ## The hue regions -/

/-- A chromatic pixel, where HSV_FN is the default, is the region table's (R109, R110). -/
theorem hsvPixel_standard {p : Params} {h sat v : Byte} (hs : sat ≠ 0) (hp : p.hsvFn = .standard) :
    hsvPixel p h sat v = hsvStandard (hsvRegion h) (hsvRemainder h) sat v := by
  rw [hsvPixel, if_neg hs, hsvFn, hp]

theorem hsvStandard_last {region : Nat} (h : 5 ≤ region) (remainder : Nat) (sat v : Byte) :
    hsvStandard region remainder sat v = { r := v, g := hsvP sat v, b := hsvQ remainder sat v } := by
  unfold hsvStandard
  split <;> first | omega | rfl

/-- Settles O12: grey by definition, and otherwise row by row of the region table. -/
theorem hsvFollowsRegionTable : Obligations.HsvFollowsRegionTable := by
  intro h sat v s
  refine ⟨hsvPixel s.params h sat v, exec_ok_of_colorAnswer rfl, fun hs => if_pos hs, fun hs hp => ?_⟩
  rw [hsvPixel_standard hs hp, show h.toNat / 43 = hsvRegion h from rfl]
  generalize hsvRegion h = region
  refine ⟨hsvP sat v, hsvQ (hsvRemainder h) sat v, hsvT (hsvRemainder h) sat v, hsvP_toNat sat v, hsvQ_toNat _ sat v,
    hsvT_toNat _ sat v, ?_, ?_, ?_, ?_, ?_, fun hlast => ?_⟩
  case refine_6 => rw [hsvStandard_last hlast]; exact ⟨rfl, rfl, rfl⟩
  all_goals rintro rfl; exact ⟨rfl, rfl, rfl⟩

/-! ## The end points of a blend -/

theorem mix_self (x m : Byte) : mix x x m = x := by
  apply BitVec.eq_of_toNat_eq
  have hsum : x.toNat * (255 - m.toNat) + x.toNat * m.toNat = x.toNat * 255 := by
    rw [← Nat.mul_add, Nat.sub_add_cancel (byte_le m)]
  rw [mix_toNat, hsum]
  exact Nat.mul_div_cancel x.toNat (by decide)

theorem mix_zero (x y : Byte) : mix x y 0 = x := by
  apply BitVec.eq_of_toNat_eq
  have hsum : x.toNat * (255 - (0 : Byte).toNat) + y.toNat * (0 : Byte).toNat = x.toNat * 255 := by simp
  rw [mix_toNat, hsum]
  exact Nat.mul_div_cancel x.toNat (by decide)

theorem mix_full (x y : Byte) : mix x y 255 = y := by
  apply BitVec.eq_of_toNat_eq
  have hsum : x.toNat * (255 - (255 : Byte).toNat) + y.toNat * (255 : Byte).toNat = y.toNat * 255 := by simp
  rw [mix_toNat, hsum]
  exact Nat.mul_div_cancel y.toNat (by decide)

/-- A `BLEND` whose blended pixel is known (R116). -/
theorem exec_blend {a b p : Pixel} {m : Byte} (h : blendPixel a b m = p) (s : State) :
    exec (.blend a b m) s = .next { s with status := 0x00, result := pixres p } := by
  rw [← h]
  exact exec_ok_of_colorAnswer rfl

/-- Settles O18: channel by channel. -/
theorem blendEndpointsAreExact : Obligations.BlendEndpointsAreExact := fun a b m s =>
  ⟨exec_blend (by simp only [blendPixel, mix_self]) s, exec_blend (by simp only [blendPixel, mix_zero]) s,
    exec_blend (by simp only [blendPixel, mix_full]) s⟩

/-! ## The gamma of a channel -/

theorem gammaInDomain_gamma22 : gammaInDomain gamma22 = true := by decide

/-- Outside its domain `GAMMA` answers INVALID_PARAMETER (R119). -/
theorem gammaAnswer_outside {pattern : Word64} (h : gammaInDomain pattern = false) (p : Params) (a : Pixel) :
    gammaAnswer p a pattern = (.invalidParameter, 0) := by
  refine if_pos ⟨?_, h⟩
  rintro rfl
  rw [gammaInDomain_gamma22] at h
  cases h

/-- Settles O20: each of the three kinds of pattern lies outside the domain. -/
theorem gammaOutsideDomainIsRefused : Obligations.GammaOutsideDomainIsRefused := by
  intro a pattern s h
  have hout : gammaInDomain pattern = false := by
    simp only [gammaInDomain, binaryExponent, binaryFraction]
    obtain hsign | hexp | ⟨hexp, hfrac⟩ := h
    · simp [hsign]
    · simp [hexp]
    · simp [hexp, hfrac]
  exact exec_of_colorAnswer (i := .gamma a pattern) (congrArg some (gammaAnswer_outside hout s.params a))

/-- In its domain, off the pattern of 2.2, `GAMMA` takes each channel through GAMMA_POW (R118, R121). -/
theorem exec_gamma_general {pattern : Word64} (hne : pattern ≠ gamma22) (hin : gammaInDomain pattern = true) (a : Pixel)
    (s : State) : exec (.gamma a pattern) s =
      .next { s with status := 0x00, result := pixres (a.map (gammaPow s.params pattern)) } := by
  have hchannel : gammaChannel s.params pattern = gammaPow s.params pattern := funext fun _ => if_neg hne
  have hanswer : gammaAnswer s.params a pattern = (.ok, pixres (a.map (gammaPow s.params pattern))) := by
    rw [gammaAnswer, if_neg (by simp [hin]), hchannel]
  exact exec_ok_of_colorAnswer (congrArg some hanswer)

/-- Settles O21: the value of the pattern is the fraction whose power the default GAMMA_POW rounds. -/
theorem gammaGeneralPathIsExactlyRounded : Obligations.GammaGeneralPathIsExactlyRounded := by
  intro a pattern gamma s hexact hne hin hgamma
  have hpow (c : Byte) : ((gammaPow s.params pattern c).toNat : ℤ) = ⌊255 * ((c.toNat : ℝ) / 255) ^ gamma + 1 / 2⌋ := by
    rw [gammaPow, hexact]
    simp only
    rw [gammaPowExact_toNat hin, (isBinary64_iff pattern gamma).mp hgamma]
    exact Int.natCast_floor_eq_floor (by positivity)
  exact ⟨_, exec_gamma_general hne hin a s, hpow a.g, hpow a.r, hpow a.b⟩

/-- Settles O22: whichever admissible value the platform takes. -/
theorem gammaPlatformPathIsWithinOne : Obligations.GammaPlatformPathIsWithinOne := by
  intro a pattern gamma s hplatform hne hin hgamma
  have hpow (c : Byte) : |((gammaPow s.params pattern c).toNat : ℝ) - 255 * ((c.toNat : ℝ) / 255) ^ gamma| ≤ 1 := by
    rw [gammaPow, hplatform, (isBinary64_iff pattern gamma).mp hgamma]
    exact gammaPowPlatform_within_one pattern c
  exact ⟨_, exec_gamma_general hne hin a s, hpow a.g, hpow a.r, hpow a.b⟩

/-- Row `c` of R33's bound is the rounded formula at 2.2 = 11/5. -/
theorem roundedPow_gamma22 (c : Byte) :
    (roundedPow 11 5 c.toNat : ℤ) = ⌊255 * ((c.toNat : ℝ) / 255) ^ (2.2 : ℝ) + 1 / 2⌋ := by
  have hfraction : (2.2 : ℝ) = ((11 : Nat) : ℝ) / ((5 : Nat) : ℝ) := by norm_num
  rw [roundedPow_eq_floor (by decide) (by decide) (byte_le c), hfraction]
  exact Int.natCast_floor_eq_floor (by positivity)

/-- The default table is the rounded formula at 2.2, row by row (decision D11). -/
theorem defaultGammaLut_get : ∀ c : Fin 256, (Config.defaultGammaLut.get c).toNat = roundedPow 11 5 c := by decide +kernel

/-- Settles O23: a valid table is within 1 of the formula in each row, and the default one meets it. -/
theorem gammaTableAgreesWithFormula : Obligations.GammaTableAgreesWithFormula := by
  rintro a s ⟨-, -, -, hwithin⟩
  have hchannel (c : Byte) :
      |((s.params.gammaLut.get c.toFin).toNat : ℤ) - ⌊255 * ((c.toNat : ℝ) / 255) ^ (2.2 : ℝ) + 1 / 2⌋| ≤ 1 := by
    have hrow : _ ≤ roundedPow 11 5 c.toNat + 1 ∧ roundedPow 11 5 c.toNat ≤ _ + 1 := hwithin c.toFin
    rw [← roundedPow_gamma22, abs_le]
    omega
  have hdefault (hlut : s.params.gammaLut = Config.defaultGammaLut) (c : Byte) :
      ((s.params.gammaLut.get c.toFin).toNat : ℤ) = ⌊255 * ((c.toNat : ℝ) / 255) ^ (2.2 : ℝ) + 1 / 2⌋ := by
    rw [← roundedPow_gamma22, hlut, defaultGammaLut_get]
    rfl
  exact ⟨_, exec_ok_of_colorAnswer (congrArg some (gammaAnswer_gamma22 s.params a)),
    ⟨hchannel a.g, hchannel a.r, hchannel a.b⟩, fun hlut => ⟨hdefault hlut a.g, hdefault hlut a.r, hdefault hlut a.b⟩⟩

end Sys2Proof.Machine
end

section
/-! PROOFS. What the symbol bytes of a frame say of its channels (spec/41_frame_encoder.md R155). -/

namespace Sys2Proof.Machine

/-- The four groups of a byte determine it (R152). -/
theorem eq_of_symbolGroup_eq {c d : Byte} (h : ∀ k ∈ [0, 1, 2, 3], symbolGroup c k = symbolGroup d k) : c = d := by
  simp only [symbolGroup, List.forall_mem_cons, Fin.mk.injEq, Nat.shiftRight_eq_div_pow] at h
  obtain ⟨h0, h1, h2, h3, -⟩ := h
  apply BitVec.eq_of_toNat_eq
  have hc := byte_le c
  have hd := byte_le d
  omega

theorem channelSymbols_injective {p : Params} (hp : symtabDistinct p) {c d : Byte}
    (h : channelSymbols p c = channelSymbols p d) : c = d :=
  eq_of_symbolGroup_eq fun k hk => hp _ _ (List.map_inj_left.mp h k hk)

/-- The symbols of a pixel determine its scaled channels (R155). -/
theorem scalePixel_eq_of_pixelSymbols_eq {p : Params} (hp : symtabDistinct p) {br br' : Byte} {x y : Pixel}
    (h : pixelSymbols p br x = pixelSymbols p br' y) : scalePixel x br = scalePixel y br' := by
  simp only [pixelSymbols, Pixel.channels, List.flatMap_cons, List.flatMap_nil, List.append_nil] at h
  obtain ⟨hg, hrest⟩ := List.append_inj h rfl
  obtain ⟨hr, hb⟩ := List.append_inj hrest rfl
  generalize scalePixel x br = x' at *
  generalize scalePixel y br' = y' at *
  cases x'; cases y'
  rw [Pixel.mk.injEq]
  exact ⟨channelSymbols_injective hp hg, channelSymbols_injective hp hr, channelSymbols_injective hp hb⟩

/-- Settles O26: pixel by pixel, whose symbols stand in blocks of equal length. -/
theorem symbolBytesDetermineScaledChannels : Obligations.SymbolBytesDetermineScaledChannels := by
  intro p br br' xs ys hp hlen h
  induction xs generalizing ys with
  | nil => rw [List.length_eq_zero_iff.mp hlen.symm]; rfl
  | cons x xs ih =>
    cases ys with
    | nil => cases hlen
    | cons y ys =>
      obtain ⟨hpixel, hrest⟩ := List.append_inj h rfl
      rw [List.map_cons, List.map_cons, scalePixel_eq_of_pixelSymbols_eq hp hpixel, ih ys (Nat.succ.inj hlen) hrest]

/-- Settles O27: brightness 0, and a black pixel, scale to a black pixel. -/
theorem darkFramesEncodeToSymbolZero : Obligations.DarkFramesEncodeToSymbolZero := fun _ br _ =>
  ⟨frameSymbols_of_dark fun px _ => scalePixel_zero px,
    fun hblack => frameSymbols_of_dark fun px hpx => by rw [hblack px hpx, scalePixel_black]⟩

end Sys2Proof.Machine
end

section
/-! PROOFS. Frames (spec/42_serializer_driver.md R171 to R190): the three ways a frame that is read and answered ends, and
what each command that sends one comes to. -/

namespace Sys2Proof.Machine

/-! ## The end of a frame -/

/-- The end of a frame: its code, its events, and the answers left. -/
structure FrameEnd where
  code : Status
  events : List Event
  wr : List WrAnswer
  dly : List Nat

/-- How a platform that will answer `wr` and `dly` ends a frame of `bytes`: it fails the data `Wr`, or takes it and fails the
trailer `Wr`, or takes both and ends the delay (R173, R175 to R178). -/
inductive FrameEnds (p : Params) (bytes : List Byte) : List WrAnswer → List Nat → FrameEnd → Prop where
  | dataFails {w : WrAnswer} {ws : List WrAnswer} {ds : List Nat} (failed : w ≠ .ok p.symbufLen) :
      FrameEnds p bytes (w :: ws) ds ⟨.peripheralError, [.wr bytes w], ws, ds⟩
  | trailerFails {w : WrAnswer} {ws : List WrAnswer} {ds : List Nat} (failed : w ≠ .ok p.resetGapLen) :
      FrameEnds p bytes (.ok p.symbufLen :: w :: ws) ds
        ⟨.peripheralError, [.wr bytes (.ok p.symbufLen), .wr p.trailer w], ws, ds⟩
  | whole {ws : List WrAnswer} {x : Nat} {ds : List Nat} :
      FrameEnds p bytes (.ok p.symbufLen :: .ok p.resetGapLen :: ws) (x :: ds) ⟨.ok, frameEvents p bytes x, ws, ds⟩

/-- A job in `ENCODE` on a block that owns the adapter, whose frame is all read and makes `bytes`. -/
structure Sends (job : Job) (s : State) (bytes : List Byte) : Prop where
  encode : s.phase = .encode
  hvalid : s.hvalid = true
  read : (readFrame s job.source).length = s.params.ledCount
  bytes : bytes = frameSymbols s.params job.brightness (readFrame s job.source)

/-- The state in which a frame's `transmit` ends, in the phase of its last call. -/
def frameEndState (s : State) (bytes : List Byte) (phase : Phase) (e : FrameEnd) : State :=
  { s with
    phase := phase
    symbuf := bytes.map some
    trace := s.trace ++ e.events
    answers := { s.answers with wr := e.wr, dly := e.dly } }

/-- Such a job runs to the end of its `transmit` in at most four moves (R175). -/
theorem Sends.runMoves_eq {job : Job} {s : State} {bytes : List Byte} {e : FrameEnd} (h : Sends job s bytes)
    (hends : FrameEnds s.params bytes s.answers.wr s.answers.dly e) (n : Nat) :
    ∃ k phase, runMoves (n + 4) job s = runMoves (n + k) job (endTransmit job e.code (frameEndState s bytes phase e)) := by
  generalize hwr : s.answers.wr = wr at hends
  generalize hdly : s.answers.dly = dly at hends
  cases hends with
  | dataFails failed =>
    subst hdly
    exact ⟨2, .data, runMoves_failed_data (n + 2) h.encode h.hvalid h.read h.bytes hwr failed⟩
  | trailerFails failed =>
    subst hdly
    exact ⟨1, .gap, runMoves_failed_trailer (n + 1) h.encode h.hvalid h.read h.bytes hwr failed⟩
  | whole => exact ⟨0, .settle, runMoves_whole_frame n h.encode h.hvalid h.read h.bytes ⟨hwr, hdly⟩⟩

/-- In every job but `DESTROY`'s the end of `transmit` is the end of the command (R175). -/
theorem endTransmit_of_ne_teardown {job : Job} (hjob : job ≠ .teardown) (r : Status) (s : State) :
    endTransmit job r s = endCommand r s := by
  cases job with
  | start | send => rfl
  | teardown => exact absurd rfl hjob

/-- A frame that a command other than `DESTROY` sends ends the command with the frame's code (R175, R184 to R189). -/
theorem Sends.runMoves_ended {job : Job} {s : State} {bytes : List Byte} {e : FrameEnd} (h : Sends job s bytes)
    (hjob : job ≠ .teardown) (hends : FrameEnds s.params bytes s.answers.wr s.answers.dly e) (n : Nat) :
    runMoves (n + 4) job s = .next (endCommand e.code (frameEndState s bytes .idle e)) := by
  obtain ⟨k, phase, hrun⟩ := h.runMoves_eq hends n
  rw [hrun, endTransmit_of_ne_teardown hjob, runMoves_idle _ rfl]
  rfl

/-- The frame of a `DESTROY` ends in `RELEASE` whatever its code, and the command with it, after `Rel` (R190). -/
theorem Sends.runMoves_released {s : State} {bytes : List Byte} {e : FrameEnd} {hd : Handle} (h : Sends .teardown s bytes)
    (hh : s.handle = some hd) (hends : FrameEnds s.params bytes s.answers.wr s.answers.dly e) (n : Nat) :
    runMoves (n + 1 + 4) .teardown s = .next { frameEndState s bytes .idle e with
      init := false, busy := false, pin := s.params.defaultPin, bright := 255, handle := none
      status := 0x00, result := 0
      trace := s.trace ++ e.events ++ [.rel hd] } := by
  obtain ⟨k, phase, hrun⟩ := h.runMoves_eq hends (n + 1)
  rw [hrun, Nat.add_right_comm]
  exact Eq.trans (runMoves_to (Eq.trans (serializerMove_release rfl) (releaseMove_owned hh))) (runMoves_idle _ rfl)

/-! ## `UPDATE`, `UPDATEB` and `CLEAR` -/

/-- A job that starts on a READY block reads its frame as the block stands (R58). -/
theorem startTransmit_sends {job : Job} {s : State} {bytes : List Byte} (hh : s.hvalid = true) (hadm : jobAdmitted s job)
    (hb : bytes = frameSymbols s.params job.brightness (readFrame s job.source)) :
    Sends job (startTransmit s) bytes := by
  have hread : readFrame (startTransmit s) job.source = readFrame s job.source := readFrame_congr _ rfl rfl rfl
  exact ⟨rfl, hh, by rw [hread]; exact readFrame_length_of_jobAdmitted hadm, by rw [hread]; exact hb⟩

/-- What `UPDATE`, `UPDATEB` and `CLEAR` of a READY block come to once their frame is answered (R175, R187 to R189). -/
theorem exec_sends {i : Instr} {s : State} {bytes : List Byte} {e : FrameEnd} (hi : s.init = true) (hh : s.hvalid = true)
    (hsends : sendsBytes i s bytes) (hends : FrameEnds s.params bytes s.answers.wr s.answers.dly e) :
    exec i s = .next (endCommand e.code (frameEndState s bytes .idle e)) := by
  have hrun {source : FrameSource} {br : Byte} (hadm : jobAdmitted s (.send source br))
      (hb : bytes = frameSymbols s.params br (readFrame s source)) :
      runJob (.send source br) (startTransmit s) = .next (endCommand e.code (frameEndState s bytes .idle e)) :=
    (startTransmit_sends (job := .send source br) hh hadm hb).runMoves_ended nofun hends 1
  obtain ⟨fptr, flen, br, hcommand, hchecked, hadm, hb⟩ | ⟨rfl, hb⟩ := hsends
  · have hexec : exec i s = sendFrame fptr flen br s := by
      obtain rfl | ⟨rfl, rfl⟩ := hcommand <;> rfl
    rw [hexec, sendFrame_checked hi hchecked]
    exact hrun hadm hb
  · exact (execClear_ready hi).trans (hrun (source := .zeros) trivial (hb.trans (frameSymbols_clearing s 0).symm))

/-- A frame the platform takes ends whole (R178). -/
theorem frameEnds_of_taken {s : State} {x : Nat} {ws : List WrAnswer} {ds : List Nat} (h : frameTaken s x ws ds)
    (bytes : List Byte) : FrameEnds s.params bytes s.answers.wr s.answers.dly ⟨.ok, frameEvents s.params bytes x, ws, ds⟩ := by
  rw [h.1, h.2]
  exact .whole

theorem frameEnds_of_failed_data {s : State} {w : WrAnswer} {ws : List WrAnswer} (hwr : s.answers.wr = w :: ws)
    (hfailed : w ≠ .ok s.params.symbufLen) (bytes : List Byte) :
    FrameEnds s.params bytes s.answers.wr s.answers.dly ⟨.peripheralError, [.wr bytes w], ws, s.answers.dly⟩ := by
  rw [hwr]
  exact .dataFails hfailed

theorem frameEnds_of_failed_trailer {s : State} {w : WrAnswer} {ws : List WrAnswer}
    (hwr : s.answers.wr = .ok s.params.symbufLen :: w :: ws) (hfailed : w ≠ .ok s.params.resetGapLen) (bytes : List Byte) :
    FrameEnds s.params bytes s.answers.wr s.answers.dly
      ⟨.peripheralError, [.wr bytes (.ok s.params.symbufLen), .wr s.params.trailer w], ws, s.answers.dly⟩ := by
  rw [hwr]
  exact .trailerFails hfailed

/-- Settles O34: the frame is whole, at the brightness of `BRIGHT`. -/
theorem updateSendsFrameAtGlobalBrightness : Obligations.UpdateSendsFrameAtGlobalBrightness :=
  fun s fptr flen _ _ _ hi hh hchecked hadm htaken =>
    exec_sends hi hh (.inl ⟨fptr, flen, s.bright, .inr ⟨rfl, rfl⟩, hchecked, hadm, rfl⟩) (frameEnds_of_taken htaken _)

/-- Settles O35: the frame is whole, at the brightness of the operand. -/
theorem updatebSendsFrameAtOperandBrightness : Obligations.UpdatebSendsFrameAtOperandBrightness :=
  fun _ fptr flen br _ _ _ hi hh hchecked hadm htaken =>
    exec_sends hi hh (.inl ⟨fptr, flen, br, .inl rfl, hchecked, hadm, rfl⟩) (frameEnds_of_taken htaken _)

/-- Settles O36: the frame is whole, and all off. -/
theorem clearSendsDarkFrame : Obligations.ClearSendsDarkFrame :=
  fun _ _ _ _ hi hh htaken => exec_sends hi hh (.inr ⟨rfl, rfl⟩) (frameEnds_of_taken htaken _)

/-- Settles O44: the data `Wr` is the last call. -/
theorem failedDataWriteEndsTheFrame : Obligations.FailedDataWriteEndsTheFrame :=
  fun _ _ bytes _ _ hi hh hsends hwr hfailed => exec_sends hi hh hsends (frameEnds_of_failed_data hwr hfailed bytes)

/-- Settles O45: the trailer `Wr` is the last call. -/
theorem failedTrailerWriteEndsTheFrame : Obligations.FailedTrailerWriteEndsTheFrame :=
  fun _ _ bytes _ _ hi hh hsends hwr hfailed => exec_sends hi hh hsends (frameEnds_of_failed_trailer hwr hfailed bytes)

/-! ## `INIT` and `INITPIN` -/

/-- An acquired block at the start of its clearing frame (R172). -/
def acquiredState (s : State) (pin : Byte) (hd : Handle) (as : List AcqAnswer) : State :=
  { s with
    init := true, busy := true, pin := pin, handle := some hd, phase := .encode, symbuf := unwrittenBuffer s.params
    trace := s.trace ++ [.acq pin s.params.sampleRateHz s.params.symbufLen (.ok hd)]
    answers := { s.answers with acq := as, nomem := nomemLeft s } }

theorem acquiredState_sends (s : State) (pin : Byte) (hd : Handle) (as : List AcqAnswer) :
    Sends (.start pin) (acquiredState s pin hd as) (darkBuffer s.params) :=
  ⟨rfl, rfl, readFrame_length_of_jobAdmitted (job := .start pin) trivial,
    (frameSymbols_clearing (acquiredState s pin hd as) 0).symm⟩

/-- What `INIT` and `INITPIN` of an UNINITIALIZED block come to once `Acq` has given a handle and the clearing frame is answered
(R184, R185). -/
theorem exec_acquires {i : Instr} {s : State} {pin : Byte} {hd : Handle} {as : List AcqAnswer} {e : FrameEnd}
    (hj : hasJob i s (.start pin)) (hi : s.init = false) (hproceeds : allocationProceeds s)
    (ha : s.answers.acq = .ok hd :: as) (hends : FrameEnds s.params (darkBuffer s.params) s.answers.wr s.answers.dly e) :
    exec i s = .next { s with
      init := true, busy := false, phase := .idle, pin := pin, handle := some hd
      symbuf := (darkBuffer s.params).map some
      status := e.code.code, result := 0
      trace := s.trace ++ .acq pin s.params.sampleRateHz (12 * s.params.ledCount) (.ok hd) :: e.events
      answers := ⟨as, e.wr, e.dly, nomemLeft s⟩ } :=
  calc exec i s = initCommon pin s := exec_of_hasJob_start hj
    _ = runJob (.start pin) (jobStart (.start pin) s) := initCommon_proceeds hi hproceeds
    _ = runMoves 4 (.start pin) (acquiredState s pin hd as) :=
      runMoves_to (Eq.trans (serializerMove_acquire rfl) (acquireMove_ok ((jobStart_acq _ s).trans ha)))
    _ = .next (endCommand e.code (frameEndState (acquiredState s pin hd as) (darkBuffer s.params) .idle e)) :=
      (acquiredState_sends s pin hd as).runMoves_ended nofun hends 0
    _ = _ := by simp only [frameEndState, acquiredState, List.append_assoc, List.singleton_append]; rfl

/-- The job of `INIT` is on the default pin, that of `INITPIN` on its operand (R184, R185). -/
theorem hasJob_start_of_pin {i : Instr} {s : State} {pin : Byte}
    (h : i = .initpin pin ∨ (i = .init ∧ pin = s.params.defaultPin)) : hasJob i s (.start pin) := by
  obtain rfl | ⟨rfl, rfl⟩ := h
  · exact .inr (.inl ⟨pin, rfl, rfl⟩)
  · exact .inl ⟨rfl, rfl⟩

/-- Settles O28: on the default pin, with the clearing frame whole. -/
theorem initAcquiresAndClears : Obligations.InitAcquiresAndClears :=
  fun _ _ _ _ _ _ hi hproceeds ha htaken =>
    exec_acquires (hasJob_start_of_pin (.inr ⟨rfl, rfl⟩)) hi hproceeds ha (frameEnds_of_taken htaken _)

/-- Settles O29: on the operand's pin, with the clearing frame whole. -/
theorem initpinAcquiresItsOwnPin : Obligations.InitpinAcquiresItsOwnPin :=
  fun _ _ _ _ _ _ _ hi hproceeds ha htaken =>
    exec_acquires (hasJob_start_of_pin (.inl rfl)) hi hproceeds ha (frameEnds_of_taken htaken _)

/-- Settles O33: the block is acquired before either `Wr`, and a failed `Wr` is the last call. -/
theorem initWithFailedClearingFrameIsReady : Obligations.InitWithFailedClearingFrameIsReady :=
  fun _ _ _ _ _ _ _ hcommand hi hproceeds ha =>
    ⟨fun hwr hfailed => exec_acquires (hasJob_start_of_pin hcommand) hi hproceeds ha (frameEnds_of_failed_data hwr hfailed _),
      fun hwr hfailed =>
        exec_acquires (hasJob_start_of_pin hcommand) hi hproceeds ha (frameEnds_of_failed_trailer hwr hfailed _)⟩

/-! ## `DESTROY` -/

/-- What `DESTROY` of a READY block comes to once its clearing frame is answered, in any way (R190). -/
theorem exec_destroys {s : State} {hd : Handle} {e : FrameEnd} (hi : s.init = true) (hh : s.handle = some hd)
    (hends : FrameEnds s.params (darkBuffer s.params) s.answers.wr s.answers.dly e) :
    exec .destroy s = .next { s with
      init := false, busy := false, phase := .idle, pin := s.params.defaultPin, bright := 255, handle := none
      symbuf := (darkBuffer s.params).map some
      status := 0x00, result := 0
      trace := s.trace ++ e.events ++ [.rel hd]
      answers := ⟨s.answers.acq, e.wr, e.dly, s.answers.nomem⟩ } := by
  have hsends : Sends .teardown (startTransmit s) (darkBuffer s.params) :=
    startTransmit_sends (Option.isSome_iff_exists.mpr ⟨hd, hh⟩) trivial (frameSymbols_clearing s 0).symm
  exact (execDestroy_ready hi).trans (hsends.runMoves_released hh hends 0)

/-- Settles O37: the clearing frame is whole. -/
theorem destroyClearsReleasesAndResets : Obligations.DestroyClearsReleasesAndResets :=
  fun _ _ _ _ _ hi hh htaken => exec_destroys hi hh (frameEnds_of_taken htaken _)

/-- Settles O38: each of the three ends of the clearing frame leads to `Rel`. -/
theorem destroyAlwaysTearsDown : Obligations.DestroyAlwaysTearsDown := by
  refine ⟨fun s hd w w' ws x ds hi hh hwr hdly => ?_, fun s hi => execDestroy_uninitialized hi⟩
  by_cases hdata : w = .ok (12 * s.params.ledCount)
  · by_cases htrailer : w' = .ok s.params.resetGapLen
    · subst hdata htrailer
      exact ⟨_, _, _, exec_destroys hi hh (frameEnds_of_taken ⟨hwr, hdly⟩ _), fun hne => absurd rfl hne,
        fun _ hne => absurd rfl hne, fun _ _ => ⟨rfl, rfl, rfl⟩⟩
    · subst hdata
      exact ⟨_, _, _, exec_destroys hi hh (frameEnds_of_failed_trailer hwr htrailer _), fun hne => absurd rfl hne,
        fun _ _ => ⟨rfl, rfl, hdly⟩, fun _ heq => absurd heq htrailer⟩
  · exact ⟨_, _, _, exec_destroys hi hh (frameEnds_of_failed_data hwr hdata _), fun _ => ⟨rfl, rfl, hdly⟩,
      fun heq => absurd heq hdata, fun heq => absurd heq hdata⟩

end Sys2Proof.Machine
end

section
/-! PROOFS. Commands that end at once, and reset (spec/42_serializer_driver.md R184 to R186, R192, R193;
spec/70_reset_and_hazards.md R250, R251). -/

namespace Sys2Proof.Machine

/-- Settles O30: both are `init_common`, which a READY block ends at once. -/
theorem initOnReadyBlockIsNoOp : Obligations.InitOnReadyBlockIsNoOp := fun _ _ hi => ⟨initCommon_ready hi, initCommon_ready hi⟩

/-- Settles O40: the word carries the byte, and the command writes it in every driver state. -/
theorem setbrWritesOnlyBright : Obligations.SetbrWritesOnlyBright := fun b _ =>
  ⟨decode_encode_of_fields (.setbr b) (Laws.OpcodeField.setbr b) (Laws.MustBeZero.setbr b), rfl⟩

/-- Settles O41: the command reads the register in every driver state. -/
theorem getbrReturnsBright : Obligations.GetbrReturnsBright := fun _ =>
  ⟨decode_encode_of_fields .getbr Laws.OpcodeField.getbr Laws.MustBeZero.getbr, rfl⟩

/-- Settles O43: each of the three faults of the operand fails the checks, which come before the brightness is used. -/
theorem badFrameOperandIsRefused : Obligations.BadFrameOperandIsRefused := by
  intro s fptr flen br hi hbad
  have hunchecked : ¬ frameChecked s.params fptr flen := by
    rintro ⟨haddress, hlength, hend⟩
    obtain hzero | hother | hpast := hbad
    · exact haddress hzero
    · exact hother hlength
    · exact Nat.not_lt.mpr hend hpast
  exact ⟨sendFrame_unchecked hi hunchecked, sendFrame_unchecked hi hunchecked⟩

/-- Settles O57: a reset that is taken leaves the reset state, but for the memory and the answers, which it keeps. -/
theorem resetIsNotDestroy : Obligations.ResetIsNotDestroy := by
  refine fun s => ⟨fun hprogress => if_neg ?_, fun hbusy hidle => ⟨_, if_pos ⟨hbusy, hidle⟩, ?_⟩⟩
  · rintro ⟨hbusy, hidle⟩
    obtain hb | hp := hprogress
    · rw [hbusy] at hb
      cases hb
    · exact hp hidle
  · obtain ⟨-, -, -, -, -, -, -, -, -, hlength, hunwritten, -⟩ := resetLeavesTheListedState s.params
    exact ⟨rfl, rfl, rfl, rfl, rfl, rfl, rfl, rfl, rfl, hlength, hunwritten, rfl, rfl, rfl, rfl, fun _ => rfl, rfl⟩

/-- Settles O58: `SYMBUF` is unwritten, and the block is at rest with `STATUS` OK. -/
theorem resetMeetsTheInvariant : Obligations.ResetMeetsTheInvariant := fun p =>
  ⟨rfl, unwrittenBuffer_length p, unwrittenBuffer_symbolsOnly p, Nat.zero_le 6, fun hne => absurd rfl hne, ⟨rfl, rfl, rfl⟩⟩

end Sys2Proof.Machine
end

section
/-! PROOFS. The phase table (spec/42_serializer_driver.md R171): how a command leaves IDLE, and which row of the table each
move of the serializer is. -/

namespace Sys2Proof.Machine

/-- The bytes of a `SYMBUF` that is all written are as many as its own (R176). -/
theorem length_of_writtenBytes {buffer : List (Option Byte)} {bytes : List Byte} (h : writtenBytes buffer = some bytes) :
    bytes.length = buffer.length := by
  induction buffer generalizing bytes with
  | nil => cases h; rfl
  | cons x buffer ih =>
    cases x with
    | none => cases h
    | some b =>
      obtain ⟨rest, hrest, rfl⟩ := Option.map_eq_some_iff.mp h
      rw [List.length_cons, List.length_cons, ih hrest]

@[simp] theorem trailer_length (p : Params) : p.trailer.length = p.resetGapLen := List.length_replicate

/-- Every move is a row of R171, on its condition. -/
theorem phaseRow_of_move {job : Job} {s t : State} (h : serializerMove job s = .to t) : phaseRow job s t := by
  rcases move_to_cases h with ⟨pin, hd, as, -, hp, ha, rfl⟩ | ⟨pin, as, -, hp, ha, rfl⟩ | ⟨hp, -, rfl⟩ |
    ⟨bytes, w, ws, after, -, hw, ⟨hp, hb, rfl⟩ | ⟨hp, rfl, rfl⟩, ⟨hok, rfl⟩ | ⟨hfailed, rfl⟩⟩ | ⟨x, ds, hp, hd, rfl⟩ |
    ⟨hd, hp, hh, rfl⟩
  · simp [phaseRow, hp, ha]
  · simp [phaseRow, hp, ha]
  · simp [phaseRow, hp]
  · simp [phaseRow, hp, hw, hok, length_of_writtenBytes hb]
  · rw [length_of_writtenBytes hb] at hfailed
    cases job <;> simp [phaseRow, endTransmit, hp, hw, hfailed]
  · simp [phaseRow, hp, hw, hok]
  · rw [trailer_length] at hfailed
    cases job <;> simp [phaseRow, endTransmit, hp, hw, hfailed]
  · cases job <;> simp [phaseRow, endTransmit, hp, hd]
  · simp [phaseRow, hp, hh]

/-- Settles O47: a command ends at once or starts its job, and each move of a job is a row of the table. -/
theorem phaseMovesOnlyAsListed : Obligations.PhaseMovesOnlyAsListed := by
  refine ⟨fun i s => ?_, fun job s t => phaseRow_of_move⟩
  cases exec_performed i s with
  | ended _ eq => exact .inl ⟨_, eq, rfl, rfl, rfl⟩
  | allocationFails _ _ _ eq => exact .inl ⟨_, eq, rfl, rfl, rfl⟩
  | @starts job row eq => exact .inr ⟨job, jobStart job s, row, by cases job <;> rfl, by cases job <;> rfl, eq⟩

end Sys2Proof.Machine
end

section
/-! PROOFS. What a run of the serializer does to `HANDLE`, `BRIGHT` and the trace, move by move (spec/10_state.md R26;
spec/42_serializer_driver.md R178, R181), and so what a command and a step do to them. -/

namespace Sys2Proof.Machine

/-! ## `INIT`, `HANDLE` and `BRIGHT` -/

/-- What one move does to `INIT`, `HANDLE` and `BRIGHT`: `Acq` gives the handle, `Rel` takes it away, and no other move touches
them (R172, R174). -/
inductive MoveEffect (job : Job) (s t : State) : Prop where
  | acquires {pin : Byte} {hd : Handle} (isStart : job = .start pin) (acquire : s.phase = .acquire)
      (answer : s.answers.acq.head? = some (.ok hd)) (init : t.init = true) (handle : t.handle = some hd)
      (bright : t.bright = s.bright) (encode : t.phase = .encode)
  | releases {hd : Handle} (release : s.phase = .release) (owned : s.handle = some hd) (init : t.init = false)
      (handle : t.handle = none) (bright : t.bright = 255) (idle : t.phase = .idle)
      (last : t.trace.getLast? = some (.rel hd))
  | keeps (init : t.init = s.init) (handle : t.handle = s.handle) (bright : t.bright = s.bright)
      (notAcquire : t.phase ≠ .acquire) (release : t.phase = .release → job = .teardown)

theorem endTransmit_effect (job : Job) (r : Status) {s u : State} (hinit : u.init = s.init) (hhandle : u.handle = s.handle)
    (hbright : u.bright = s.bright) : MoveEffect job s (endTransmit job r u) := by
  cases job with
  | start | send => exact .keeps hinit hhandle hbright nofun nofun
  | teardown => exact .keeps hinit hhandle hbright nofun fun _ => rfl

theorem move_to_effect {job : Job} {s t : State} (h : serializerMove job s = .to t) : MoveEffect job s t := by
  rcases move_to_cases h with ⟨pin, hd, as, hjob, hp, ha, rfl⟩ | ⟨pin, as, -, -, -, rfl⟩ | ⟨-, -, rfl⟩ |
    ⟨bytes, w, ws, after, -, -, hafter, ⟨-, rfl⟩ | ⟨-, rfl⟩⟩ | ⟨x, ds, -, -, rfl⟩ | ⟨hd, hp, hh, rfl⟩
  · exact .acquires hjob hp (by rw [ha]; rfl) rfl rfl rfl rfl
  · exact .keeps rfl rfl rfl nofun nofun
  · exact .keeps rfl rfl rfl nofun nofun
  · obtain ⟨-, -, rfl⟩ | ⟨-, -, rfl⟩ := hafter <;> exact .keeps rfl rfl rfl nofun nofun
  · exact endTransmit_effect _ _ rfl rfl rfl
  · exact endTransmit_effect _ _ rfl rfl rfl
  · exact .releases hp hh rfl rfl rfl rfl List.getLast?_concat

/-- What a run of a job from `s` has done to `INIT`, `HANDLE` and `BRIGHT` by the time it is at `u`: nothing; or it has acquired
the adapter, as a job that starts in `ACQUIRE`; or it has released it, as the job of `DESTROY`, and is at its end. -/
inductive RunTo (job : Job) (s u : State) : Prop where
  | kept (handle : u.handle = s.handle) (bright : u.bright = s.bright)
      (acquire : u.phase = .acquire → s.phase = .acquire ∧ u.answers.acq = s.answers.acq)
      (release : u.phase = .release → job = .teardown)
  | acquired {pin : Byte} {hd : Handle} (isStart : job = .start pin) (acquire : s.phase = .acquire)
      (answer : s.answers.acq.head? = some (.ok hd)) (init : u.init = true) (handle : u.handle = some hd)
      (bright : u.bright = s.bright) (notAcquire : u.phase ≠ .acquire) (notRelease : u.phase ≠ .release)
  | released {hd : Handle} (isTeardown : job = .teardown) (owned : s.handle = some hd) (init : u.init = false)
      (handle : u.handle = none) (bright : u.bright = 255) (idle : u.phase = .idle)
      (last : u.trace.getLast? = some (.rel hd))

theorem RunTo.move_to {job : Job} {s u v : State} (h : RunTo job s u) (hm : serializerMove job u = .to v) : RunTo job s v := by
  cases h with
  | kept handle bright acquire release =>
    cases move_to_effect hm with
    | acquires isStart hacquire answer hinit hhandle hbright encode =>
      obtain ⟨hs, hacq⟩ := acquire hacquire
      exact .acquired isStart hs (hacq ▸ answer) hinit hhandle (hbright.trans bright) (by simp [encode]) (by simp [encode])
    | releases hrelease owned hinit hhandle hbright idle last =>
      exact .released (release hrelease) (handle.symm.trans owned) hinit hhandle hbright idle last
    | keeps hinit hhandle hbright notAcquire hrelease =>
      exact .kept (hhandle.trans handle) (hbright.trans bright) (fun hp => absurd hp notAcquire) hrelease
  | acquired isStart acquire answer init handle bright notAcquire notRelease =>
    cases move_to_effect hm with
    | acquires _ hacquire => exact absurd hacquire notAcquire
    | releases hrelease => exact absurd hrelease notRelease
    | keeps hinit hhandle hbright hnotAcquire hrelease =>
      refine .acquired isStart acquire answer (hinit.trans init) (hhandle.trans handle) (hbright.trans bright) hnotAcquire ?_
      intro hp
      cases isStart.symm.trans (hrelease hp)
  | released isTeardown owned init handle bright idle last =>
    rw [serializerMove_idle idle] at hm
    cases hm

theorem RunTo.move_waits {job : Job} {s u v : State} (h : RunTo job s u) (hm : serializerMove job u = .waits v) :
    RunTo job s v := by
  rcases move_waits_cases hm with ⟨rfl, -⟩ | ⟨-, -, rfl⟩
  · exact h
  · cases h with
    | kept handle bright acquire release => exact .kept handle bright acquire release
    | acquired isStart acquire answer init handle bright notAcquire notRelease =>
      exact .acquired isStart acquire answer init handle bright notAcquire notRelease
    | released isTeardown owned init handle bright idle last =>
      exact .released isTeardown owned init handle bright idle last

/-- A run that does not start in another command's `RELEASE`. -/
theorem runJob_runTo {job : Job} {s t : State} (hs : s.phase = .release → job = .teardown) (h : runJob job s = .next t) :
    RunTo job s t :=
  runMoves_induct (P := RunTo job s) (fun _ _ => RunTo.move_to) (fun _ _ => RunTo.move_waits)
    (.kept rfl rfl (fun hp => ⟨hp, rfl⟩) hs) h

theorem jobStart_ne_release (job : Job) (s : State) : (jobStart job s).phase ≠ .release := by
  cases job <;> simp [jobStart]

theorem hasJob_teardown_iff {i : Instr} {s : State} : hasJob i s .teardown ↔ i = .destroy := by
  simp [hasJob]

/-- `HANDLE` and `BRIGHT` have moved from `s` to `t`, if at all, as R181 and R26 allow the command `i` to move them. -/
structure MovesAsListed (i : Instr) (s t : State) : Prop where
  handle : s.handle ≠ t.handle → handleMoved i s t
  bright : s.bright ≠ t.bright → brightMoved i s t

theorem MovesAsListed.of_eq {i : Instr} {s t : State} (hh : t.handle = s.handle) (hb : t.bright = s.bright) :
    MovesAsListed i s t :=
  ⟨fun hne => absurd hh.symm hne, fun hne => absurd hb.symm hne⟩

/-- So they have in a run of a command's job, on an UNINITIALIZED block where it starts in `ACQUIRE` and on a READY one where it
is a `DESTROY`. -/
theorem RunTo.movesAsListed {i : Instr} {job : Job} {s t : State} (h : RunTo job s t) (hj : hasJob i s job)
    (hacquire : s.phase = .acquire → s.init = false) (hteardown : job = .teardown → s.init = true) : MovesAsListed i s t := by
  cases h with
  | kept handle bright => exact .of_eq handle bright
  | @acquired pin hd isStart acquire answer init handle bright =>
    subst isStart
    exact ⟨fun _ => .inl ⟨hd, hacquire acquire, init, handle, answer, init_of_hasJob_start hj⟩,
      fun hne => absurd bright.symm hne⟩
  | @released hd isTeardown owned init handle bright _ last =>
    have hinit := hteardown isTeardown
    subst isTeardown
    have hdestroy := hasJob_teardown_iff.mp hj
    exact ⟨fun _ => .inr ⟨hd, owned, handle, init, last, hdestroy⟩, fun _ => .inr ⟨hdestroy, hinit, bright⟩⟩

/-! ## Commands and steps -/

/-- A job starts with `INIT`, `HANDLE` and `BRIGHT` as they are, and the same of the `Acq` answers (R175, R184). -/
theorem movesAsListed_jobStart {i : Instr} {job : Job} {s t : State} (h : MovesAsListed i (jobStart job s) t) :
    MovesAsListed i s t := by
  cases job <;> exact ⟨h.handle, h.bright⟩

theorem hasJob_jobStart {i : Instr} {job : Job} {s : State} (h : hasJob i s job) : hasJob i (jobStart job s) job := by
  cases job <;> exact h

theorem startRow_init {i : Instr} {job : Job} {s : State} (row : startRow i s job (jobStart job s)) :
    ((jobStart job s).phase = .acquire → (jobStart job s).init = false) ∧ (job = .teardown → (jobStart job s).init = true) := by
  obtain ⟨-, hrow⟩ := row
  cases job with
  | start pin => exact ⟨fun _ => hrow.1, nofun⟩
  | send source br => exact ⟨nofun, nofun⟩
  | teardown => exact ⟨nofun, fun _ => hrow.1⟩

/-- A command that starts its job. -/
theorem movesAsListed_of_started {i : Instr} {job : Job} {s t : State} (row : startRow i s job (jobStart job s))
    (h : runJob job (jobStart job s) = .next t) : MovesAsListed i s t := by
  have hrun := runJob_runTo (fun hp => absurd hp (jobStart_ne_release job s)) h
  obtain ⟨hacquire, hteardown⟩ := startRow_init row
  exact movesAsListed_jobStart (hrun.movesAsListed (hasJob_jobStart row.1) hacquire hteardown)

theorem initCommon_movesAsListed {i : Instr} {pin : Byte} {s t : State} (hj : hasJob i s (.start pin))
    (h : initCommon pin s = .next t) : MovesAsListed i s t := by
  cases hi : s.init with
  | true => cases (initCommon_ready hi).symm.trans h; exact .of_eq rfl rfl
  | false =>
    by_cases hproceeds : allocationProceeds s
    · exact movesAsListed_of_started ⟨hj, hi, rfl⟩ ((initCommon_proceeds hi hproceeds).symm.trans h)
    · cases (initCommon_fails hi hproceeds).symm.trans h; exact .of_eq rfl rfl

theorem sendFrame_movesAsListed {i : Instr} {fptr flen : Word32} {br : Byte} {s t : State}
    (hj : hasJob i s (.send (.mem fptr) br)) (h : sendFrame fptr flen br s = .next t) : MovesAsListed i s t := by
  cases hi : s.init with
  | false => cases (sendFrame_uninitialized hi fptr flen br).symm.trans h; exact .of_eq rfl rfl
  | true =>
    by_cases hchecked : frameChecked s.params fptr flen
    · exact movesAsListed_of_started ⟨hj, hi, rfl⟩ ((sendFrame_checked hi hchecked).symm.trans h)
    · cases (sendFrame_unchecked hi hchecked).symm.trans h; exact .of_eq rfl rfl

/-- Every command moves `HANDLE` and `BRIGHT` as it may. -/
theorem exec_movesAsListed {i : Instr} {s t : State} (h : exec i s = .next t) : MovesAsListed i s t := by
  by_cases hc : isColorModel i = true
  · obtain ⟨code, value, he, -⟩ := exec_colorModel hc s
    cases he.symm.trans h
    exact .of_eq rfl rfl
  · cases i with
    | init | initpin => exact initCommon_movesAsListed (jobOf_eq_some.mp rfl) h
    | update | updateb => exact sendFrame_movesAsListed (jobOf_eq_some.mp rfl) h
    | clear =>
      cases hi : s.init with
      | false => cases (execClear_uninitialized hi).symm.trans h; exact .of_eq rfl rfl
      | true => exact movesAsListed_of_started ⟨jobOf_eq_some.mp rfl, hi, rfl⟩ ((execClear_ready hi).symm.trans h)
    | destroy =>
      cases hi : s.init with
      | false => cases (execDestroy_uninitialized hi).symm.trans h; exact .of_eq rfl rfl
      | true => exact movesAsListed_of_started ⟨jobOf_eq_some.mp rfl, hi, rfl⟩ ((execDestroy_ready hi).symm.trans h)
    | setbr b => cases h; exact ⟨fun hne => absurd rfl hne, fun _ => .inl rfl⟩
    | isinit | getbr => cases h; exact .of_eq rfl rfl
    | _ => exact absurd rfl hc

theorem Inv.ne_release {s : State} (h : Inv s) : s.phase ≠ .release := by
  intro hp
  have hph := h.phase
  simp only [phaseFits, hp] at hph

/-- A block that goes on with a `DESTROY` is READY (R39, R190). -/
theorem Inv.init_of_teardown {s : State} (h : Inv s) (ha : s.accepts = false) (hj : currentJob s = some .teardown) :
    s.init = true := by
  obtain ⟨job, hjob, hrun⟩ := h.running ha
  obtain rfl : Job.teardown = job := Option.some.inj (hj.symm.trans hjob)
  have hph := hrun.phase
  rcases hp : s.phase with _ | _ | _ | _ | _ | _ | _ <;> simp only [runningPhase, owns, hp] at hph
  · rw [hrun.accepts_iff_idle.mpr hp] at ha
    cases ha
  · cases hph.2.2.2
  · exact hph.2.1
  · exact hph.1.2.1
  · exact hph.2.1
  · exact hph.2.1
  · exact hph.1.2.1

/-- A step from a state of the invariant moves them as the command in hand may. -/
theorem step_movesAsListed {s t : State} (hinv : Inv s) (h : step s = .next t) :
    (t.handle = s.handle ∧ t.bright = s.bright) ∨ ∃ i, performs s i ∧ MovesAsListed i s t := by
  obtain rfl | ⟨u, ht, hdone⟩ := step_cases h
  · exact .inl ⟨rfl, rfl⟩
  have hu : (u.handle = s.handle ∧ u.bright = s.bright) ∨ ∃ i, performs s i ∧ MovesAsListed i s u := by
    obtain ⟨p, rest, ha, hport, ⟨i, hd, he⟩ | ⟨why, -, rfl⟩⟩ | ⟨p, i, job, ha, hc, hd, hj, he⟩ := hdone
    · obtain ⟨handle, bright⟩ := exec_movesAsListed he
      exact .inr ⟨i, performs_accepted ha hport hd, handle, bright⟩
    · exact .inl ⟨rfl, rfl⟩
    · refine .inr ⟨i, performs_resumed ha hc hd, ?_⟩
      refine (runJob_runTo (fun hp => absurd hp hinv.ne_release) he).movesAsListed hj hinv.init_of_acquire ?_
      rintro rfl
      exact hinv.init_of_teardown ha (currentJob_of_hasJob hc hd hj)
  obtain ⟨-, rfl⟩ | ⟨-, rfl⟩ := ht
  · obtain hsame | ⟨i, hi, handle, bright⟩ := hu
    · exact .inl hsame
    · exact .inr ⟨i, hi, handle, bright⟩
  · exact hu

/-- Without a handle the phases of `Wr` and `Rel` make no call: they end in a model fault (R181, R229). -/
theorem move_faults_of_no_handle {s : State} (hh : s.handle = none) (hp : s.phase = .data ∨ s.phase = .gap ∨ s.phase = .release)
    (job : Job) : ∃ r, serializerMove job s = .faults r := by
  have hwrite (bytes : List Byte) (after : Phase) : writeMove job bytes after s = .faults .noHandle := by
    simp only [writeMove, hh]
  obtain hp | hp | hp := hp
  · rw [serializerMove_data hp, dataMove]
    cases writtenBytes s.symbuf with
    | none => exact ⟨_, rfl⟩
    | some bytes => exact ⟨_, hwrite bytes .gap⟩
  · exact ⟨_, (serializerMove_gap hp).trans (hwrite _ _)⟩
  · exact ⟨.noHandle, (serializerMove_release hp).trans (by simp only [releaseMove, hh])⟩

/-- Settles O48: `HANDLE` moves as listed in a command and in a step, and is needed by `Wr` and `Rel`. -/
theorem handleMovesOnlyByInitAndDestroy : Obligations.HandleMovesOnlyByInitAndDestroy := by
  refine ⟨fun i s t h => (exec_movesAsListed h).handle, fun s t hinv h hne => ?_,
    fun job s hh hp => move_faults_of_no_handle hh hp job⟩
  obtain ⟨handle, -⟩ | ⟨i, hi, hmoves⟩ := step_movesAsListed hinv h
  · exact absurd handle.symm hne
  · exact ⟨i, hi, hmoves.handle hne⟩

/-- Settles O49: `BRIGHT` moves as listed in a command and in a step. -/
theorem brightMovesOnlyBySetbrAndDestroy : Obligations.BrightMovesOnlyBySetbrAndDestroy := by
  refine ⟨fun i s t h => (exec_movesAsListed h).bright, fun s t hinv h hne => ?_⟩
  obtain ⟨-, bright⟩ | ⟨i, hi, hmoves⟩ := step_movesAsListed hinv h
  · exact absurd bright.symm hne
  · exact ⟨i, hi, hmoves.bright hne⟩

/-! ## Settle delays -/

theorem delaysBounded_of_trace_eq {s t : State} (h : t.trace = s.trace) : delaysBounded s t :=
  ⟨[], by rw [h, List.append_nil], nofun⟩

/-- An event that is no settle delay adds none (R178). -/
theorem delaysBounded_of_event {s t : State} {e : Event} (h : t.trace = s.trace ++ [e]) (he : ∀ ms lasted, e ≠ .dly ms lasted) :
    delaysBounded s t :=
  ⟨[e], h, fun ms lasted hmem => absurd (List.mem_singleton.mp hmem).symm (he ms lasted)⟩

theorem delaysBounded.trans {s t u : State} (hp : t.params = s.params) (h : delaysBounded s t) (h' : delaysBounded t u) :
    delaysBounded s u := by
  obtain ⟨es, he, hbound⟩ := h
  obtain ⟨es', he', hbound'⟩ := h'
  refine ⟨es ++ es', by rw [he', he, List.append_assoc], fun ms lasted hmem => ?_⟩
  obtain hmem | hmem := List.mem_append.mp hmem
  · exact hbound ms lasted hmem
  · rw [← hp]
    exact hbound' ms lasted hmem

@[simp] theorem endTransmit_trace (job : Job) (r : Status) (s : State) : (endTransmit job r s).trace = s.trace := by
  cases job <;> rfl

/-- A move adds at most one settle delay, in `SETTLE` (R178). -/
theorem move_to_delaysBounded {job : Job} {s t : State} (h : serializerMove job s = .to t) : delaysBounded s t := by
  rcases move_to_cases h with ⟨pin, hd, as, -, -, -, rfl⟩ | ⟨pin, as, -, -, -, rfl⟩ | ⟨-, -, rfl⟩ |
    ⟨bytes, w, ws, after, -, -, -, ⟨-, rfl⟩ | ⟨-, rfl⟩⟩ | ⟨x, ds, -, -, rfl⟩ | ⟨hd, -, -, rfl⟩
  · exact delaysBounded_of_event rfl nofun
  · exact delaysBounded_of_event rfl nofun
  · exact delaysBounded_of_trace_eq rfl
  · exact delaysBounded_of_event rfl nofun
  · exact delaysBounded_of_event (endTransmit_trace _ _ _) nofun
  · refine ⟨_, endTransmit_trace _ _ _, fun ms lasted hmem => ?_⟩
    obtain ⟨rfl, rfl⟩ := Event.dly.inj (List.mem_singleton.mp hmem)
    exact ⟨rfl, Nat.le_add_right _ _⟩
  · exact delaysBounded_of_event rfl nofun

theorem move_waits_delaysBounded {job : Job} {s t : State} (h : serializerMove job s = .waits t) : delaysBounded s t := by
  rcases move_waits_cases h with ⟨rfl, -⟩ | ⟨-, -, rfl⟩ <;> exact delaysBounded_of_trace_eq rfl

theorem runJob_delaysBounded {job : Job} {s t : State} (h : runJob job s = .next t) : delaysBounded s t := by
  have hrun : t.params = s.params ∧ delaysBounded s t :=
    runMoves_induct (P := fun u => u.params = s.params ∧ delaysBounded s u)
      (fun _ _ ⟨hp, hu⟩ hm => ⟨(move_to_outside hm).params.trans hp, hu.trans hp (move_to_delaysBounded hm)⟩)
      (fun _ _ ⟨hp, hu⟩ hm => ⟨(move_waits_outside hm).params.trans hp, hu.trans hp (move_waits_delaysBounded hm)⟩)
      ⟨rfl, delaysBounded_of_trace_eq rfl⟩ h
  exact hrun.2

theorem exec_delaysBounded {i : Instr} {s t : State} (h : exec i s = .next t) : delaysBounded s t := by
  cases exec_performed i s with
  | ended _ eq | allocationFails _ _ _ eq => cases eq.symm.trans h; exact delaysBounded_of_trace_eq rfl
  | @starts job row eq =>
    have hrun := runJob_delaysBounded (eq.symm.trans h)
    cases job <;> exact hrun

/-- Settles O51: the delays a command adds are its job's, and a response adds none. -/
theorem settleDelayIsALowerBound : Obligations.SettleDelayIsALowerBound := by
  refine ⟨fun i s t => exec_delaysBounded, fun s t h => ?_⟩
  obtain rfl | ⟨u, ht, hdone⟩ := step_cases h
  · exact delaysBounded_of_trace_eq rfl
  have hu : delaysBounded s u := by
    obtain ⟨p, rest, -, -, ⟨i, -, he⟩ | ⟨why, -, rfl⟩⟩ | ⟨p, i, job, -, -, -, -, he⟩ := hdone
    · exact exec_delaysBounded (s := accept p rest s) he
    · exact delaysBounded_of_trace_eq rfl
    · exact runJob_delaysBounded he
  obtain ⟨-, rfl⟩ | ⟨-, rfl⟩ := ht <;> exact hu

end Sys2Proof.Machine
end

section
/-! PROOFS. Waiting and ending (spec/60_exceptions.md R236; spec/42_serializer_driver.md R171, R194): a command in progress makes
no move while its call is not answered, and ends when every call is; and two commands that send the same frame run alike. -/

namespace Sys2Proof.Machine

/-! ## A call that is not answered -/

/-- The call the block waits for in its phase is not answered (R236). -/
def Unanswered (s : State) : Prop :=
  (s.phase = .acquire ∧ s.answers.acq = []) ∨ (s.phase = .data ∧ s.answers.wr = []) ∨
    (s.phase = .gap ∧ s.answers.wr = []) ∨ (s.phase = .settle ∧ s.answers.dly = [])

/-- In the middle of a job, no answer is no move. -/
theorem Running.move_unanswered {job : Job} {s : State} (h : Running job s) (hu : Unanswered s) :
    serializerMove job s = .waits s := by
  have hph := h.phase
  obtain ⟨hp, ha⟩ | ⟨hp, ha⟩ | ⟨hp, ha⟩ | ⟨hp, ha⟩ := hu <;> simp only [runningPhase, owns, hp] at hph
  · obtain ⟨-, -, -, hstart⟩ := hph
    cases job with
    | start pin => rw [serializerMove_acquire hp, acquireMove_unanswered ha]
    | send | teardown => cases hstart
  · obtain ⟨⟨-, -, hhandle⟩, hwritten⟩ := hph
    obtain ⟨bytes, hbytes⟩ := Option.isSome_iff_exists.mp hwritten
    rw [serializerMove_data hp, dataMove, hbytes]
    exact writeMove_unanswered hhandle ha
  · obtain ⟨-, -, hhandle⟩ := hph
    rw [serializerMove_gap hp, writeMove_unanswered hhandle ha]
  · rw [serializerMove_settle hp, settleMove_unended ha]

theorem accepts_of_not_idle {s : State} (hp : s.phase ≠ .idle) : s.accepts = false := by
  rw [← Bool.not_eq_true, accepts_iff]
  exact fun ha => hp ha.2

/-- Settles O53: the job in progress makes no move, so neither does the step. -/
theorem unansweredCallHoldsThePort : Obligations.UnansweredCallHoldsThePort := by
  intro s hinv hu
  have ha : s.accepts = false := by
    apply accepts_of_not_idle
    obtain ⟨hp, -⟩ | ⟨hp, -⟩ | ⟨hp, -⟩ | ⟨hp, -⟩ := hu <;> simp [hp]
  obtain ⟨job, hjob, hrun⟩ := hinv.running ha
  have hstop : runJob job s = .next s := runMoves_waits (hrun.move_unanswered hu)
  rw [step_resumes ha hjob, hstop]
  simp only [settlePort, ha, Bool.false_eq_true, if_false]

/-! ## Every call answered -/

/-- What a job needs from the platform in order to end, from its phase on (R236): the answers to its calls, and in the phases
before the frame is read, the frame's bytes. -/
def supplied (job : Job) (s : State) : Prop :=
  match s.phase with
  | .idle => True
  | .acquire => s.answers.acq ≠ [] ∧ 2 ≤ s.answers.wr.length ∧ s.answers.dly ≠ [] ∧ jobAdmitted s job
  | .encode => 2 ≤ s.answers.wr.length ∧ s.answers.dly ≠ [] ∧ jobAdmitted s job
  | .data => 2 ≤ s.answers.wr.length ∧ s.answers.dly ≠ []
  | .gap => 1 ≤ s.answers.wr.length ∧ s.answers.dly ≠ []
  | .settle => s.answers.dly ≠ []
  | .release => True

theorem jobAdmitted_congr {s t : State} {job : Job} (hm : t.mem = s.mem) (hp : t.params = s.params) (h : jobAdmitted s job) :
    jobAdmitted t job := by
  unfold jobAdmitted frameAdmitted at *
  rw [hm, hp]
  exact h

theorem supplied_of_answersEveryCall {job : Job} {s : State} (h : answersEveryCall s) (hadm : jobAdmitted s job) :
    supplied job s := by
  obtain ⟨hacq, hwr, hdly⟩ := h
  have hacq : s.answers.acq ≠ [] := List.ne_nil_of_length_pos hacq
  have hdly : s.answers.dly ≠ [] := List.ne_nil_of_length_pos hdly
  unfold supplied
  cases s.phase with
  | idle | release => trivial
  | acquire => exact ⟨hacq, hwr, hdly, hadm⟩
  | encode => exact ⟨hwr, hdly, hadm⟩
  | data => exact ⟨hwr, hdly⟩
  | gap => exact ⟨Nat.le_of_succ_le hwr, hdly⟩
  | settle => exact hdly

theorem endTransmit_supplied (job : Job) (r : Status) (s : State) : supplied job (endTransmit job r s) := by
  cases job <;> exact trivial

/-- Each move uses up no more than the phases after it can spare. -/
theorem move_to_supplied {job : Job} {s t : State} (h : supplied job s) (hm : serializerMove job s = .to t) :
    supplied job t := by
  rcases move_to_cases hm with ⟨pin, hd, as, -, hp, -, rfl⟩ | ⟨pin, as, -, -, -, rfl⟩ | ⟨hp, -, rfl⟩ |
    ⟨bytes, w, ws, after, -, hw, ⟨hp, -, rfl⟩ | ⟨hp, -, rfl⟩, ⟨-, rfl⟩ | ⟨-, rfl⟩⟩ | ⟨x, ds, -, -, rfl⟩ | ⟨hd, -, -, rfl⟩
  · simp only [supplied, hp] at h
    obtain ⟨-, hwr, hdly, hadm⟩ := h
    exact ⟨hwr, hdly, jobAdmitted_congr rfl rfl hadm⟩
  · exact trivial
  · simp only [supplied, hp] at h
    obtain ⟨hwr, hdly, -⟩ := h
    exact ⟨hwr, hdly⟩
  · simp only [supplied, hp, hw, List.length_cons] at h
    obtain ⟨hwr, hdly⟩ := h
    exact ⟨Nat.le_of_succ_le_succ hwr, hdly⟩
  · exact endTransmit_supplied _ _ _
  · simp only [supplied, hp] at h
    exact h.2
  · exact endTransmit_supplied _ _ _
  · exact endTransmit_supplied _ _ _
  · exact trivial

/-- With its needs supplied a job waits only where it has ended (R236). -/
theorem Running.idle_of_waits {job : Job} {s t : State} (h : Running job s) (hs : supplied job s)
    (hm : serializerMove job s = .waits t) : t.phase = .idle := by
  have hph := h.phase
  obtain ⟨rfl, hp | ⟨hp, hwait⟩ | ⟨hp, hwr⟩ | ⟨hp, hwr⟩ | ⟨hp, hdly⟩⟩ | ⟨hp, hunread, -⟩ := move_waits_cases hm
  · exact hp
  · simp only [supplied, hp] at hs
    simp only [runningPhase, hp] at hph
    obtain hacq | hstart := hwait
    · exact absurd hacq hs.1
    · rw [hstart] at hph
      cases hph.2.2.2
  · simp [supplied, hp, hwr] at hs
  · simp [supplied, hp, hwr] at hs
  · simp [supplied, hp, hdly] at hs
  · simp only [supplied, hp] at hs
    obtain ⟨-, -, hadm⟩ := hs
    exact absurd (readFrame_length_of_jobAdmitted hadm) hunread.ne

/-- A job in a sound state, with its needs supplied, runs to its end (R236). -/
theorem Running.runJob_ends {job : Job} {s : State} (h : Running job s) (hs : supplied job s) :
    ∃ t, runJob job s = .next t ∧ t.accepts = true := by
  obtain ⟨t, ht, hrun, -⟩ := running_runJob h
  refine ⟨t, ht, hrun.accepts_iff_idle.mpr ?_⟩
  have hkeeps (u v : State) (hu : Running job u ∧ supplied job u) (hm : serializerMove job u = .to v) :
      Running job v ∧ supplied job v := ⟨running_move_to hu.1 hm, move_to_supplied hu.2 hm⟩
  obtain ⟨hidle, -⟩ | ⟨u, ⟨hu, hus⟩, hm⟩ := runMoves_stops hkeeps (movesLeft_le _ _) ⟨h, hs⟩ ht
  · exact hidle
  · exact hu.idle_of_waits hus hm

/-- A command of a sound block starts its job in a state that fits it. -/
theorem Ready.jobStart {i : Instr} {job : Job} {s : State} (h : Ready s) (row : startRow i s job (jobStart job s))
    (hj : currentJob s = some job) : Running job (jobStart job s) := by
  obtain ⟨-, hrow⟩ := row
  cases job with
  | start pin => exact (h.answers _).startAcquire hrow.1 hj
  | send | teardown => exact h.startTransmit hrow.1 hj

theorem answersEveryCall_jobStart {s : State} (h : answersEveryCall s) (job : Job) : answersEveryCall (jobStart job s) := by
  cases job <;> exact h

theorem jobAdmitted_jobStart {s : State} {job : Job} (h : jobAdmitted s job) : jobAdmitted (jobStart job s) job := by
  cases job <;> exact jobAdmitted_congr rfl rfl h

/-- A command of a sound block whose calls are all answered has ended (R236). -/
theorem Ready.exec_ends {i : Instr} {s : State} (h : Ready s) (hcur : currentJob s = jobOf i s) (hanswers : answersEveryCall s)
    (hadm : ∀ job, jobOf i s = some job → jobAdmitted s job) : ∃ t, exec i s = .next t ∧ t.accepts = true := by
  have hrest : s.accepts = true := (accepts_iff s).mpr ⟨h.notBusy, h.idle⟩
  cases exec_performed i s with
  | ended _ eq | allocationFails _ _ _ eq => exact ⟨_, eq, hrest⟩
  | @starts job row eq =>
    have hjob : jobOf i s = some job := jobOf_eq_some.mpr row.1
    rw [eq]
    exact (h.jobStart row (hcur.trans hjob)).runJob_ends
      (supplied_of_answersEveryCall (answersEveryCall_jobStart hanswers job) (jobAdmitted_jobStart (hadm job hjob)))

/-- The word that a sound block accepts has ended, legal or not, if its calls are all answered (R236). -/
theorem Inv.runWord_ends {s : State} {p : Presented} {rest : List Presented} (h : Inv s) (ha : s.accepts = true)
    (hport : s.port = p :: rest) (hanswers : answersEveryCall s) (hadm : ∀ job, nextJob s = some job → jobAdmitted s job) :
    ∃ t, runWord p.word (accept p rest s) = .next t ∧ t.accepts = true ∧ t.responses = s.responses := by
  cases hd : decode p.word with
  | illegal why => exact ⟨_, runWord_illegal hd _, ha, rfl⟩
  | legal i =>
    have hnext : nextJob s = jobOf i s := by simp only [nextJob, ha, hport, hd, if_true]
    obtain ⟨t, ht, hends⟩ := (h.ready ha p rest).exec_ends (currentJob_accept hd rest s) hanswers
      fun job hjob => hadm job (hnext.trans hjob)
    exact ⟨t, (runWord_legal hd _).trans ht, hends, (exec_outside ht).responses⟩

/-- A step whose command has ended leaves the block at rest, with the command's response (R72). -/
theorem step_ends {s u : State} (h : step s = settlePort (.next u)) (hu : u.accepts = true) (hr : u.responses = s.responses) :
    ∃ t, step s = .next t ∧ t.busy = false ∧ t.phase = .idle ∧ t.current = none ∧
      t.responses = s.responses ++ [⟨t.status, t.result⟩] := by
  obtain ⟨hbusy, hidle⟩ := (accepts_iff u).mp hu
  refine ⟨respond u, ?_, hbusy, hidle, rfl, ?_⟩
  · rw [h]
    simp only [settlePort, hu, if_true]
  · rw [respond_responses, hr]
    rfl

/-- Settles O54: the command accepted, or the one that goes on, has all it needs, and so ends. -/
theorem commandEndsWhenEveryCallIsAnswered : Obligations.CommandEndsWhenEveryCallIsAnswered := by
  intro s hinv hanswers hadm
  cases ha : s.accepts with
  | false =>
    obtain ⟨job, hjob, hrun⟩ := hinv.running ha
    have hnext : nextJob s = some job := by simp only [nextJob, ha, hjob, Bool.false_eq_true, if_false]
    obtain ⟨u, hu, hends⟩ := hrun.runJob_ends (supplied_of_answersEveryCall hanswers (hadm job hnext))
    have hstep : step s = settlePort (.next u) := by rw [step_resumes ha hjob, hu]
    obtain ⟨t, ht, hbusy, hidle, hcurrent, hresponse⟩ := step_ends hstep hends (runJob_outside hu).responses
    exact ⟨t, ht, hbusy, hidle, hcurrent, fun _ => hresponse⟩
  | true =>
    have hidle := ((accepts_iff s).mp ha).2
    cases hport : s.port with
    | nil =>
      obtain ⟨hbusy, -, hcurrent⟩ := hinv.idle hidle
      exact ⟨s, step_no_command ha hport, hbusy, hidle, hcurrent, fun hcommand => absurd hcommand (by simp [hidle])⟩
    | cons p rest =>
      obtain ⟨u, hu, hends, hresponses⟩ := hinv.runWord_ends ha hport hanswers hadm
      have hstep : step s = settlePort (.next u) := by rw [step_accepts ha hport, hu]
      obtain ⟨t, ht, hbusy, hidle, hcurrent, hresponse⟩ := step_ends hstep hends hresponses
      exact ⟨t, ht, hbusy, hidle, hcurrent, fun _ => hresponse⟩

/-! ## Two commands that send the same frame -/

/-- `s` with other values of the three registers that the serializer does not read. -/
def withRegisters (s : State) (b : Byte) (status : BitVec 8) (result : Word32) : State :=
  { s with bright := b, status := status, result := result }

/-- The two states are the same but for `BRIGHT`, `STATUS` and `RESULT`, and where the command has ended `STATUS` too is the
same. -/
inductive Alike (s : State) : State → Prop where
  | mk (b : Byte) (status : BitVec 8) (result : Word32) (ended : s.phase = .idle → status = s.status) :
      Alike s (withRegisters s b status result)

theorem readFrame_withRegisters (s : State) (source : FrameSource) (b : Byte) (status : BitVec 8) (result : Word32) :
    readFrame (withRegisters s b status result) source = readFrame s source := readFrame_congr source rfl rfl rfl

/-- Two moves from states that are alike. -/
inductive MovesAlike : Move → Move → Prop where
  | moves {s t : State} (h : Alike s t) : MovesAlike (.to s) (.to t)
  | waits {s t : State} (h : Alike s t) : MovesAlike (.waits s) (.waits t)
  | faults (r : Fault) : MovesAlike (.faults r) (.faults r)

theorem writeMove_alike {s t : State} (h : Alike s t) (source : FrameSource) (br : Byte) (bytes : List Byte) {after : Phase}
    (hafter : after ≠ .idle) :
    MovesAlike (writeMove (.send source br) bytes after s) (writeMove (.send source br) bytes after t) := by
  obtain ⟨b, status, result, ended⟩ := h
  cases hh : s.handle with
  | none =>
    have hh' : (withRegisters s b status result).handle = none := hh
    simp only [writeMove, hh, hh']
    exact .faults _
  | some hd =>
    have hv : s.hvalid = true := Option.isSome_iff_exists.mpr ⟨hd, hh⟩
    have hv' : (withRegisters s b status result).hvalid = true := hv
    cases hw : s.answers.wr with
    | nil =>
      rw [writeMove_unanswered hv hw, writeMove_unanswered hv' hw]
      exact .waits ⟨b, status, result, ended⟩
    | cons w ws =>
      by_cases hok : w = .ok bytes.length
      · subst hok
        rw [writeMove_ok hv hw, writeMove_ok hv' hw]
        exact .moves ⟨b, status, result, fun hp => absurd hp hafter⟩
      · rw [writeMove_failed hv hw hok, writeMove_failed hv' hw hok]
        exact .moves ⟨b, _, _, fun _ => rfl⟩

/-- From states that are alike a frame that a command other than `DESTROY` sends moves alike. -/
theorem serializerMove_alike {s t : State} (h : Alike s t) (source : FrameSource) (br : Byte) :
    MovesAlike (serializerMove (.send source br) s) (serializerMove (.send source br) t) := by
  have halike := h
  obtain ⟨b, status, result, ended⟩ := h
  have hphase : (withRegisters s b status result).phase = s.phase := rfl
  cases hp : s.phase with
  | idle =>
    rw [serializerMove_idle hp, serializerMove_idle (hphase.trans hp)]
    exact .waits halike
  | acquire =>
    simp only [serializerMove, hp, hphase]
    exact .waits halike
  | encode =>
    have hread := readFrame_withRegisters s source b status result
    rw [serializerMove_encode hp, serializerMove_encode (hphase.trans hp)]
    obtain hlt | heq := Nat.lt_or_eq_of_le (readFrame_length_le s source)
    · have hlt' : (readFrame (withRegisters s b status result) source).length < s.params.ledCount := by rwa [hread]
      rw [encodeMove_stuck hlt, encodeMove_stuck hlt', Job.source, hread]
      exact .waits ⟨b, status, result, ended⟩
    · have heq' : (readFrame (withRegisters s b status result) source).length = s.params.ledCount := by rwa [hread]
      rw [encodeMove_whole heq, encodeMove_whole heq', Job.source, hread]
      exact .moves ⟨b, status, result, nofun⟩
  | data =>
    rw [serializerMove_data hp, serializerMove_data (hphase.trans hp)]
    have hsymbuf : (withRegisters s b status result).symbuf = s.symbuf := rfl
    simp only [dataMove, hsymbuf]
    cases writtenBytes s.symbuf with
    | none => exact .faults _
    | some bytes => exact writeMove_alike halike source br bytes nofun
  | gap =>
    rw [serializerMove_gap hp, serializerMove_gap (hphase.trans hp)]
    exact writeMove_alike halike source br s.params.trailer nofun
  | settle =>
    rw [serializerMove_settle hp, serializerMove_settle (hphase.trans hp)]
    have hdly : (withRegisters s b status result).answers.dly = s.answers.dly := rfl
    cases hd : s.answers.dly with
    | nil =>
      rw [settleMove_unended hd, settleMove_unended (hdly.trans hd)]
      exact .waits halike
    | cons x ds =>
      rw [settleMove_ended hd, settleMove_ended (hdly.trans hd)]
      exact .moves ⟨b, _, _, fun _ => rfl⟩
  | release =>
    rw [serializerMove_release hp, serializerMove_release (hphase.trans hp)]
    have hhandle : (withRegisters s b status result).handle = s.handle := rfl
    cases hh : s.handle with
    | none =>
      simp only [releaseMove, hhandle, hh]
      exact .faults _
    | some hd =>
      rw [releaseMove_owned hh, releaseMove_owned (hhandle.trans hh)]
      exact .moves ⟨_, _, _, fun _ => rfl⟩

theorem runMoves_alike {n : Nat} {source : FrameSource} {br : Byte} {s t u v : State} (h : Alike s t)
    (hu : runMoves n (.send source br) s = .next u) (hv : runMoves n (.send source br) t = .next v) : Alike u v := by
  induction n generalizing s t with
  | zero => cases hu; cases hv; exact h
  | succ n ih =>
    have hmoves := serializerMove_alike h source br
    simp only [runMoves] at hu hv
    generalize serializerMove (.send source br) s = m at hmoves hu
    generalize serializerMove (.send source br) t = m' at hmoves hv
    cases hmoves with
    | moves h => exact ih h hu hv
    | waits h => cases hu; cases hv; exact h
    | faults r => cases hu

/-- The same frame command, of a block with other values in these registers, is refused alike or runs alike (R182, R186). -/
theorem sendFrame_alike {fptr flen : Word32} {br b : Byte} {status : BitVec 8} {result : Word32} {s u v : State}
    (hu : sendFrame fptr flen br s = .next u) (hv : sendFrame fptr flen br (withRegisters s b status result) = .next v) :
    Alike u v := by
  have hinit : (withRegisters s b status result).init = s.init := rfl
  cases hi : s.init with
  | false =>
    cases (sendFrame_uninitialized hi fptr flen br).symm.trans hu
    cases (sendFrame_uninitialized (hinit.trans hi) fptr flen br).symm.trans hv
    exact ⟨b, _, _, fun _ => rfl⟩
  | true =>
    by_cases hchecked : frameChecked s.params fptr flen
    · have hstart : Alike (startTransmit s) (startTransmit (withRegisters s b status result)) := ⟨b, status, result, nofun⟩
      exact runMoves_alike hstart ((sendFrame_checked hi hchecked).symm.trans hu)
        ((sendFrame_checked (hinit.trans hi) hchecked).symm.trans hv)
    · cases (sendFrame_unchecked hi hchecked).symm.trans hu
      cases (sendFrame_unchecked (hinit.trans hi) hchecked).symm.trans hv
      exact ⟨b, _, _, fun _ => rfl⟩

/-- Settles O46: after SETBR the block is as before but for the registers that the serializer does not read. -/
theorem setbrThenUpdateSendsWhatUpdatebSends : Obligations.SetbrThenUpdateSendsWhatUpdatebSends := by
  intro s t u v fptr flen b ht hu hv
  cases ht
  obtain ⟨_, _, _, ended⟩ : Alike v u := sendFrame_alike hv (b := b) (status := 0x00) (result := 0) hu
  exact ⟨rfl, rfl, rfl, ended⟩

end Sys2Proof.Machine
end
